-- ==== Sys2Proof/Word.lean ====
section
/-! DEFINITION. The word of the block (rule R7) and the binary32 datum that travels in it (rules R8, R92). -/

namespace Sys2Proof

/-- A 32-bit word, bit 0 the least significant (rule R7): a header, a payload word or a response word. -/
abbrev Word := BitVec 32

/-- `F32` of rule R8: a binary32 datum as its bit pattern, bit 31 the sign, bits 30:23 the biased exponent, bits 22:0
the fraction (rules R7, R92). A bit vector, so that NaN patterns and signed zeros travel unchanged. -/
abbrev F32 := BitVec 32

end Sys2Proof
end

