-- ==== Sys2Proof/Syntax.lean ====
section
/-! DEFINITION. The 19 commands of the block (rule R93), one constructor each, with their arguments and payload operands. -/

namespace Sys2Proof

/-- The kinds of instance that own a command port (rules R90, R104), in the order of the `unit` field (rule R91). -/
inductive PortId where
  | xtc | bq | dl | cfb | fos
deriving DecidableEq, Repr

/-- `XTC.mode.hsm` (rule R32): the head-shadow models 0 None, 1 FirstOrderShaper, 2 BiquadCascade. The reserved value 3
is no head-shadow model: a header that carries it is illegal (rule R103). -/
inductive HeadShadow where
  | none | firstOrderShaper | biquadCascade
deriving DecidableEq, Repr

/-- The names of the 19 operations of rule R93: what a fault records (rule R301) and what the opcode map is keyed by. -/
inductive Op where
  | xtcReconfigure | xtcProcess | xtcSetBypass | xtcGetLatency
  | bqSetLowpass | bqSetHighpass | bqSetPeaking | bqSetShelf | bqSetAllpass | bqProcess
  | dlConfigure | dlConfigureFrac | dlPut | dlGet
  | cfbConfigure | cfbPut | cfbGet
  | fosConfigure | fosProcess
deriving DecidableEq, Repr

/-- A command with its `arg` fields and its payload operands (rules R93 to R97). One constructor per row of
`spec/opcode_table.json`. -/
inductive Instr where
  /-- `XTC_RECONFIGURE` (rules R94, R252): flags, then `sampleRateHz, delayMicroseconds, decayDb, centerDb`. -/
  | xtcReconfigure (phantom : Bool) (hsm : HeadShadow) (interp cen : Bool) (rate delayUs decayDb centerDb : F32)
  /-- `XTC_PROCESS` (rules R95, R255): the pairs `(L[i], R[i])`; `N` is how many there are. -/
  | xtcProcess (pairs : List (F32 × F32))
  /-- `XTC_SET_BYPASS` (rules R97, R261). -/
  | xtcSetBypass (b : Bool)
  /-- `XTC_GET_LATENCY` (rule R262). -/
  | xtcGetLatency
  /-- `BQ_SET_LOWPASS` (rule R153). -/
  | bqSetLowpass (freq rate q : F32)
  /-- `BQ_SET_HIGHPASS` (rule R154). -/
  | bqSetHighpass (freq rate q : F32)
  /-- `BQ_SET_PEAKING` (rule R155). -/
  | bqSetPeaking (freq rate q gainDb : F32)
  /-- `BQ_SET_SHELF` (rule R156). -/
  | bqSetShelf (freq rate q gainDb : F32)
  /-- `BQ_SET_ALLPASS` (rule R157). -/
  | bqSetAllpass (freq rate q : F32)
  /-- `BQ_PROCESS` (rule R158). -/
  | bqProcess (x : F32)
  /-- `DL_CONFIGURE` (rules R96, R181). -/
  | dlConfigure (len : BitVec 24)
  /-- `DL_CONFIGURE_FRAC` (rule R182). -/
  | dlConfigureFrac (delaySamples : F32)
  /-- `DL_PUT` (rule R183). -/
  | dlPut (x : F32)
  /-- `DL_GET` (rule R184). -/
  | dlGet
  /-- `CFB_CONFIGURE` (rules R97, R212). -/
  | cfbConfigure (interp : Bool) (delayUs rate : F32)
  /-- `CFB_PUT` (rule R213). -/
  | cfbPut (x : F32)
  /-- `CFB_GET` (rule R214). -/
  | cfbGet
  /-- `FOS_CONFIGURE` (rules R97, R232). -/
  | fosConfigure (clampEn : Bool) (rate : F32)
  /-- `FOS_PROCESS` (rule R233). -/
  | fosProcess (x : F32)
deriving DecidableEq, Repr

/-- The operation a command is of. -/
def Instr.op : Instr → Op
  | .xtcReconfigure .. => .xtcReconfigure
  | .xtcProcess _ => .xtcProcess
  | .xtcSetBypass _ => .xtcSetBypass
  | .xtcGetLatency => .xtcGetLatency
  | .bqSetLowpass .. => .bqSetLowpass
  | .bqSetHighpass .. => .bqSetHighpass
  | .bqSetPeaking .. => .bqSetPeaking
  | .bqSetShelf .. => .bqSetShelf
  | .bqSetAllpass .. => .bqSetAllpass
  | .bqProcess _ => .bqProcess
  | .dlConfigure _ => .dlConfigure
  | .dlConfigureFrac _ => .dlConfigureFrac
  | .dlPut _ => .dlPut
  | .dlGet => .dlGet
  | .cfbConfigure .. => .cfbConfigure
  | .cfbPut _ => .cfbPut
  | .cfbGet => .cfbGet
  | .fosConfigure .. => .fosConfigure
  | .fosProcess _ => .fosProcess

/-- The unit an operation belongs to: the port that accepts it (rule R104). -/
def Op.port : Op → PortId
  | .xtcReconfigure | .xtcProcess | .xtcSetBypass | .xtcGetLatency => .xtc
  | .bqSetLowpass | .bqSetHighpass | .bqSetPeaking | .bqSetShelf | .bqSetAllpass | .bqProcess => .bq
  | .dlConfigure | .dlConfigureFrac | .dlPut | .dlGet => .dl
  | .cfbConfigure | .cfbPut | .cfbGet => .cfb
  | .fosConfigure | .fosProcess => .fos

/-- The port a command is sent to (rule R104). -/
def Instr.port (i : Instr) : PortId := i.op.port

/-- How many payload words follow the header of a command (rules R93, R105). -/
def Instr.payloadWords : Instr → Nat
  | .xtcReconfigure .. => 4
  | .xtcProcess pairs => 2 * pairs.length
  | .xtcSetBypass _ => 0
  | .xtcGetLatency => 0
  | .bqSetLowpass .. => 3
  | .bqSetHighpass .. => 3
  | .bqSetPeaking .. => 4
  | .bqSetShelf .. => 4
  | .bqSetAllpass .. => 3
  | .bqProcess _ => 1
  | .dlConfigure _ => 0
  | .dlConfigureFrac _ => 1
  | .dlPut _ => 1
  | .dlGet => 0
  | .cfbConfigure .. => 2
  | .cfbPut _ => 1
  | .cfbGet => 0
  | .fosConfigure .. => 1
  | .fosProcess _ => 1

/-- How many response words a command returns (rules R93, R105). -/
def Instr.responseWords : Instr → Nat
  | .xtcReconfigure .. => 0
  | .xtcProcess pairs => 2 * pairs.length
  | .xtcSetBypass _ => 0
  | .xtcGetLatency => 1
  | .bqSetLowpass .. => 0
  | .bqSetHighpass .. => 0
  | .bqSetPeaking .. => 0
  | .bqSetShelf .. => 0
  | .bqSetAllpass .. => 0
  | .bqProcess _ => 1
  | .dlConfigure _ => 0
  | .dlConfigureFrac _ => 0
  | .dlPut _ => 0
  | .dlGet => 1
  | .cfbConfigure .. => 0
  | .cfbPut _ => 0
  | .cfbGet => 1
  | .fosConfigure .. => 0
  | .fosProcess _ => 1

/-- The source's own spellings of the operations (rule R107): "these are the only pseudo-operations". The mode flags that
the source leaves without a carrier are arguments here (decision D16). -/
inductive SourceCall where
  /-- `Biquad.setLowPass(freq, rate, Q)`. -/
  | setLowPass (freq rate q : F32)
  /-- `Biquad.setHighPass(freq, rate, Q)`. -/
  | setHighPass (freq rate q : F32)
  /-- `Biquad.setPeaking(freq, rate, Q, gainDb)`. -/
  | setPeaking (freq rate q gainDb : F32)
  /-- `Biquad.setShelf(freq, rate, Q, gainDb)`. -/
  | setShelf (freq rate q gainDb : F32)
  /-- `Biquad.setAllPass(freq, rate, Q)`. -/
  | setAllPass (freq rate q : F32)
  /-- `Biquad.process(x)`. -/
  | biquadProcess (x : F32)
  /-- `DelayLine.configure(lengthSamples)`. -/
  | delayConfigure (lengthSamples : BitVec 24)
  /-- The fractional `DelayLine` configured with `delaySamples`. -/
  | delayConfigureFractional (delaySamples : F32)
  /-- `DelayLine.putSample(x)`. -/
  | delayPutSample (x : F32)
  /-- `DelayLine.getSample()`. -/
  | delayGetSample
  /-- `CorrectionFilterBank.configure(delay_us, rate)`, `i` from the build modelled. -/
  | bankConfigure (i : Bool) (delayUs rate : F32)
  /-- `CorrectionFilterBank.putSample(x)`. -/
  | bankPutSample (x : F32)
  /-- `CorrectionFilterBank.getSample()`. -/
  | bankGetSample
  /-- `reconfigure(delay_us, rate, decay_db, center_db, phantom_center_only)`, the order of the source's section 4.5. -/
  | reconfigureDelayFirst (hsm : HeadShadow) (interp cen : Bool) (delayUs rate decayDb centerDb : F32) (phantom : Bool)
  /-- `reconfigure(sampleRateHz, delayMicroseconds, decayDb, centerDb, phantomCenterOnly)`, the order of section 6. -/
  | reconfigureRateFirst (hsm : HeadShadow) (interp cen : Bool) (rate delayUs decayDb centerDb : F32) (phantom : Bool)
  /-- `process(leftIn[0..N-1], rightIn[0..N-1])`, both of the same length. -/
  | process (pairs : List (F32 × F32))
  /-- `bypass = b`. -/
  | setBypass (b : Bool)
  /-- `getLatencySeconds()`. -/
  | getLatencySeconds
deriving DecidableEq, Repr

end Sys2Proof
end

