-- ==== Sys2Proof/Machine/State.lean ====
section
/-! DEFINITION. The state of the block and of the stand-alone units, its reset values, and the reasons a step can stop
(rules R20 to R37, R50, R301). Plain data throughout. -/

namespace Sys2Proof.Machine

/-- A register of type `F32 or Unset` (rules R8, R20): the word its storage holds, and whether a command has written it since
reset. It is Unset while `written` is false; a read takes `value` all the same, as the hardware does (rule R301, code 3:
"computes with whatever the storage holds"), and marks the run (log 2). -/
structure Reg where
  value : F32
  written : Bool
deriving DecidableEq, Repr

/-- `+0.0`, `0x00000000`. -/
def posZero : F32 := 0x00000000

/-- A register that nothing has written since reset. The word it holds is the model's choice, `+0.0`: "the source gives no
default" (rule R301; log 2). -/
def Reg.unset : Reg := { value := posZero, written := false }

/-- A register after a write. -/
def Reg.val (v : F32) : Reg := { value := v, written := true }

/-- One BQ instance: BiquadCoefficients (rule R21) and BiquadState (rule R22; `x1`, `y1` the most recent). -/
structure Biquad where
  a1 : Reg
  a2 : Reg
  b0 : Reg
  b1 : Reg
  b2 : Reg
  x1 : F32
  x2 : F32
  y1 : F32
  y2 : F32
deriving DecidableEq, Repr

/-- The contents of a delay buffer (rule R60): (slot number, word) pairs, one slot one F32. The operations and the canonical
form are in `Machine/Ops.lean` (log 6). -/
abbrev Memory := List (Nat × F32)

/-- One DL instance (rules R25 to R27). `data` lists the slots that hold something else than `+0.0`, the value every slot
has after a resize (rule R28), as (slot number, word) pairs in rising order (log 6). `cap = 0`: not configured. -/
structure DelayLine where
  cap : Nat
  index : Nat
  data : Memory
  interp : Bool
  delaySamples : Reg
  frac : F32
deriving DecidableEq, Repr

/-- One CFB instance (rule R29): its sections and its delay line. Seven sections are held, the most `NSEC` can be; the
first `NSEC` of them exist (log 7). -/
structure FilterBank where
  sec : List Biquad
  dl : DelayLine
deriving DecidableEq, Repr

/-- One FOS instance: ShaperState (rule R30) and the shaper coefficients (rule R31). -/
structure Shaper where
  lpState : F32
  hpState : F32
  lpCoeff : Reg
  hpCoeff : Reg
  floorGain : Reg
  clampEn : Bool
deriving DecidableEq, Repr

/-- One correction path of the block (rule R2): a CFB and an FOS; its delay line is the CFB's. -/
structure Path where
  cfb : FilterBank
  fos : Shaper
deriving DecidableEq, Repr

/-- `XTC.state` (rule R34). Its two-bit code is `phaseCode` (`Machine/Flags.lean`); the code 3 never occurs. -/
inductive Phase where
  | unconfigured | ready | processing
deriving DecidableEq, Repr

/-- The top-level block (rule R20): CancellerConfig (rule R32), derived gains (rule R33), the state-machine register (rule
R34), the bypass flag (rule R36) and the two correction paths (rule R2). -/
structure Canceller where
  sampleRate : Reg
  delayUs : Reg
  decayDb : Reg
  centerDb : Reg
  phantom : Bool
  hsm : HeadShadow
  interp : Bool
  cen : Bool
  decayGain : Reg
  centerGain : Reg
  gainComp : Reg
  phase : Phase
  bypass : Bool
  pathA : Path
  pathB : Path
deriving DecidableEq, Repr

/-- The register a `FaultUnset` names (rule R301). -/
inductive RegName where
  | bqA1 | bqA2 | bqB0 | bqB1 | bqB2
  | fosLpCoeff | fosHpCoeff | fosFloorGain
  | xtcDecayGain | xtcCenterGain | xtcGainComp
deriving DecidableEq, Repr

/-- The ports of one instance (rule R90) and its `ill` flag (rule R36). The rest is the model's own, each list oldest first:
`cmd`, the words waiting; `rsp`, the words transferred; and the marks of the run with what they record (rule R301), which
nothing clears: `illHeaders`, the illegal headers consumed (log 1), and `unsetReads`, the registers read while Unset
(log 2). -/
structure Port where
  cmd : List Word
  rsp : List Word
  ill : Bool
  illHeaders : List Word
  unsetReads : List RegName
deriving DecidableEq, Repr

/-- What the outside world lets happen: the next command of a port is accepted, or an instance's `rst_n` is asserted
(rules R71, R330; log 4). -/
inductive Input where
  | command (p : PortId)
  | reset (p : PortId)
deriving DecidableEq, Repr

/-- Everything: the top-level block and one stand-alone instance of each unit, each with its own port (rules R2, R20,
R104; log 5), and the inputs still to come. -/
structure State where
  xtc : Canceller
  bq : Biquad
  dl : DelayLine
  cfb : FilterBank
  fos : Shaper
  xtcPort : Port
  bqPort : Port
  dlPort : Port
  cfbPort : Port
  fosPort : Port
  inputs : List Input
deriving DecidableEq, Repr

/-! The reset values of rule R50. -/

/-- A BQ after reset: coefficients Unset, history `+0.0`. -/
def resetBiquad : Biquad :=
  { a1 := .unset, a2 := .unset, b0 := .unset, b1 := .unset, b2 := .unset,
    x1 := posZero, x2 := posZero, y1 := posZero, y2 := posZero }

/-- A DL after reset: not configured, no slot. -/
def resetDelayLine : DelayLine :=
  { cap := 0, index := 0, data := [], interp := false, delaySamples := .unset, frac := posZero }

/-- How many sections a CFB holds: the largest `NSEC` (rule R6). -/
def maxSections : Nat := 7

/-- A CFB after reset. -/
def resetFilterBank : FilterBank :=
  { sec := List.replicate maxSections resetBiquad, dl := resetDelayLine }

/-- An FOS after reset: states `+0.0`, coefficients Unset, `clamp_en = 0`. -/
def resetShaper : Shaper :=
  { lpState := posZero, hpState := posZero, lpCoeff := .unset, hpCoeff := .unset, floorGain := .unset, clampEn := false }

/-- A correction path after reset. -/
def resetPath : Path := { cfb := resetFilterBank, fos := resetShaper }

/-- The top-level block after reset. -/
def resetCanceller : Canceller :=
  { sampleRate := .unset, delayUs := .unset, decayDb := .unset, centerDb := .unset,
    phantom := false, hsm := .none, interp := false, cen := false,
    decayGain := .unset, centerGain := .unset, gainComp := .unset,
    phase := .unconfigured, bypass := false, pathA := resetPath, pathB := resetPath }

/-- A port with nothing waiting, nothing sent, no mark and `ill = 0`. -/
def resetPort : Port := { cmd := [], rsp := [], ill := false, illHeaders := [], unsetReads := [] }

/-- The machine right after reset (rules R50, R330): every piece of state at the value of rule R50, no command waiting. -/
def State.reset : State :=
  { xtc := resetCanceller, bq := resetBiquad, dl := resetDelayLine, cfb := resetFilterBank, fos := resetShaper,
    xtcPort := resetPort, bqPort := resetPort, dlPort := resetPort, cfbPort := resetPort, fosPort := resetPort,
    inputs := [] }

/-! Why a step can stop. -/

/-- The operand a `FaultConfig` names (rule R301): a payload word, the delay in samples computed from two of them (rule
R131), an entry of `HS_TABLE` (rule R211) or a shaper parameter (rule R253). -/
inductive Operand where
  | freq | rate | q | gainDb | delaySamples | delayUs | decayDb | centerDb
  | tableEntry (k : Nat)
  | fLp | fHp | limitDb
deriving DecidableEq, Repr

/-- The faults of rule R301, each with what the rule says it records. A fault of the codes 2, 4, 5, 6 stops the run before
the faulting command has written anything; code 1 stops it after the one write its rule gives it, `ill <- 1` (log 1). All are
SAFE: the model stops where the spec says that its run is over (rules R301, R305; log 3). Code 3, `FaultUnset`, is no stop:
every register holds a value at reset, and the read marks the run (log 2). -/
inductive Fault where
  /-- Code 1: a port met an illegal header; the headers it has consumed, the last of them the one that ended the run. Raised
  by every step after it but a reset. Safe. -/
  | illegal (headers : List Word)
  /-- Code 2: put or get on a line with `cap = 0`, or `XTC_PROCESS` without bypass in `Unconfigured`; the command's name.
  Raised by `dlPut`, `dlGet`, `cfbPut`, `cfbGet`, `xtcProcess`. Safe. -/
  | unconfigured (op : Op)
  /-- Code 4: an operand that is NaN, infinite or outside its invariant. Raised by the configuration commands. Safe. -/
  | config (op : Op) (operand : Operand)
  /-- Code 5: a request for a delay line of length zero or less. Raised by `dlConfigure`, `dlConfigureFrac`. Safe. -/
  | zeroLength (requested : Int)
  /-- Code 6: a request for a capacity above `DL_MAX`. Raised by the configuration commands. Safe. -/
  | capacity (requested : Nat)
deriving DecidableEq, Repr

/-- Refusals: only that of an instruction with no meaning yet, raised by `exec`'s refused arms (there are none). Safe. -/
inductive Refusal where
  | notModelled (mnemonic : String)
deriving DecidableEq, Repr

end Sys2Proof.Machine
end

