-- ==== Sys2Proof/Machine/Ops.lean ====
section
/-! DEFINITION. The named operations over memory, ports and instances: slot reads and writes (rules R9, R60 to R62), the words
a port takes and returns (rules R90, R91), and reset of an instance (rule R330). There is no exception entry and no return
from one in this hardware (rules R305, R306): nothing is saved, no mode changes, control goes nowhere. -/

namespace Sys2Proof.Machine

/-! Delay buffers. -/

/-- What a slot that the list does not name holds: `+0.0`, the value a resize gives every slot (rules R28, R185). -/
def Memory.unlisted : F32 := posZero

/-- `MemRead(data, i, 1)` (rule R9). -/
def Memory.read : Memory → Nat → F32
  | [], _ => Memory.unlisted
  | (a, v) :: rest, i => if a = i then v else Memory.read rest i

/-- `MemWrite(data, i, 1, v)` (rule R9), keeping the canonical form: slots rising, none listed that holds `+0.0`. -/
def Memory.write : Memory → Nat → F32 → Memory
  | [], i, v => if v = Memory.unlisted then [] else [(i, v)]
  | (a, w) :: rest, i, v =>
    if i < a then (if v = Memory.unlisted then (a, w) :: rest else (i, v) :: (a, w) :: rest)
    else if i = a then (if v = Memory.unlisted then rest else (i, v) :: rest)
    else (a, w) :: Memory.write rest i v

/-- The buffer of a line right after a resize: every slot `+0.0` (rule R185, decision D13). -/
def Memory.zeroFilled : Memory := []

/-- Every listed slot number is at least `n` and they rise strictly, and no listed word is `+0.0`. -/
def Memory.wfFrom : Nat → Memory → Bool
  | _, [] => true
  | n, (a, v) :: rest => decide (n ≤ a) && v != Memory.unlisted && Memory.wfFrom (a + 1) rest

/-- The canonical form of a delay buffer. -/
def Memory.wf (m : Memory) : Bool := Memory.wfFrom 0 m

/-- Every listed slot exists in a line of capacity `cap` (rule R62). -/
def Memory.below (cap : Nat) (m : Memory) : Bool := m.all fun c => decide (c.1 < cap)

/-! Ports (rules R90, R104). -/

/-- The port of an instance. -/
def State.port (s : State) : PortId → Port
  | .xtc => s.xtcPort
  | .bq => s.bqPort
  | .dl => s.dlPort
  | .cfb => s.cfbPort
  | .fos => s.fosPort

/-- The state with one port replaced. -/
def State.setPort (s : State) (p : PortId) (q : Port) : State :=
  match p with
  | .xtc => { s with xtcPort := q }
  | .bq => { s with bqPort := q }
  | .dl => { s with dlPort := q }
  | .cfb => { s with cfbPort := q }
  | .fos => { s with fosPort := q }

/-- `emit` (rule R9): words appended to a port's response. -/
def State.emit (s : State) (p : PortId) (ws : List Word) : State :=
  s.setPort p { s.port p with rsp := (s.port p).rsp ++ ws }

/-- The registers of a list that are Unset (rule R8): those a read of them marks the run with (rule R301, code 3). -/
def unsetOf : List (RegName × Reg) → List RegName
  | [] => []
  | (name, r) :: rest => if r.written then unsetOf rest else name :: unsetOf rest

/-- The run marked with the registers a command has read while Unset, those already recorded on the port left out (rule R301,
code 3; log 2). -/
def State.noteUnset (s : State) (p : PortId) (names : List RegName) : State :=
  let old := (s.port p).unsetReads
  s.setPort p { s.port p with unsetReads := old ++ names.filter fun n => !old.contains n }

/-- The words a command took are gone from its port. -/
def State.consume (s : State) (p : PortId) (rest : List Word) : State :=
  s.setPort p { s.port p with cmd := rest }

/-- The inputs still to come. -/
def State.setInputs (s : State) (l : List Input) : State := { s with inputs := l }

/-- The state with one instance of a unit replaced. -/
def State.setXtc (s : State) (x : Canceller) : State := { s with xtc := x }
/-- As `State.setXtc`, for the stand-alone BQ. -/
def State.setBq (s : State) (b : Biquad) : State := { s with bq := b }
/-- As `State.setXtc`, for the stand-alone DL. -/
def State.setDl (s : State) (d : DelayLine) : State := { s with dl := d }
/-- As `State.setXtc`, for the stand-alone CFB. -/
def State.setCfb (s : State) (c : FilterBank) : State := { s with cfb := c }
/-- As `State.setXtc`, for the stand-alone FOS. -/
def State.setFos (s : State) (f : Shaper) : State := { s with fos := f }

/-- An instance put back into the values of rule R50. -/
def State.resetUnit (s : State) : PortId → State
  | .xtc => s.setXtc resetCanceller
  | .bq => s.setBq resetBiquad
  | .dl => s.setDl resetDelayLine
  | .cfb => s.setCfb resetFilterBank
  | .fos => s.setFos resetShaper

/-! Outcomes. -/

/-- A command's result as a step: its next state, or its fault with nothing written (rule R301: "a fault is precise"). -/
def finish {α : Type} (r : Except Fault α) (k : α → State) : Host.Outcome State Fault Refusal :=
  match r with
  | .ok a => .next (k a)
  | .error f => .fault f

end Sys2Proof.Machine
end

