-- ==== Sys2Proof/Config.lean ====
section
/-! DEFINITION. What the spec leaves to the implementation (rule R6 and `92_eei_decisions.md` section 7): the OPEN
parameters as one opaque constant, and the free value of rule R124. Nothing here has a value a proof could use; the
constraints the spec puts on a parameter are kept by the accessors of `Machine/Parameters.lean`. -/

namespace Sys2Proof

/-- `Kind` of rule R8: low-pass, high-pass, peaking, shelf, all-pass. -/
inductive Kind where
  | lp | hp | pk | sh | ap
deriving DecidableEq, Repr

/-- `SHELF_KIND` of rule R6 (decision D11). -/
inductive ShelfKind where
  | low | high
deriving DecidableEq, Repr, Inhabited

/-- `FB_TAP` of rules R6, R258 (decision D18). -/
inductive FbTap where
  | pre | post
deriving DecidableEq, Repr

/-- The arithmetic operations whose invalid cases give some quiet NaN (rules R121, R124). -/
inductive FOp where
  | add | sub | mul | div | sqrt
deriving DecidableEq, Repr

/-- Five biquad coefficients, `a0` normalised to 1 (rule R21): what `bq_coef` returns. -/
structure Coeffs where
  a1 : F32
  a2 : F32
  b0 : F32
  b1 : F32
  b2 : F32
deriving DecidableEq, Repr, Inhabited

/-- The OPEN parameters of rule R6, as raw data: the spec's constraints on them (`1 <= DL_MAX <= 2^24 - 1`,
`5 <= NSEC <= 7`, the form of `HS_TABLE`, positive frequencies, the named properties of rule R127) are put on by the accessors of
`Machine/Parameters.lean`, each of which reaches every value the spec allows (log 9, 10, 11). -/
structure Params where
  /-- `f_sin`, `f_cos`, `f_exp`, `f_pow10` before the named properties of rule R127 are imposed. -/
  sinRaw : F32 → F32
  cosRaw : F32 → F32
  expRaw : F32 → F32
  pow10Raw : F32 → F32
  /-- Whether `bq_coef` is the recommended binary32 instantiation of rule R152. -/
  cookbook : Bool
  /-- `bq_coef` otherwise: any function of `(kind, SHELF_KIND, freq, rate, Q, gainDb)`. -/
  bqCoefRaw : Kind → ShelfKind → F32 → F32 → F32 → F32 → Coeffs
  /-- `SHELF_KIND`. -/
  shelfKind : ShelfKind
  /-- `DL_MAX`, before its range is imposed. -/
  dlMaxRaw : Nat
  /-- `NSEC`, before its range is imposed. -/
  nsecRaw : Nat
  /-- `HS_TABLE` (rule R211): where its HP and LP entries stand, and each entry's frequency, Q and gain. -/
  hpPosRaw : Nat
  lpPosRaw : Nat
  tableFreqRaw : Nat → F32
  tableQRaw : Nat → F32
  tableGainRaw : Nat → F32
  /-- `F_LP`, `F_HP`, `LIMIT_DB`, before their ranges are imposed, and `FOS_CLAMP` (decision D21). -/
  fLpRaw : F32
  fHpRaw : F32
  limitDbRaw : F32
  fosClamp : Bool
  /-- `ACC_ULP` of rule R127 and `BQ_TOL` of rule R152: read by the named properties `P_acc`, `P_bq_acc` only. The spec gives
  them no type; rational numbers are the model's choice (DESIGN CHOICE, log 22). -/
  accUlp : Rat
  bqTol : Rat
deriving Inhabited

/-- The parameters of this block: one opaque constant, so that a claim holds for every choice of them (rule R6). -/
opaque Config.params : Params

/-- The sign and the 22 payload bits of the quiet NaN an invalid operation returns (rule R124: "Which NaN (sign and
payload) is not specified: a model draws any quiet NaN"). A FREE VALUE, a function of the operation and its operands
(log 8). -/
opaque Config.freeNaN : FOp → F32 → F32 → BitVec 23

/-- `FB_TAP`, which the spec decides: `PRE` (rule R258, decision D18; log 12). -/
def Config.fbTap : FbTap := .pre

end Sys2Proof
end

