-- ==== Sys2Proof/Machine/Numerics.lean ====
section
/-! DEFINITION. Binary32 arithmetic (rules R120 to R126), comparisons and conversions (rules R128, R129) and the constants
of rule R133. A finite datum is an integer multiple of `2^-149`; that integer is its `scaled` value, so every operation
converts to integers, computes exactly and rounds once. -/

namespace Sys2Proof.Machine

/-! Fields and classes (rules R7, R120). -/

/-- Bit 31, the sign. -/
def signBit (a : F32) : Bool := a.getLsbD 31

/-- Bits 30:23, the biased exponent. -/
def expField (a : F32) : BitVec 8 := a.extractLsb' 23 8

/-- Bits 22:0, the fraction. -/
def fracField (a : F32) : BitVec 23 := a.extractLsb' 0 23

/-- A NaN: exponent all ones, fraction not zero. -/
def isNaN (a : F32) : Bool := expField a == 255 && fracField a != 0

/-- An infinity: exponent all ones, fraction zero. -/
def isInf (a : F32) : Bool := expField a == 255 && fracField a == 0

/-- A finite datum: normal, subnormal or zero. -/
def isFinite (a : F32) : Bool := expField a != 255

/-- A zero of either sign. -/
def isZero (a : F32) : Bool := expField a == 0 && fracField a == 0

/-- A quiet NaN: a NaN whose most significant fraction bit is 1. -/
def isQuietNaN (a : F32) : Bool := isNaN a && a.getLsbD 22

/-- The magnitude of a finite datum in units of `2^-149`; subnormals at their value (rule R123). -/
def magnitude (a : F32) : Nat :=
  if expField a = 0 then (fracField a).toNat
  else (2 ^ 23 + (fracField a).toNat) * 2 ^ ((expField a).toNat - 1)

/-- The value of a finite datum in units of `2^-149`. -/
def scaled (a : F32) : Int := if signBit a then -(magnitude a : Int) else (magnitude a : Int)

/-- `1.0` in units of `2^-149`. -/
def unitScale : Nat := 2 ^ 149

/-! Rounding (rule R121). -/

/-- The bit pattern of the infinity's magnitude. -/
def infBits : Nat := 0x7F800000

/-- The magnitude bits of the binary32 datum nearest to `num / den` units of `2^-149`, ties to even, the exponent range
unbounded above. With `L` the bit length of the integer part, the datum has `max (L - 24) 0` low bits dropped; its pattern
is that count in the exponent field plus the kept bits (a carry out of the kept bits lands in the exponent field). -/
def roundBits (num den : Nat) : Nat :=
  let shift := Nat.log2 (num / den) - 23
  let ulp := den * 2 ^ shift
  let kept := num / ulp
  let rest := num % ulp
  let up := ulp < 2 * rest ∨ (ulp = 2 * rest ∧ kept % 2 = 1)
  shift * 2 ^ 23 + (if up then kept + 1 else kept)

/-- A sign and magnitude bits as a datum. -/
def pack (neg : Bool) (bits : Nat) : F32 := BitVec.ofBool neg ++ BitVec.ofNat 31 bits

/-- The datum of sign `neg` nearest to `num / den` units of `2^-149`: "A result whose magnitude after rounding is at least
2^128 is the infinity of its sign" (rule R121). -/
def roundPack (neg : Bool) (num den : Nat) : F32 := pack neg (min (roundBits num den) infBits)

/-- The infinity of a sign. -/
def infinity (neg : Bool) : F32 := pack neg infBits

/-- The zero of a sign. -/
def zeroOf (neg : Bool) : F32 := pack neg 0

/-- The quiet NaN with a given sign (bit 22 of `free`) and payload (bits 21:0 of `free`): every quiet NaN is one of these
(rule R124). -/
def quietNaN (free : BitVec 23) : F32 := free.extractLsb' 22 1 ++ 0x1FF#9 ++ free.extractLsb' 0 22

/-- The quiet NaN an invalid operation gives: a FREE VALUE (rule R124; log 8). -/
def nanOf (op : FOp) (a b : F32) : F32 := quietNaN (Config.freeNaN op a b)

/-! Arithmetic (rules R121 to R126). -/

/-- Sign flip, exact on every datum (rule R126). -/
def fneg (a : F32) : F32 := a ^^^ 0x80000000

/-- The sum of two data that are not NaN; `nan` is the answer of `inf - inf` (rule R124). An exact sum of zero is `+0`
unless both addends are negative zeros (rule R126). -/
def sumOf (nan a b : F32) : F32 :=
  if isInf a then (if isInf b && signBit a != signBit b then nan else a)
  else if isInf b then b
  else
    let s := scaled a + scaled b
    if s = 0 then zeroOf (signBit a && signBit b) else roundPack (decide (s < 0)) s.natAbs 1

/-- `fadd(a,b)` (rules R9, R121). -/
def fadd (a b : F32) : F32 := if isNaN a || isNaN b then nanOf .add a b else sumOf (nanOf .add a b) a b

/-- `fsub(a,b)` (rules R9, R121). -/
def fsub (a b : F32) : F32 := if isNaN a || isNaN b then nanOf .sub a b else sumOf (nanOf .sub a b) a (fneg b)

/-- `fmul(a,b)` (rules R9, R121, R124). -/
def fmul (a b : F32) : F32 :=
  let neg := signBit a != signBit b
  if isNaN a || isNaN b then nanOf .mul a b
  else if isInf a || isInf b then (if isZero a || isZero b then nanOf .mul a b else infinity neg)
  else roundPack neg (magnitude a * magnitude b) unitScale

/-- `fdiv(a,b)` (rules R9, R121, R124). -/
def fdiv (a b : F32) : F32 :=
  let neg := signBit a != signBit b
  if isNaN a || isNaN b then nanOf .div a b
  else if isInf a then (if isInf b then nanOf .div a b else infinity neg)
  else if isInf b then zeroOf neg
  else if isZero b then (if isZero a then nanOf .div a b else infinity neg)
  else roundPack neg (magnitude a * unitScale) (magnitude b)

/-- The integer square root, one bit at a time from bit `k - 1` down: the largest `r` with `r * r <= n` whose bits above
`k` are those of `acc`. -/
def isqrt (n : Nat) : Nat → Nat → Nat
  | 0, acc => acc
  | k + 1, acc => if (acc + 2 ^ k) * (acc + 2 ^ k) ≤ n then isqrt n k (acc + 2 ^ k) else isqrt n k acc

/-- `f_sqrt(a)`, correctly rounded (rules R121, R127). A square root that is no integer number of units lies strictly
between two neighbours and is never half-way between two data, so half a unit stands for it. -/
def fsqrt (a : F32) : F32 :=
  if isNaN a then nanOf .sqrt a a
  else if isZero a then a
  else if signBit a then nanOf .sqrt a a
  else if isInf a then a
  else
    let n := magnitude a * unitScale
    let r := isqrt n 214 0
    if r * r = n then roundPack false r 1 else roundPack false (2 * r + 1) 2

/-! Conversions (rules R9, R128, R129). -/

/-- `i2f(n)`: exact for `n < 2^24` (rule R126); a larger `n` is rounded once (log 15). -/
def i2f (n : Nat) : F32 := roundPack false (n * unitScale) 1

/-- `round_haz(v)` of a finite `v`: nearest, ties away from zero (rule R128). -/
def roundHaz (v : F32) : Int :=
  let m : Int := ((2 * magnitude v + unitScale) / (2 * unitScale) : Nat)
  if signBit v then -m else m

/-- `ceil_f(v)` of a finite `v`: the least integer not less than `v` (rule R129). -/
def ceilF (v : F32) : Int := -((-scaled v) / (unitScale : Int))

/-! Comparisons on exact values. -/

/-- `v` is finite and greater than 0. -/
def isPositive (v : F32) : Bool := isFinite v && decide (0 < scaled v)

/-- `freq < rate/2` in exact arithmetic, for finite operands (rule R151; log 14). -/
def belowHalf (freq rate : F32) : Bool := decide (2 * scaled freq < scaled rate)

/-! Constants (rules R130, R133). -/

/-- `0.5`. -/
def half : F32 := 0x3F000000
/-- `1.0`. -/
def one : F32 := 0x3F800000
/-- `2.0`. -/
def two : F32 := 0x40000000
/-- `20.0`. -/
def twenty : F32 := 0x41A00000
/-- `40.0`. -/
def forty : F32 := 0x42200000
/-- `PI32`. -/
def pi32 : F32 := 0x40490FDB
/-- `TWO_PI32`: `fmul(2.0, PI32)`. -/
def twoPi32 : F32 := 0x40C90FDB
/-- `USEC32`, the binary32 value nearest to `10^-6`. -/
def usec32 : F32 := 0x358637BD

end Sys2Proof.Machine
end

