-- ==== Sys2Proof/Machine/Parameters.lean ====
section
/-! DEFINITION. The parameters of rule R6 with the spec's constraints on them, each as an accessor of `Params` that reaches
exactly the values the spec allows: the transcendental functions with their named properties (rule R127), `bq_coef` (rules
R152 to R157), `DL_MAX`, `NSEC` and `HS_TABLE` (rules R6, R211). -/

namespace Sys2Proof.Machine

/-! The transcendental functions (rule R127; log 9). -/

/-- A NaN: `r` if it is one, else the quiet NaN with `r`'s other bits (`P_nan`). -/
def forceNaN (r : F32) : F32 := if isNaN r then r else r ||| 0x7FC00000

/-- A value in `[-1, 1]`: `r` if it is one, else `+0` (`P_range` for sine and cosine). -/
def forceUnit (r : F32) : F32 := if isFinite r && decide (magnitude r ≤ unitScale) then r else posZero

/-- A value that is not below zero: `r` if it is one, else `+0` (`P_range` for the exponentials). -/
def forceNonneg (r : F32) : F32 := if isNaN r || (signBit r && !isZero r) then posZero else r

/-- `f_sin` (rule R127). -/
def fSin (P : Params) (a : F32) : F32 :=
  if isNaN a then forceNaN (P.sinRaw a) else if isFinite a then forceUnit (P.sinRaw a) else P.sinRaw a

/-- `f_cos` (rule R127). -/
def fCos (P : Params) (a : F32) : F32 :=
  if isNaN a then forceNaN (P.cosRaw a) else if isFinite a then forceUnit (P.cosRaw a) else P.cosRaw a

/-- `f_exp` (rule R127), with `P_exp_zero`. -/
def fExp (P : Params) (a : F32) : F32 :=
  if isNaN a then forceNaN (P.expRaw a) else if isZero a then one
  else if isFinite a then forceNonneg (P.expRaw a) else P.expRaw a

/-- `f_pow10` (rule R127), with `P_pow10_zero`. -/
def fPow10 (P : Params) (a : F32) : F32 :=
  if isNaN a then forceNaN (P.pow10Raw a) else if isZero a then one
  else if isFinite a then forceNonneg (P.pow10Raw a) else P.pow10Raw a

/-- `db_to_gain(db)` (rule R132): the source's `10^(db/20)`. -/
def dbToGain (P : Params) (db : F32) : F32 := fPow10 P (fdiv db twenty)

/-! The coefficient function (rules R152 to R157; log 10). -/

/-- Normalisation by `A0` (rule R152): "then five `fdiv` by `A0`". -/
def normalised (b0 b1 b2 a0 a1 a2 : F32) : Coeffs :=
  { a1 := fdiv a1 a0, a2 := fdiv a2 a0, b0 := fdiv b0 a0, b1 := fdiv b1 a0, b2 := fdiv b2 a0 }

/-- The recommended binary32 instantiation of `bq_coef` (rule R152): the cookbook rows of rules R153 to R157, products
before sums, left to right. -/
def cookbookCoef (P : Params) (kind : Kind) (freq rate q gainDb : F32) : Coeffs :=
  let w0 := fdiv (fmul twoPi32 freq) rate
  let cs := fCos P w0
  let sn := fSin P w0
  let alpha := fdiv sn (fmul two q)
  let m2cs := fmul (fneg two) cs
  let A := fPow10 P (fdiv gainDb forty)
  let Ap := fadd A one
  let Am := fsub A one
  let r := fmul (fmul two (fsqrt A)) alpha
  match kind with
  | .lp =>
    normalised (fmul (fsub one cs) half) (fsub one cs) (fmul (fsub one cs) half) (fadd one alpha) m2cs (fsub one alpha)
  | .hp =>
    normalised (fmul (fadd one cs) half) (fneg (fadd one cs)) (fmul (fadd one cs) half) (fadd one alpha) m2cs (fsub one alpha)
  | .pk =>
    normalised (fadd one (fmul alpha A)) m2cs (fsub one (fmul alpha A)) (fadd one (fdiv alpha A)) m2cs (fsub one (fdiv alpha A))
  | .ap =>
    normalised (fsub one alpha) m2cs (fadd one alpha) (fadd one alpha) m2cs (fsub one alpha)
  | .sh =>
    match P.shelfKind with
    | .low =>
      normalised (fmul A (fadd (fsub Ap (fmul Am cs)) r)) (fmul (fmul two A) (fsub Am (fmul Ap cs)))
        (fmul A (fsub (fsub Ap (fmul Am cs)) r)) (fadd (fadd Ap (fmul Am cs)) r)
        (fmul (fneg two) (fadd Am (fmul Ap cs))) (fsub (fadd Ap (fmul Am cs)) r)
    | .high =>
      normalised (fmul A (fadd (fadd Ap (fmul Am cs)) r)) (fmul (fmul (fneg two) A) (fadd Am (fmul Ap cs)))
        (fmul A (fsub (fadd Ap (fmul Am cs)) r)) (fadd (fsub Ap (fmul Am cs)) r)
        (fmul two (fsub Am (fmul Ap cs))) (fsub (fsub Ap (fmul Am cs)) r)

/-- The gain `bq_coef` sees: only peaking and shelf depend on it (`P_bq_fun`, rule R152). -/
def kindGain (kind : Kind) (gainDb : F32) : F32 :=
  match kind with
  | .pk | .sh => gainDb
  | .lp | .hp | .ap => posZero

/-- `bq_coef(kind, freq, rate, Q, gainDb)` (rule R152): OPEN, or the recommended instantiation. -/
def bqCoef (P : Params) (kind : Kind) (freq rate q gainDb : F32) : Coeffs :=
  if P.cookbook then cookbookCoef P kind freq rate q (kindGain kind gainDb)
  else P.bqCoefRaw kind P.shelfKind freq rate q (kindGain kind gainDb)

/-! Sizes and the cascade table (rules R6, R211; log 11). -/

/-- `DL_MAX`: `1 <= DL_MAX <= 2^24 - 1` (rule R6). -/
def dlMax (P : Params) : Nat := 1 + P.dlMaxRaw % (2 ^ 24 - 1)

/-- `NSEC`: 5 to 7 (rule R6). -/
def nsec (P : Params) : Nat := 5 + P.nsecRaw % 3

/-- Where the one HP entry stands. -/
def hpPos (P : Params) : Nat := P.hpPosRaw % nsec P

/-- Where the one LP entry stands: any other place. -/
def lpPos (P : Params) : Nat := (hpPos P + 1 + P.lpPosRaw % (nsec P - 1)) % nsec P

/-- An entry `(kind_k, f_k, q_k, g_k)` of `HS_TABLE` (rule R211). -/
structure Entry where
  kind : Kind
  freq : F32
  q : F32
  gainDb : F32
deriving DecidableEq, Repr

/-- The largest finite datum. -/
def maxFinite : F32 := 0x7F7FFFFF

/-- A finite datum: `r` if it is one, else `+0`. -/
def forceFinite (r : F32) : F32 := if isFinite r then r else posZero

/-- A finite datum above 0: `r` if it is one, else `1.0`. -/
def forcePositive (r : F32) : F32 := if isPositive r then r else one

/-- A frequency below half of some sample rate: `r` if it is one, else `1.0`. -/
def forceFreq (r : F32) : F32 := if isPositive r && belowHalf r maxFinite then r else one

/-- Entry `k` of `HS_TABLE`: exactly one HP, exactly one LP, the rest PK (rule R211); an entry is valid for some sample rate
(log 11). -/
def tableEntry (P : Params) (k : Nat) : Entry :=
  { kind := if k = hpPos P then .hp else if k = lpPos P then .lp else .pk
    freq := forceFreq (P.tableFreqRaw k), q := forcePositive (P.tableQRaw k), gainDb := forceFinite (P.tableGainRaw k) }

/-- `HS_TABLE`: `NSEC` entries, entry 0 applied first (rule R211, decision D20). -/
def hsTable (P : Params) : List Entry := (List.range (nsec P)).map (tableEntry P)

/-! The shaper's parameters (rule R6, decision D21). -/

/-- `F_LP`: finite and positive. -/
def fLp (P : Params) : F32 := forcePositive P.fLpRaw

/-- `F_HP`: finite and positive. -/
def fHp (P : Params) : F32 := forcePositive P.fHpRaw

/-- `LIMIT_DB`: finite. -/
def limitDb (P : Params) : F32 := forceFinite P.limitDbRaw

end Sys2Proof.Machine
end

