-- ==== Sys2Proof/Machine/Operands.lean ====
section
/-! DEFINITION. What a command checks of its operands: the fault conditions of rule R301 in the
order of rule R304, and the capacity request of rule R131. -/

namespace Sys2Proof.Machine

/-- A check: the fault unless the condition holds. -/
def require (c : Bool) (f : Fault) : Except Fault Unit := if c then .ok ⟨⟩ else .error f

/-- Every operand is finite; the first that is NaN or infinite is the one recorded (rules R301, R304). -/
def requireFinite (op : Op) : List (Operand × F32) → Except Fault Unit
  | [] => .ok ⟨⟩
  | (name, v) :: rest => if isFinite v then requireFinite op rest else .error (.config op name)

/-- The Biquad parameter invariant (rule R151): "`sample_rate > 0`, `0 < center_frequency < sample_rate/2`, `Q > 0`", all
operands finite. `gains` holds `gainDb` where the command has one: it "must be finite". Of several operands outside the
invariant the one recorded is the rate, then the frequency, then `Q` (DESIGN CHOICE, log 21). -/
def checkTuning (op : Op) (freq rate q : F32) (gains : List (Operand × F32)) : Except Fault Unit := do
  requireFinite op ([(.freq, freq), (.rate, rate), (.q, q)] ++ gains)
  require (isPositive rate) (.config op .rate)
  require (isPositive freq && belowHalf freq rate) (.config op .freq)
  require (isPositive q) (.config op .q)

/-- Validity of a table entry for a sample rate (rule R211): the invariant of rule R151, "and `g_k` finite" (log 13). -/
def entryValid (rate : F32) (e : Entry) : Bool :=
  isPositive e.freq && belowHalf e.freq rate && isPositive e.q && isFinite e.gainDb

/-- Every entry of the table, counted from `k`, is valid for the rate (rules R211, R212). -/
def checkEntries (op : Op) (rate : F32) : Nat → List Entry → Except Fault Unit
  | _, [] => .ok ⟨⟩
  | k, e :: rest => if entryValid rate e then checkEntries op rate (k + 1) rest else .error (.config op (.tableEntry k))

/-- The shaper parameters of `VALID_CFG` (rule R253): "`F_LP`, `F_HP` finite and positive, `LIMIT_DB` finite". -/
def checkShaperParams (P : Params) (op : Op) : Except Fault Unit := do
  require (isPositive (fLp P)) (.config op .fLp)
  require (isPositive (fHp P)) (.config op .fHp)
  require (isFinite (limitDb P)) (.config op .limitDb)

/-- A capacity the fixed storage can hold (rules R63, R131): else `FaultCapacity`. -/
def checkCapacity (P : Params) (len : Nat) : Except Fault Unit := require (decide (len ≤ dlMax P)) (.capacity len)

/-- `delay_samples(delay_us, rate)` (rule R130). -/
def delaySamplesOf (delayUs rate : F32) : F32 := fmul (fmul delayUs usec32) rate

/-- What a correction path asks of its delay line (rule R131): capacity, delay in samples, fraction. -/
structure DelayRequest where
  len : Nat
  d : F32
  frac : F32
deriving DecidableEq, Repr

/-- The capacity and fraction for a delay of `d` samples, `d` finite and not below 0 (rule R131): the nearest whole number,
or with `interp` the ceiling, clamped to at least 1. -/
def delayRequest (d : F32) (interp : Bool) : DelayRequest :=
  if interp then
    let n := (ceilF d).toNat
    if 1 ≤ n then { len := n, d := d, frac := fsub (i2f n) d } else { len := 1, d := d, frac := posZero }
  else { len := max 1 (roundHaz d).toNat, d := d, frac := posZero }

/-- The first half of `delay_len` (rule R131): `FaultConfig` if `d` is NaN or infinite or below 0, else the request. Its
second half, `checkCapacity`, comes after every other `FaultConfig` check of the command (rule R304; log 13). -/
def delayLen (op : Op) (delayUs rate : F32) (interp : Bool) : Except Fault DelayRequest := do
  let d := delaySamplesOf delayUs rate
  require (isFinite d && decide (0 ≤ scaled d)) (.config op .delaySamples)
  pure (delayRequest d interp)

end Sys2Proof.Machine
end

