-- ==== Sys2Proof/Machine/Biquad.lean ====
section
/-! DEFINITION. The BQ unit (file `41_biquad.md`): five tuning operations and one processing operation. -/

namespace Sys2Proof.Machine

/-- The five coefficients written together (rules R21, R153 to R157); the history is kept (rule R23). -/
def setCoeffs (b : Biquad) (c : Coeffs) : Biquad :=
  { b with a1 := .val c.a1, a2 := .val c.a2, b0 := .val c.b0, b1 := .val c.b1, b2 := .val c.b2 }

/-- A tuning operation without its checks: `BQ_SET_*` writes what `bq_coef` returns (rules R153 to R157). -/
def tune (P : Params) (kind : Kind) (freq rate q gainDb : F32) (b : Biquad) : Biquad :=
  setCoeffs b (bqCoef P kind freq rate q gainDb)

/-- `BQ_SET_LOWPASS` (rule R153). -/
def setLowpass (P : Params) (freq rate q : F32) (b : Biquad) : Except Fault Biquad := do
  checkTuning .bqSetLowpass freq rate q []
  pure (tune P .lp freq rate q posZero b)

/-- `BQ_SET_HIGHPASS` (rule R154). -/
def setHighpass (P : Params) (freq rate q : F32) (b : Biquad) : Except Fault Biquad := do
  checkTuning .bqSetHighpass freq rate q []
  pure (tune P .hp freq rate q posZero b)

/-- `BQ_SET_PEAKING` (rule R155). -/
def setPeaking (P : Params) (freq rate q gainDb : F32) (b : Biquad) : Except Fault Biquad := do
  checkTuning .bqSetPeaking freq rate q [(.gainDb, gainDb)]
  pure (tune P .pk freq rate q gainDb b)

/-- `BQ_SET_SHELF` (rule R156). -/
def setShelf (P : Params) (freq rate q gainDb : F32) (b : Biquad) : Except Fault Biquad := do
  checkTuning .bqSetShelf freq rate q [(.gainDb, gainDb)]
  pure (tune P .sh freq rate q gainDb b)

/-- `BQ_SET_ALLPASS` (rule R157). -/
def setAllpass (P : Params) (freq rate q : F32) (b : Biquad) : Except Fault Biquad := do
  checkTuning .bqSetAllpass freq rate q []
  pure (tune P .ap freq rate q posZero b)

/-- The coefficients as rule R158 reads them: what the five registers hold. -/
def coeffsOf (b : Biquad) : Coeffs :=
  { a1 := b.a1.value, a2 := b.a2.value, b0 := b.b0.value, b1 := b.b1.value, b2 := b.b2.value }

/-- The coefficients of a section that are Unset, in the order rule R158 reads them (log 2). -/
def unsetCoeffs (b : Biquad) : List RegName :=
  unsetOf [(.bqB0, b.b0), (.bqB1, b.b1), (.bqB2, b.b2), (.bqA1, b.a1), (.bqA2, b.a2)]

/-- The output of a section (rule R158): `y = b0·x + b1·x1 + b2·x2 − a1·y1 − a2·y2`, each product and sum rounded once, from
left to right. -/
def biquadOutput (c : Coeffs) (x x1 x2 y1 y2 : F32) : F32 :=
  let t0 := fmul c.b0 x
  let t1 := fadd t0 (fmul c.b1 x1)
  let t2 := fadd t1 (fmul c.b2 x2)
  let t3 := fsub t2 (fmul c.a1 y1)
  fsub t3 (fmul c.a2 y2)

/-- The history shift of rule R158: `x1`, `y1` become the most recent input and output. -/
def shiftHistory (b : Biquad) (x y : F32) : Biquad := { b with x2 := b.x1, x1 := x, y2 := b.y1, y1 := y }

/-- `BQ_PROCESS` on a section (rule R158): the section after it and the output. -/
def processBiquad (x : F32) (b : Biquad) : Biquad × F32 :=
  let y := biquadOutput (coeffsOf b) x b.x1 b.x2 b.y1 b.y2
  (shiftHistory b x y, y)

/-! The meanings, on the stand-alone BQ. -/

/-- `BQ_SET_LOWPASS` (rule R153). -/
def execBqSetLowpass (freq rate q : F32) (s : State) : Host.Outcome State Fault Refusal :=
  finish (setLowpass Config.params freq rate q s.bq) s.setBq

/-- `BQ_SET_HIGHPASS` (rule R154). -/
def execBqSetHighpass (freq rate q : F32) (s : State) : Host.Outcome State Fault Refusal :=
  finish (setHighpass Config.params freq rate q s.bq) s.setBq

/-- `BQ_SET_PEAKING` (rule R155). -/
def execBqSetPeaking (freq rate q gainDb : F32) (s : State) : Host.Outcome State Fault Refusal :=
  finish (setPeaking Config.params freq rate q gainDb s.bq) s.setBq

/-- `BQ_SET_SHELF` (rule R156). -/
def execBqSetShelf (freq rate q gainDb : F32) (s : State) : Host.Outcome State Fault Refusal :=
  finish (setShelf Config.params freq rate q gainDb s.bq) s.setBq

/-- `BQ_SET_ALLPASS` (rule R157). -/
def execBqSetAllpass (freq rate q : F32) (s : State) : Host.Outcome State Fault Refusal :=
  finish (setAllpass Config.params freq rate q s.bq) s.setBq

/-- `BQ_PROCESS` (rule R158); an Unset coefficient marks the run (rule R301, code 3; log 2). -/
def execBqProcess (x : F32) (s : State) : Host.Outcome State Fault Refusal :=
  let r := processBiquad x s.bq
  .next (((s.setBq r.1).noteUnset .bq (unsetCoeffs s.bq)).emit .bq [r.2])

end Sys2Proof.Machine
end

