-- ==== Sys2Proof/Machine/DelayLine.lean ====
section
/-! DEFINITION. The DL unit (file `42_delay_line.md`): two configure operations, put and get. -/

namespace Sys2Proof.Machine

/-- `dl_set(len, interp, d, frac)` (rule R185): on a change of capacity the contents are lost and the cursor is 0; with the
capacity unchanged both are kept. -/
def dlSet (r : DelayRequest) (interp : Bool) (dl : DelayLine) : DelayLine where
  cap := r.len
  index := if r.len = dl.cap then dl.index else 0
  data := if r.len = dl.cap then dl.data else Memory.zeroFilled
  interp := interp
  delaySamples := if interp then .val r.d else dl.delaySamples
  frac := r.frac

/-- `DL_CONFIGURE` (rule R181). -/
def configureWhole (P : Params) (len : BitVec 24) (dl : DelayLine) : Except Fault DelayLine := do
  require (decide (len.toNat ≠ 0)) (.zeroLength 0)
  checkCapacity P len.toNat
  pure (dlSet { len := len.toNat, d := posZero, frac := posZero } false dl)

/-- `DL_CONFIGURE_FRAC` (rule R182). -/
def configureFrac (P : Params) (d : F32) (dl : DelayLine) : Except Fault DelayLine := do
  requireFinite .dlConfigureFrac [(.delaySamples, d)]
  let n := ceilF d
  require (decide (0 < n)) (.zeroLength n)
  checkCapacity P n.toNat
  pure (dlSet { len := n.toNat, d := d, frac := fsub (i2f n.toNat) d } true dl)

/-- `(index + 1) mod cap` (rules R134, R183, R184). -/
def nextIndex (dl : DelayLine) : Nat := (dl.index + 1) % dl.cap

/-- `DL_PUT` without its check (rule R183): the slot under the cursor, then the cursor. -/
def pushSample (x : F32) (dl : DelayLine) : DelayLine :=
  { dl with data := dl.data.write dl.index x, index := nextIndex dl }

/-- The value under the cursor, interpolated with the next slot where `interp` says so (rule R184). -/
def readSample (dl : DelayLine) : F32 :=
  let cur := dl.data.read dl.index
  if dl.interp then fadd (fmul cur (fsub one dl.frac)) (fmul (dl.data.read (nextIndex dl)) dl.frac) else cur

/-- `FaultUnconfigured` on a line with no slot (rules R183, R184, R189); `op` is the command performed (log 3). -/
def checkConfigured (op : Op) (dl : DelayLine) : Except Fault Unit := require (decide (dl.cap ≠ 0)) (.unconfigured op)

/-- `DL_PUT` (rule R183), performed by the command `op`. -/
def putSample (op : Op) (x : F32) (dl : DelayLine) : Except Fault DelayLine := do
  checkConfigured op dl
  pure (pushSample x dl)

/-- `DL_GET` (rule R184), performed by the command `op`: a pure read. -/
def getSample (op : Op) (dl : DelayLine) : Except Fault F32 := do
  checkConfigured op dl
  pure (readSample dl)

/-! The meanings, on the stand-alone DL. -/

/-- `DL_CONFIGURE` (rule R181). -/
def execDlConfigure (len : BitVec 24) (s : State) : Host.Outcome State Fault Refusal :=
  finish (configureWhole Config.params len s.dl) s.setDl

/-- `DL_CONFIGURE_FRAC` (rule R182). -/
def execDlConfigureFrac (d : F32) (s : State) : Host.Outcome State Fault Refusal :=
  finish (configureFrac Config.params d s.dl) s.setDl

/-- `DL_PUT` (rule R183). -/
def execDlPut (x : F32) (s : State) : Host.Outcome State Fault Refusal :=
  finish (putSample .dlPut x s.dl) s.setDl

/-- `DL_GET` (rule R184). -/
def execDlGet (s : State) : Host.Outcome State Fault Refusal :=
  finish (getSample .dlGet s.dl) fun y => s.emit .dl [y]

end Sys2Proof.Machine
end

