-- ==== Sys2Proof/Machine/FilterBank.lean ====
section
/-! DEFINITION. The CFB unit (file `43_correction_filter_bank.md`): the biquad cascade and its delay line. -/

namespace Sys2Proof.Machine

/-- Section `k` tuned from entry `k` for a rate, entry by entry (rule R212); sections beyond the table do not exist. -/
def tuneSections (P : Params) (rate : F32) : List Entry → List Biquad → List Biquad
  | [], secs => secs
  | _ :: _, [] => []
  | e :: es, b :: bs => tune P e.kind e.freq rate e.q e.gainDb b :: tuneSections P rate es bs

/-- `CFB_CONFIGURE` (rule R212). The checks stand in the order of rule R304: `FaultConfig` before `FaultCapacity` (log 13). -/
def configureBank (P : Params) (interp : Bool) (delayUs rate : F32) (c : FilterBank) : Except Fault FilterBank := do
  requireFinite .cfbConfigure [(.delayUs, delayUs), (.rate, rate)]
  require (isPositive rate) (.config .cfbConfigure .rate)
  let r ← delayLen .cfbConfigure delayUs rate interp
  checkEntries .cfbConfigure rate 0 (hsTable P)
  checkCapacity P r.len
  pure { sec := tuneSections P rate (hsTable P) c.sec, dl := dlSet r interp c.dl }

/-- The cascade (rule R213): the sample through the first `n` sections in order, each processed once. -/
def cascade : Nat → F32 → List Biquad → List Biquad × F32
  | 0, v, secs => (secs, v)
  | _ + 1, v, [] => ([], v)
  | n + 1, v, b :: bs =>
    let t := processBiquad v b
    let u := cascade n t.2 bs
    (t.1 :: u.1, u.2)

/-- The coefficients of the cascade that are Unset (log 2). -/
def unsetSections (P : Params) (secs : List Biquad) : List RegName := (secs.take (nsec P)).flatMap unsetCoeffs

/-- `CFB_PUT` (rule R213), performed by the command `op`: through the cascade, then into the delay line. The line's check
comes first (rule R304, vector T-CFB3; log 13). -/
def putBank (P : Params) (op : Op) (x : F32) (c : FilterBank) : Except Fault FilterBank := do
  checkConfigured op c.dl
  let t := cascade (nsec P) x c.sec
  let dl ← putSample op t.2 c.dl
  pure { sec := t.1, dl := dl }

/-! The meanings, on the stand-alone CFB. -/

/-- `CFB_CONFIGURE` (rule R212). -/
def execCfbConfigure (interp : Bool) (delayUs rate : F32) (s : State) : Host.Outcome State Fault Refusal :=
  finish (configureBank Config.params interp delayUs rate s.cfb) s.setCfb

/-- `CFB_PUT` (rule R213); an Unset coefficient of a section marks the run (rule R301, code 3; log 2). -/
def execCfbPut (x : F32) (s : State) : Host.Outcome State Fault Refusal :=
  finish (putBank Config.params .cfbPut x s.cfb) fun c =>
    (s.setCfb c).noteUnset .cfb (unsetSections Config.params s.cfb.sec)

/-- `CFB_GET` (rule R214): `DL_GET` on the bank's line. -/
def execCfbGet (s : State) : Host.Outcome State Fault Refusal :=
  finish (getSample .cfbGet s.cfb.dl) fun y => s.emit .cfb [y]

end Sys2Proof.Machine
end

