-- ==== Sys2Proof/Machine/Shaper.lean ====
section
/-! DEFINITION. The FOS unit (file `44_first_order_shaper.md`). -/

namespace Sys2Proof.Machine

/-- A one-pole coefficient, `exp(−2π·f/rate)` (rule R232). -/
def onePoleCoeff (P : Params) (f rate : F32) : F32 := fExp P (fdiv (fmul (fneg twoPi32) f) rate)

/-- `FOS_CONFIGURE` without its check (rule R232): the four coefficient registers; the states are kept. -/
def tuneShaper (P : Params) (clampEn : Bool) (rate : F32) (f : Shaper) : Shaper :=
  { f with lpCoeff := .val (onePoleCoeff P (fLp P) rate), hpCoeff := .val (onePoleCoeff P (fHp P) rate)
           floorGain := .val (dbToGain P (limitDb P)), clampEn := clampEn }

/-- `FOS_CONFIGURE` (rule R232). -/
def configureShaper (P : Params) (clampEn : Bool) (rate : F32) (f : Shaper) : Except Fault Shaper := do
  requireFinite .fosConfigure [(.rate, rate)]
  require (isPositive rate) (.config .fosConfigure .rate)
  pure (tuneShaper P clampEn rate f)

/-- The one-pole low-pass update `in·(1 − coeff) + state·coeff` (rule R233). -/
def onePole (input state coeff : F32) : F32 := fadd (fmul input (fsub one coeff)) (fmul state coeff)

/-- The maximum-attenuation clamp `lowpassed·(1−floorGain) + raw·floorGain` (rules R233, R234). -/
def clampBlend (lowpassed raw floorGain : F32) : F32 :=
  fadd (fmul lowpassed (fsub one floorGain)) (fmul raw floorGain)

/-- The coefficients that `FOS_PROCESS` reads and that are Unset, in the order rule R233 reads them (log 2). -/
def unsetShaper (f : Shaper) : List RegName :=
  unsetOf ([(.fosLpCoeff, f.lpCoeff)] ++ (if f.clampEn then [(.fosFloorGain, f.floorGain)] else []) ++ [(.fosHpCoeff, f.hpCoeff)])

/-- `FOS_PROCESS` (rule R233): low-pass, clamp where `clamp_en` says so, then input minus low-pass of input. -/
def processShaper (x : F32) (f : Shaper) : Shaper × F32 :=
  let lowpassed := onePole x f.lpState f.lpCoeff.value
  let shaped := if f.clampEn then clampBlend lowpassed x f.floorGain.value else lowpassed
  let tracked := onePole shaped f.hpState f.hpCoeff.value
  ({ f with lpState := lowpassed, hpState := tracked }, fsub shaped tracked)

/-! The meanings, on the stand-alone FOS. -/

/-- `FOS_CONFIGURE` (rule R232). -/
def execFosConfigure (clampEn : Bool) (rate : F32) (s : State) : Host.Outcome State Fault Refusal :=
  finish (configureShaper Config.params clampEn rate s.fos) s.setFos

/-- `FOS_PROCESS` (rule R233); an Unset coefficient marks the run (rule R301, code 3; log 2). -/
def execFosProcess (x : F32) (s : State) : Host.Outcome State Fault Refusal :=
  let r := processShaper x s.fos
  .next (((s.setFos r.1).noteUnset .fos (unsetShaper s.fos)).emit .fos [r.2])

end Sys2Proof.Machine
end

