-- ==== Sys2Proof/Machine/Canceller.lean ====
section
/-! DEFINITION. The XTC unit (file `45_crosstalk_canceller.md`): reconfigure, the per-sample feedback step, bypass, latency. -/

namespace Sys2Proof.Machine

/-! Correction paths (rule R254). -/

/-- `path_get(p)` (rule R254): `DL_GET` on the path's line, in every head-shadow model. -/
def pathGet (p : Path) : Except Fault F32 := getSample .xtcProcess p.cfb.dl

/-- `path_put(p, v)` (rule R254): the head-shadow model on the way into the delay line. -/
def pathPut (P : Params) (hsm : HeadShadow) (v : F32) (p : Path) : Except Fault Path :=
  match hsm with
  | .none => do
    let dl ← putSample .xtcProcess v p.cfb.dl
    pure { p with cfb := { p.cfb with dl := dl } }
  | .firstOrderShaper => do
    let t := processShaper v p.fos
    let dl ← putSample .xtcProcess t.2 p.cfb.dl
    pure { fos := t.1, cfb := { p.cfb with dl := dl } }
  | .biquadCascade => do
    let c ← putBank P .xtcProcess v p.cfb
    pure { p with cfb := c }

/-! Reconfigure (rules R252, R253). -/

/-- The part of `VALID_CFG` that depends on the head-shadow model (rule R253). -/
def checkModel (P : Params) (hsm : HeadShadow) (rate : F32) : Except Fault Unit :=
  match hsm with
  | .none => .ok ⟨⟩
  | .firstOrderShaper => checkShaperParams P .xtcReconfigure
  | .biquadCascade => checkEntries .xtcReconfigure rate 0 (hsTable P)

/-- `VALID_CFG` (rule R253) and the capacity request (rule R131): the checks of `XTC_RECONFIGURE` in the order of rule R304. -/
def checkConfig (P : Params) (hsm : HeadShadow) (interp : Bool) (rate delayUs decayDb centerDb : F32) :
    Except Fault DelayRequest := do
  requireFinite .xtcReconfigure [(.rate, rate), (.delayUs, delayUs), (.decayDb, decayDb), (.centerDb, centerDb)]
  require (isPositive rate) (.config .xtcReconfigure .rate)
  require (decide (0 ≤ scaled delayUs)) (.config .xtcReconfigure .delayUs)
  let r ← delayLen .xtcReconfigure delayUs rate interp
  checkModel P hsm rate
  checkCapacity P r.len
  pure r

/-- Steps 1 and 2 of rule R252 on one path: its delay line set, and the selected head-shadow model tuned. -/
def setPath (P : Params) (hsm : HeadShadow) (interp : Bool) (rate : F32) (r : DelayRequest) (p : Path) : Path :=
  let line := dlSet r interp p.cfb.dl
  match hsm with
  | .none => { p with cfb := { p.cfb with dl := line } }
  | .firstOrderShaper => { fos := tuneShaper P P.fosClamp rate p.fos, cfb := { p.cfb with dl := line } }
  | .biquadCascade => { p with cfb := { sec := tuneSections P rate (hsTable P) p.cfb.sec, dl := line } }

/-- `gainComp = 1/(1+centerGain)` (rules R33, R252). -/
def gainCompOf (centerGain : F32) : F32 := fdiv one (fadd one centerGain)

/-- `XTC_RECONFIGURE` without its checks (rule R252); `bypass` and every history are kept. -/
def applyConfig (P : Params) (phantom : Bool) (hsm : HeadShadow) (interp cen : Bool) (rate delayUs decayDb centerDb : F32)
    (r : DelayRequest) (x : Canceller) : Canceller :=
  { x with
    sampleRate := .val rate, delayUs := .val delayUs, decayDb := .val decayDb, centerDb := .val centerDb
    phantom := phantom, hsm := hsm, interp := interp, cen := cen
    pathA := setPath P hsm interp rate r x.pathA
    pathB := setPath P hsm interp rate r x.pathB
    decayGain := .val (dbToGain P decayDb)
    centerGain := .val (dbToGain P centerDb)
    gainComp := .val (gainCompOf (dbToGain P centerDb))
    phase := .ready }

/-- `XTC_RECONFIGURE` (rule R252): all checks come before all writes. -/
def reconfigure (P : Params) (phantom : Bool) (hsm : HeadShadow) (interp cen : Bool) (rate delayUs decayDb centerDb : F32)
    (x : Canceller) : Except Fault Canceller := do
  let r ← checkConfig P hsm interp rate delayUs decayDb centerDb
  pure (applyConfig P phantom hsm interp cen rate delayUs decayDb centerDb r x)

/-! The per-sample step (rules R256 to R259). -/

/-- `reinforce` for one channel (rule R257): `(raw + centerGain·center) · gainComp`. -/
def reinforced (raw centerGain gainComp center : F32) : F32 := fmul (fadd raw (fmul centerGain center)) gainComp

/-- `center = (leftIn+rightIn)/2` (rule R257). -/
def centerOf (l r : F32) : F32 := fmul (fadd l r) half

/-- The outputs of a sample in general mode from its cancellation values (rules R256, R257). -/
def finalPair (x : Canceller) (l r leftOut rightOut : F32) : F32 × F32 :=
  if x.cen then
    let center := centerOf l r
    (reinforced leftOut x.centerGain.value x.gainComp.value center,
      reinforced rightOut x.centerGain.value x.gainComp.value center)
  else (leftOut, rightOut)

/-- `sample_general(l, r)` (rule R256): both cross reads come before both pushes (rule R70). -/
def sampleGeneral (P : Params) (tap : FbTap) (x : Canceller) (l r : F32) : Except Fault (Canceller × F32 × F32) := do
  let crossToLeft ← pathGet x.pathB
  let crossToRight ← pathGet x.pathA
  let leftOut := fsub l (fmul x.decayGain.value crossToLeft)
  let rightOut := fsub r (fmul x.decayGain.value crossToRight)
  let final := finalPair x l r leftOut rightOut
  let fed := match tap with
    | .pre => (leftOut, rightOut)
    | .post => final
  let pathA ← pathPut P x.hsm fed.1 x.pathA
  let pathB ← pathPut P x.hsm fed.2 x.pathB
  pure ({ x with pathA := pathA, pathB := pathB }, final)

/-- `sample_phantom(l, r)` (rule R259): path A carries the mid signal; path B is neither read nor written. -/
def samplePhantom (P : Params) (x : Canceller) (l r : F32) : Except Fault (Canceller × F32 × F32) := do
  let middle := fadd l r
  let side := fsub l r
  let cross ← pathGet x.pathA
  let mid2 := fsub middle (fmul x.decayGain.value cross)
  let pathA ← pathPut P x.hsm mid2 x.pathA
  pure ({ x with pathA := pathA }, fmul (fadd mid2 side) half, fmul (fsub mid2 side) half)

/-- One sample pair (rule R255). -/
def samplePair (P : Params) (tap : FbTap) (x : Canceller) (l r : F32) : Except Fault (Canceller × F32 × F32) :=
  if x.phantom then samplePhantom P x l r else sampleGeneral P tap x l r

/-- The registers that a `path_put` reads and that are Unset (log 2). -/
def unsetPath (P : Params) (hsm : HeadShadow) (p : Path) : List RegName :=
  match hsm with
  | .none => []
  | .firstOrderShaper => unsetShaper p.fos
  | .biquadCascade => unsetSections P p.cfb.sec

/-- The registers that a sample reads and that are Unset, in the order rules R256 and R259 read them. There are none in Ready
(rule R256, log 2). -/
def unsetSample (P : Params) (x : Canceller) : List RegName :=
  unsetOf ([(.xtcDecayGain, x.decayGain)] ++
    (if x.cen && !x.phantom then [(.xtcCenterGain, x.centerGain), (.xtcGainComp, x.gainComp)] else [])) ++
  unsetPath P x.hsm x.pathA ++ (if x.phantom then [] else unsetPath P x.hsm x.pathB)

/-- The block as a left fold of the per-sample step, in ascending position (rule R255): the block after it and the response
words. -/
def processPairs (P : Params) (tap : FbTap) : Canceller → List (F32 × F32) → Except Fault (Canceller × List Word)
  | x, [] => .ok (x, [])
  | x, p :: rest => do
    let t ← samplePair P tap x p.1 p.2
    let u ← processPairs P tap t.1 rest
    pure (u.1, t.2.1 :: t.2.2 :: u.2)

/-- The words of a block, left and right interleaved (rule R95). -/
def interleave (pairs : List (F32 × F32)) : List Word := pairs.flatMap fun p => [p.1, p.2]

/-- `XTC_PROCESS` (rules R255, R260). -/
def processBlock (P : Params) (tap : FbTap) (pairs : List (F32 × F32)) (x : Canceller) :
    Except Fault (Canceller × List Word) :=
  if x.bypass then .ok (x, interleave pairs)
  else if x.phase = .unconfigured then .error (.unconfigured .xtcProcess)
  else do
    let t ← processPairs P tap { x with phase := .processing } pairs
    pure ({ t.1 with phase := .ready }, t.2)

/-! The meanings, on the top-level block. -/

/-- `XTC_RECONFIGURE` (rule R252). -/
def execXtcReconfigure (phantom : Bool) (hsm : HeadShadow) (interp cen : Bool) (rate delayUs decayDb centerDb : F32)
    (s : State) : Host.Outcome State Fault Refusal :=
  finish (reconfigure Config.params phantom hsm interp cen rate delayUs decayDb centerDb s.xtc) s.setXtc

/-- The registers that a block reads and that are Unset: none in bypass and none where there is no sample (log 2). -/
def unsetBlock (P : Params) (pairs : List (F32 × F32)) (x : Canceller) : List RegName :=
  if x.bypass || pairs.isEmpty then [] else unsetSample P x

/-- `XTC_PROCESS` (rule R255). -/
def execXtcProcess (pairs : List (F32 × F32)) (s : State) : Host.Outcome State Fault Refusal :=
  finish (processBlock Config.params Config.fbTap pairs s.xtc) fun t =>
    ((s.setXtc t.1).noteUnset .xtc (unsetBlock Config.params pairs s.xtc)).emit .xtc t.2

/-- `XTC_SET_BYPASS` (rule R261). -/
def execXtcSetBypass (b : Bool) (s : State) : Host.Outcome State Fault Refusal :=
  .next (s.setXtc { s.xtc with bypass := b })

/-- `XTC_GET_LATENCY` (rule R262): `+0.0`, whatever the configured delay. -/
def execXtcGetLatency (s : State) : Host.Outcome State Fault Refusal := .next (s.emit .xtc [posZero])

end Sys2Proof.Machine
end

