-- ==== Sys2Proof/Machine/Dispatch.lean ====
section
/-! DEFINITION. One arm per command. -/

namespace Sys2Proof.Machine

def exec (i : Instr) (s : State) : Host.Outcome State Fault Refusal :=
  match i with
  | .xtcReconfigure phantom hsm interp cen rate delayUs decayDb centerDb => Sys2Proof.Machine.execXtcReconfigure phantom hsm interp cen rate delayUs decayDb centerDb s
  | .xtcProcess pairs => Sys2Proof.Machine.execXtcProcess pairs s
  | .xtcSetBypass b => Sys2Proof.Machine.execXtcSetBypass b s
  | .xtcGetLatency => Sys2Proof.Machine.execXtcGetLatency s
  | .bqSetLowpass freq rate q => Sys2Proof.Machine.execBqSetLowpass freq rate q s
  | .bqSetHighpass freq rate q => Sys2Proof.Machine.execBqSetHighpass freq rate q s
  | .bqSetPeaking freq rate q gainDb => Sys2Proof.Machine.execBqSetPeaking freq rate q gainDb s
  | .bqSetShelf freq rate q gainDb => Sys2Proof.Machine.execBqSetShelf freq rate q gainDb s
  | .bqSetAllpass freq rate q => Sys2Proof.Machine.execBqSetAllpass freq rate q s
  | .bqProcess x => Sys2Proof.Machine.execBqProcess x s
  | .dlConfigure len => Sys2Proof.Machine.execDlConfigure len s
  | .dlConfigureFrac d => Sys2Proof.Machine.execDlConfigureFrac d s
  | .dlPut x => Sys2Proof.Machine.execDlPut x s
  | .dlGet => Sys2Proof.Machine.execDlGet s
  | .cfbConfigure interp delayUs rate => Sys2Proof.Machine.execCfbConfigure interp delayUs rate s
  | .cfbPut x => Sys2Proof.Machine.execCfbPut x s
  | .cfbGet => Sys2Proof.Machine.execCfbGet s
  | .fosConfigure clampEn rate => Sys2Proof.Machine.execFosConfigure clampEn rate s
  | .fosProcess x => Sys2Proof.Machine.execFosProcess x s

end Sys2Proof.Machine
end

