-- ==== Sys2Proof/WellFormed.lean ====
section
/-! DEFINITION. Which commands the encoding can carry. Every field of `Instr` but one has exactly the values its encoding
has; the exception is the length of a block, which travels in 24 bits (rule R95). -/

namespace Sys2Proof

/-- The largest block of `XTC_PROCESS` has `2^24 - 1` pairs (rules R6, R95). -/
def blockLimit : Nat := 2 ^ 24

/-- A command that has an encoding: `XTC_PROCESS` has `N < 2^24` pairs (rule R95); every other command has one. -/
def Instr.wellFormed : Instr → Bool
  | .xtcReconfigure .. => true
  | .xtcProcess pairs => decide (pairs.length < blockLimit)
  | .xtcSetBypass _ => true
  | .xtcGetLatency => true
  | .bqSetLowpass .. => true
  | .bqSetHighpass .. => true
  | .bqSetPeaking .. => true
  | .bqSetShelf .. => true
  | .bqSetAllpass .. => true
  | .bqProcess _ => true
  | .dlConfigure _ => true
  | .dlConfigureFrac _ => true
  | .dlPut _ => true
  | .dlGet => true
  | .cfbConfigure .. => true
  | .cfbPut _ => true
  | .cfbGet => true
  | .fosConfigure .. => true
  | .fosProcess _ => true

end Sys2Proof
end

