-- ==== Sys2Proof/Decode.lean ====
section
/-! DEFINITION. The command encoding `XTC-CMD` (rules R91 to R97, R103 to R105): decoder, encoder, and the reading of one
opcode-table word. -/

namespace Sys2Proof

/-- The `unit` field of a port's commands (rule R91). -/
def unitCode : PortId → BitVec 4
  | .xtc => 0
  | .bq => 1
  | .dl => 2
  | .cfb => 3
  | .fos => 4

/-- The opcode map (rule R93): `op = bits[31:24] = unit ++ fn`. -/
def opcode : Op → BitVec 8
  | .xtcReconfigure => 0x01
  | .xtcProcess => 0x02
  | .xtcSetBypass => 0x03
  | .xtcGetLatency => 0x04
  | .bqSetLowpass => 0x11
  | .bqSetHighpass => 0x12
  | .bqSetPeaking => 0x13
  | .bqSetShelf => 0x14
  | .bqSetAllpass => 0x15
  | .bqProcess => 0x16
  | .dlConfigure => 0x21
  | .dlConfigureFrac => 0x22
  | .dlPut => 0x23
  | .dlGet => 0x24
  | .cfbConfigure => 0x31
  | .cfbPut => 0x32
  | .cfbGet => 0x33
  | .fosConfigure => 0x41
  | .fosProcess => 0x42

/-- The 19 operations in the order of rule R93. -/
def allOps : List Op :=
  [.xtcReconfigure, .xtcProcess, .xtcSetBypass, .xtcGetLatency,
   .bqSetLowpass, .bqSetHighpass, .bqSetPeaking, .bqSetShelf, .bqSetAllpass, .bqProcess,
   .dlConfigure, .dlConfigureFrac, .dlPut, .dlGet,
   .cfbConfigure, .cfbPut, .cfbGet, .fosConfigure, .fosProcess]

/-- The operation of an opcode byte, if it is one of the 19 (rule R103 (a)). -/
def opOf (b : BitVec 8) : Option Op := allOps.find? (fun o => opcode o == b)

/-- The bits of `arg` that must be zero (rules R93, R94, R97, R103 (b)). -/
def reservedMask : Op → BitVec 24
  | .xtcReconfigure => 0xFFFFE0
  | .xtcProcess => 0x000000
  | .xtcSetBypass => 0xFFFFFE
  | .dlConfigure => 0x000000
  | .cfbConfigure => 0xFFFFFE
  | .fosConfigure => 0xFFFFFE
  | .xtcGetLatency | .bqSetLowpass | .bqSetHighpass | .bqSetPeaking | .bqSetShelf | .bqSetAllpass | .bqProcess => 0xFFFFFF
  | .dlConfigureFrac | .dlPut | .dlGet | .cfbPut | .cfbGet | .fosProcess => 0xFFFFFF

/-- Why a header is illegal: the four cases of rule R103. -/
inductive IllegalHeader where
  /-- (a) the `op` is not one of the 19. -/
  | unknownOp
  /-- (b) a must-be-zero bit is 1. -/
  | reservedBit
  /-- (c) `XTC_RECONFIGURE` with `hsm = 3`. -/
  | reservedHsm
  /-- (d) the unit is not the one the port serves (rule R104). -/
  | wrongUnit
deriving DecidableEq, Repr

/-- `bits[31:24]` of a header (rule R91). -/
def headerOp (h : Word) : BitVec 8 := h.extractLsb' 24 8

/-- `bits[23:0]` of a header (rule R91). -/
def headerArg (h : Word) : BitVec 24 := h.extractLsb' 0 24

/-- One bit of `arg`, as a Bool (rule R92). -/
def argBit (h : Word) (k : Nat) : Bool := (headerArg h).getLsbD k

/-- The field `hsm`, bits 2:1 of `arg` (rule R94); 3 is reserved. -/
def headShadowOf (f : BitVec 2) : Option HeadShadow :=
  if f = 0 then some .none else if f = 1 then some .firstOrderShaper else if f = 2 then some .biquadCascade else none

/-- The two bits of a head-shadow model (rule R94). -/
def headShadowCode : HeadShadow → BitVec 2
  | .none => 0
  | .firstOrderShaper => 1
  | .biquadCascade => 2

/-- The field `hsm` of a header. -/
def headerHsm (h : Word) : Option HeadShadow := headShadowOf ((headerArg h).extractLsb' 1 2)

/-- Decoding of a header on port `p`: its operation, or why it is illegal (rules R103, R104). -/
def decodeHeader (p : PortId) (h : Word) : Except IllegalHeader Op :=
  match opOf (headerOp h) with
  | none => .error .unknownOp
  | some o =>
    if headerArg h &&& reservedMask o ≠ 0 then .error .reservedBit
    else if o = .xtcReconfigure ∧ headerHsm h = none then .error .reservedHsm
    else if o.port ≠ p then .error .wrongUnit
    else .ok o

/-- The first `n` pairs of a word sequence (rule R95), if there are so many. -/
def takePairs : Nat → List Word → Option (List (F32 × F32) × List Word)
  | 0, ws => some ([], ws)
  | n + 1, l :: r :: ws => (takePairs n ws).map fun t => ((l, r) :: t.1, t.2)
  | _ + 1, _ => none

/-- The command of a legal header and the payload that follows it, with the words after it; `none` when the payload is
not all there (rules R93 to R97, R105). -/
def assemble (o : Op) (h : Word) (ws : List Word) : Option (Instr × List Word) :=
  match o, ws with
  | .xtcReconfigure, rate :: delayUs :: decayDb :: centerDb :: rest =>
    (headerHsm h).map fun m => (.xtcReconfigure (argBit h 0) m (argBit h 3) (argBit h 4) rate delayUs decayDb centerDb, rest)
  | .xtcProcess, ws => (takePairs (headerArg h).toNat ws).map fun t => (.xtcProcess t.1, t.2)
  | .xtcSetBypass, ws => some (.xtcSetBypass (argBit h 0), ws)
  | .xtcGetLatency, ws => some (.xtcGetLatency, ws)
  | .bqSetLowpass, f :: r :: q :: rest => some (.bqSetLowpass f r q, rest)
  | .bqSetHighpass, f :: r :: q :: rest => some (.bqSetHighpass f r q, rest)
  | .bqSetPeaking, f :: r :: q :: g :: rest => some (.bqSetPeaking f r q g, rest)
  | .bqSetShelf, f :: r :: q :: g :: rest => some (.bqSetShelf f r q g, rest)
  | .bqSetAllpass, f :: r :: q :: rest => some (.bqSetAllpass f r q, rest)
  | .bqProcess, x :: rest => some (.bqProcess x, rest)
  | .dlConfigure, ws => some (.dlConfigure (headerArg h), ws)
  | .dlConfigureFrac, d :: rest => some (.dlConfigureFrac d, rest)
  | .dlPut, x :: rest => some (.dlPut x, rest)
  | .dlGet, ws => some (.dlGet, ws)
  | .cfbConfigure, d :: r :: rest => some (.cfbConfigure (argBit h 0) d r, rest)
  | .cfbPut, x :: rest => some (.cfbPut x, rest)
  | .cfbGet, ws => some (.cfbGet, ws)
  | .fosConfigure, r :: rest => some (.fosConfigure (argBit h 0) r, rest)
  | .fosProcess, x :: rest => some (.fosProcess x, rest)
  | _, _ => none

/-- What the words waiting on a port amount to. -/
inductive Fetch where
  /-- No word waits. -/
  | idle
  /-- An illegal header, the reason, and the words after it (rule R103: the header alone is consumed). -/
  | illegal (header : Word) (why : IllegalHeader) (rest : List Word)
  /-- A legal header whose payload is not complete. -/
  | incomplete
  /-- A whole command and the words after it. -/
  | command (i : Instr) (rest : List Word)
deriving DecidableEq, Repr

/-- The decoder: total on any words, rejecting by name (rules R91, R103, R105). -/
def decode (p : PortId) : List Word → Fetch
  | [] => .idle
  | h :: ws =>
    match decodeHeader p h with
    | .error why => .illegal h why ws
    | .ok o =>
      match assemble o h ws with
      | none => .incomplete
      | some t => .command t.1 t.2

/-! The encoder, from the same tables. -/

/-- One bit. -/
def bit (b : Bool) : BitVec 1 := BitVec.ofBool b

/-- The `arg` field of a command (rules R93 to R97). -/
def encodeArg : Instr → BitVec 24
  | .xtcReconfigure phantom hsm interp cen .. => 0#19 ++ bit cen ++ bit interp ++ headShadowCode hsm ++ bit phantom
  | .xtcProcess pairs => BitVec.ofNat 24 pairs.length
  | .xtcSetBypass b => 0#23 ++ bit b
  | .xtcGetLatency => 0
  | .bqSetLowpass .. => 0
  | .bqSetHighpass .. => 0
  | .bqSetPeaking .. => 0
  | .bqSetShelf .. => 0
  | .bqSetAllpass .. => 0
  | .bqProcess _ => 0
  | .dlConfigure len => len
  | .dlConfigureFrac _ => 0
  | .dlPut _ => 0
  | .dlGet => 0
  | .cfbConfigure interp .. => 0#23 ++ bit interp
  | .cfbPut _ => 0
  | .cfbGet => 0
  | .fosConfigure clampEn _ => 0#23 ++ bit clampEn
  | .fosProcess _ => 0

/-- The header word `op ++ arg` of a command (rule R91). -/
def encodeHeader (i : Instr) : Word := opcode i.op ++ encodeArg i

/-- The payload words of a command, in the order of rule R93. -/
def encodePayload : Instr → List Word
  | .xtcReconfigure _ _ _ _ rate delayUs decayDb centerDb => [rate, delayUs, decayDb, centerDb]
  | .xtcProcess pairs => pairs.flatMap fun p => [p.1, p.2]
  | .xtcSetBypass _ => []
  | .xtcGetLatency => []
  | .bqSetLowpass f r q => [f, r, q]
  | .bqSetHighpass f r q => [f, r, q]
  | .bqSetPeaking f r q g => [f, r, q, g]
  | .bqSetShelf f r q g => [f, r, q, g]
  | .bqSetAllpass f r q => [f, r, q]
  | .bqProcess x => [x]
  | .dlConfigure _ => []
  | .dlConfigureFrac d => [d]
  | .dlPut x => [x]
  | .dlGet => []
  | .cfbConfigure _ d r => [d, r]
  | .cfbPut x => [x]
  | .cfbGet => []
  | .fosConfigure _ r => [r]
  | .fosProcess x => [x]

/-- The words of a command: header, then payload (rule R91). -/
def encode (i : Instr) : List Word := encodeHeader i :: encodePayload i

/-! The source's spellings. -/

/-- The command a source spelling stands for (rule R107). -/
def expand : SourceCall → Instr
  | .setLowPass f r q => .bqSetLowpass f r q
  | .setHighPass f r q => .bqSetHighpass f r q
  | .setPeaking f r q g => .bqSetPeaking f r q g
  | .setShelf f r q g => .bqSetShelf f r q g
  | .setAllPass f r q => .bqSetAllpass f r q
  | .biquadProcess x => .bqProcess x
  | .delayConfigure len => .dlConfigure len
  | .delayConfigureFractional d => .dlConfigureFrac d
  | .delayPutSample x => .dlPut x
  | .delayGetSample => .dlGet
  | .bankConfigure i d r => .cfbConfigure i d r
  | .bankPutSample x => .cfbPut x
  | .bankGetSample => .cfbGet
  | .reconfigureDelayFirst hsm interp cen d r a c ph => .xtcReconfigure ph hsm interp cen r d a c
  | .reconfigureRateFirst hsm interp cen r d a c ph => .xtcReconfigure ph hsm interp cen r d a c
  | .process pairs => .xtcProcess pairs
  | .setBypass b => .xtcSetBypass b
  | .getLatencySeconds => .xtcGetLatency

/-! One word of the opcode table, laid out as the words of a port. -/

/-- How many payload words follow a header, told from the header alone (rules R91, R105). -/
def headerPayloadWords (h : Word) : Nat :=
  match opOf (headerOp h) with
  | some .xtcReconfigure => 4
  | some .xtcProcess => 2 * (headerArg h).toNat
  | some .xtcSetBypass | some .xtcGetLatency => 0
  | some .bqSetLowpass | some .bqSetHighpass | some .bqSetAllpass => 3
  | some .bqSetPeaking | some .bqSetShelf => 4
  | some .bqProcess => 1
  | some .dlConfigure | some .dlGet => 0
  | some .dlConfigureFrac | some .dlPut => 1
  | some .cfbConfigure => 2
  | some .cfbPut => 1
  | some .cfbGet => 0
  | some .fosConfigure | some .fosProcess => 1
  | none => 0

/-- The first `n` words of a number, its least significant 32 bits first. -/
def wordsOf : Nat → Nat → List Word
  | _, 0 => []
  | w, n + 1 => BitVec.ofNat 32 w :: wordsOf (w / 2 ^ 32) n

/-- The words of an instruction whose low `nbits` bits are `w` and whose other bits are zero: the header word and the
payload words it asks for. -/
def tableWords (nbits w : Nat) : List Word :=
  wordsOf (w % 2 ^ nbits) (1 + headerPayloadWords (BitVec.ofNat 32 (w % 2 ^ nbits)))

/-- The port whose unit a header names (rule R104); the top-level port for a reserved unit, where any header of that
unit is illegal. -/
def headerPort (h : Word) : PortId :=
  match opOf (headerOp h) with
  | some o => o.port
  | none => .xtc

/-- The instruction this decoder reads from an instruction whose bits are `w`, on the port of its own unit. -/
def decodeTableWord (nbits w : Nat) : Option Instr :=
  match decode (headerPort (BitVec.ofNat 32 (w % 2 ^ nbits))) (tableWords nbits w) with
  | .command i _ => some i
  | _ => none

end Sys2Proof
end

