-- ==== Sys2Proof/Machine/Flags.lean ====
section
/-! DEFINITION. The status of the block: the flags of rule R36 and the status pins of rule R90. No arithmetic operation sets
a flag (rules R36, R125). -/

namespace Sys2Proof.Machine

/-- The two-bit code of `XTC.state` (rule R34). -/
def phaseCode : Phase → BitVec 2
  | .unconfigured => 0
  | .ready => 1
  | .processing => 2

/-- The status pins of the top-level block (rule R90): `ill`, `state[1:0]`, `bypass`. -/
structure StatusPins where
  ill : Bool
  state : BitVec 2
  bypass : Bool
deriving DecidableEq, Repr

/-- The pins of the top-level block. -/
def State.xtcPins (s : State) : StatusPins :=
  { ill := s.xtcPort.ill, state := phaseCode s.xtc.phase, bypass := s.xtc.bypass }

/-- The `ill` pin of a port (rule R90). -/
def State.illPin (s : State) (p : PortId) : Bool := (s.port p).ill

/-- An illegal header on a port (rule R103): "the header word is consumed, no payload word is consumed for it, no response
word is produced, `ill <- 1`, and no other state changes". The header is recorded (rule R301; log 1). -/
def State.takeIllegal (s : State) (p : PortId) (header : Word) (rest : List Word) : State :=
  s.setPort p { s.port p with cmd := rest, ill := true, illHeaders := (s.port p).illHeaders ++ [header] }

/-- The run is marked (rule R301): some port has met an illegal header, or some command has read an Unset register. -/
def State.marked (s : State) : Bool :=
  [PortId.xtc, .bq, .dl, .cfb, .fos].any fun p => (s.port p).illHeaders != [] || (s.port p).unsetReads != []

/-- The illegal headers of the first port whose `ill` is 1, where there is one: the run is over (rules R301, R305; log 1). -/
def State.overBy (s : State) : Option (List Word) :=
  ([PortId.xtc, .bq, .dl, .cfb, .fos].find? fun p => (s.port p).ill).map fun p => (s.port p).illHeaders

end Sys2Proof.Machine
end

