-- ==== Sys2Proof/Machine/Fetching.lean ====
section
/-! DEFINITION. What waits on a port, and reset of an instance as an input of the outside world (rules R91, R330). -/

namespace Sys2Proof.Machine

/-- What the words waiting on port `p` amount to. -/
def State.fetch (s : State) (p : PortId) : Fetch := decode p (s.port p).cmd

/-- The words left on a port by a reset (rule R330): "A command in progress is abandoned; partial payload is discarded". A
command is in progress when its payload is not complete; words of commands not begun are still the issuers' (log 4). -/
def abandonPartial (p : PortId) (ws : List Word) : List Word :=
  match decode p ws with
  | .incomplete => []
  | _ => ws

/-- `rst_n` of an instance asserted (rule R330): every piece of its state at the value of rule R50, `ill` cleared. The
responses already transferred and the mark of the run stay (rule R301: "the mark is never cleared"). -/
def State.resetInstance (s : State) (p : PortId) : State :=
  (s.resetUnit p).setPort p { s.port p with cmd := abandonPartial p (s.port p).cmd, ill := false }

/-- The instruction whose low `nbits` bits are `w`, its other bits zero, as the next command: its words in front of what
waits on the port of its unit, and that port the next to be served. -/
def State.placeTableWord (s : State) (nbits w : Nat) : State :=
  let p := headerPort (BitVec.ofNat 32 (w % 2 ^ nbits))
  (s.setPort p { s.port p with cmd := tableWords nbits w ++ (s.port p).cmd }).setInputs (.command p :: s.inputs)

end Sys2Proof.Machine
end

