-- ==== Sys2Proof/Machine/Serve.lean ====
section
/-! DEFINITION. How the block takes what the outside world offers it: the next command of a port, or a reset (rules R68, R71,
R103, R330). -/

namespace Sys2Proof.Machine

/-- The next command of port `p` is accepted (rules R68, R71): performed whole if it is complete; an illegal header is
consumed (rule R103); with no complete command the port waits and nothing changes (log 4). -/
def serve (p : PortId) (s : State) : Host.Outcome State Fault Refusal :=
  match s.fetch p with
  | .idle => .next s
  | .incomplete => .next s
  | .illegal header _ rest => .next (s.takeIllegal p header rest)
  | .command i rest => exec i (s.consume p rest)

/-- The next input of the outside world taken (log 4); with no input the block waits for one. After an illegal header the
run is over, "faulted" (rule R305): every step but a reset, "the only recovery from the `ill` flag" (rule R306), is
`FaultIllegal` (log 1). -/
def takeInput (s : State) : Host.Outcome State Fault Refusal :=
  match s.inputs, s.overBy with
  | .reset p :: rest, _ => .next ((s.setInputs rest).resetInstance p)
  | _, some headers => .fault (.illegal headers)
  | [], none => .next s
  | .command p :: rest, none => serve p (s.setInputs rest)

end Sys2Proof.Machine
end

