-- ==== Sys2Proof/Safety.lean ====
section
/-! DEFINITION. The terms claims are stated in: valid operands (rules R151, R211, R253), the invariants of the state (rules
R21, R25 to R28, R34, R60 to R62, R256), runs of commands, and the named properties a claim may assume of the OPEN functions
(rules R127, R152). -/

namespace Sys2Proof.Machine

/-! Valid operands. -/

/-- The Biquad parameter invariant on finite operands (rule R151). -/
def ValidTuning (freq rate q : F32) : Prop :=
  isFinite freq = true ∧ isFinite rate = true ∧ isFinite q = true ∧
  0 < scaled rate ∧ 0 < scaled freq ∧ 2 * scaled freq < scaled rate ∧ 0 < scaled q

/-- `HS_TABLE` is valid for a sample rate (rule R211). -/
def ValidTable (P : Params) (rate : F32) : Prop :=
  ∀ e ∈ hsTable P, ValidTuning e.freq rate e.q ∧ isFinite e.gainDb = true

/-- The delay in samples of rule R130, with `USEC32` written out. -/
def samplesOf (delayUs rate : F32) : F32 := fmul (fmul delayUs 0x358637BD) rate

/-- The delay of rule R130 is a finite number of samples, not below 0 (rules R131, R253). -/
def ValidDelay (delayUs rate : F32) : Prop :=
  isFinite (samplesOf delayUs rate) = true ∧ 0 ≤ scaled (samplesOf delayUs rate)

/-- What `VALID_CFG` asks of the selected head-shadow model (rule R253). -/
def ValidModel (P : Params) (hsm : HeadShadow) (rate : F32) : Prop :=
  match hsm with
  | .none => True
  | .firstOrderShaper =>
    isFinite (fLp P) = true ∧ 0 < scaled (fLp P) ∧ isFinite (fHp P) = true ∧ 0 < scaled (fHp P) ∧ isFinite (limitDb P) = true
  | .biquadCascade => ValidTable P rate

/-- `VALID_CFG` (rule R253) but for the capacity, which has a fault of its own. -/
def ValidConfig (P : Params) (hsm : HeadShadow) (rate delayUs decayDb centerDb : F32) : Prop :=
  (isFinite rate = true ∧ 0 < scaled rate) ∧ (isFinite delayUs = true ∧ 0 ≤ scaled delayUs) ∧
  ValidDelay delayUs rate ∧ isFinite decayDb = true ∧ isFinite centerDb = true ∧ ValidModel P hsm rate

/-! Invariants. -/

/-- A delay line as rules R25 to R28 and R60 to R62 have it: the capacity within `DL_MAX`; the cursor inside; the contents in
canonical form and inside; a fractional line remembers its request; a whole-sample line has fraction `+0`. -/
structure LineOk (P : Params) (dl : DelayLine) : Prop where
  cap_le : dl.cap ≤ dlMax P
  index_lt : 0 < dl.cap → dl.index < dl.cap
  unconfigured : dl.cap = 0 → dl = resetDelayLine
  wf : dl.data.wf = true
  below : dl.data.below dl.cap = true
  interp_set : dl.interp = true → dl.delaySamples.written = true
  whole_frac : dl.interp = false → dl.frac = posZero

/-- Every coefficient of a section has been written since reset. -/
def Tuned (b : Biquad) : Prop :=
  b.a1.written = true ∧ b.a2.written = true ∧ b.b0.written = true ∧ b.b1.written = true ∧ b.b2.written = true

/-- No coefficient of a section has been written since reset. -/
def Untuned (b : Biquad) : Prop :=
  b.a1 = .unset ∧ b.a2 = .unset ∧ b.b0 = .unset ∧ b.b1 = .unset ∧ b.b2 = .unset

/-- "The five are written together, and only" together (rule R21). -/
def CoeffsTogether (b : Biquad) : Prop := Tuned b ∨ Untuned b

/-- The sections that exist, the first `NSEC`, are all tuned. -/
def BankTuned (P : Params) (secs : List Biquad) : Prop := nsec P ≤ secs.length ∧ ∀ b ∈ secs.take (nsec P), Tuned b

/-- The shaper's coefficients have all been written since reset. -/
def ShaperTuned (f : Shaper) : Prop := f.lpCoeff.written = true ∧ f.hpCoeff.written = true ∧ f.floorGain.written = true

/-- The shaper's coefficients are written together (rules R31, R232). -/
def ShaperTogether (f : Shaper) : Prop :=
  ShaperTuned f ∨ (f.lpCoeff = .unset ∧ f.hpCoeff = .unset ∧ f.floorGain = .unset)

/-- A bank: seven sections held, each written whole, and a sound line. -/
structure BankOk (P : Params) (c : FilterBank) : Prop where
  sections : c.sec.length = maxSections
  together : ∀ b ∈ c.sec, CoeffsTogether b
  line : LineOk P c.dl

/-- What the selected head-shadow model of a path needs before a sample is processed. -/
def ModelTuned (P : Params) (hsm : HeadShadow) (p : Path) : Prop :=
  match hsm with
  | .none => True
  | .firstOrderShaper => ShaperTuned p.fos
  | .biquadCascade => BankTuned P p.cfb.sec

/-- What the block has in `Ready` (rule R252): both lines configured, the three gains written, the selected model tuned. -/
structure ReadyOk (P : Params) (x : Canceller) : Prop where
  capA : 0 < x.pathA.cfb.dl.cap
  capB : x.pathB.cfb.dl.cap = x.pathA.cfb.dl.cap
  config : x.sampleRate.written = true ∧ x.delayUs.written = true ∧ x.decayDb.written = true ∧ x.centerDb.written = true
  gains : x.decayGain.written = true ∧ x.centerGain.written = true ∧ x.gainComp.written = true
  modelA : ModelTuned P x.hsm x.pathA
  modelB : ModelTuned P x.hsm x.pathB

/-- The top-level block between two commands: never Processing (rule R37 (c)); before the first reconfigure everything but
`bypass` is as reset left it (rules R50, R251); in Ready, `ReadyOk`. -/
structure BlockOk (P : Params) (x : Canceller) : Prop where
  bankA : BankOk P x.pathA.cfb
  bankB : BankOk P x.pathB.cfb
  fosA : ShaperTogether x.pathA.fos
  fosB : ShaperTogether x.pathB.fos
  idle : x.phase ≠ .processing
  fresh : x.phase = .unconfigured → { x with bypass := false } = resetCanceller
  ready : x.phase = .ready → ReadyOk P x

/-- The `ill` flag is up only on a marked port (rules R36, R301). -/
def PortOk (q : Port) : Prop := q.ill = true → q.illHeaders ≠ []

/-- The invariant of the whole state that every step keeps. Its last clause: no instance but a stand-alone BQ or FOS ever reads
an Unset register (rule R256, log 2). -/
structure StateOk (P : Params) (s : State) : Prop where
  xtc : BlockOk P s.xtc
  bq : CoeffsTogether s.bq
  dl : LineOk P s.dl
  cfb : BankOk P s.cfb
  cfbTuned : 0 < s.cfb.dl.cap → BankTuned P s.cfb.sec
  fos : ShaperTogether s.fos
  ports : ∀ p, PortOk (s.port p)
  unset : ∀ p, p ≠ .bq → p ≠ .fos → (s.port p).unsetReads = []

/-! What one instance holds. -/

/-- `s` and `t` agree on the instance of port `p`: its unit's state. -/
def SameUnit (p : PortId) (s t : State) : Prop :=
  match p with
  | .xtc => t.xtc = s.xtc
  | .bq => t.bq = s.bq
  | .dl => t.dl = s.dl
  | .cfb => t.cfb = s.cfb
  | .fos => t.fos = s.fos

/-- The four histories of a section are the same (rules R22, R23). -/
def SameHistory (a b : Biquad) : Prop := b.x1 = a.x1 ∧ b.x2 = a.x2 ∧ b.y1 = a.y1 ∧ b.y2 = a.y2

/-- Two section lists have the same histories, section by section. -/
def SameHistories (as bs : List Biquad) : Prop := List.Forall₂ SameHistory as bs

/-- The two states of a shaper are the same (rule R30). -/
def SameShaperState (f g : Shaper) : Prop := g.lpState = f.lpState ∧ g.hpState = f.hpState

/-! What an operation does to a unit, said through reads. -/

/-- `b'` is `b` with the five coefficients `c` written and the history kept (rules R21, R23). -/
def CoeffsWritten (c : Coeffs) (b b' : Biquad) : Prop :=
  b' = { b with a1 := .val c.a1, a2 := .val c.a2, b0 := .val c.b0, b1 := .val c.b1, b2 := .val c.b2 }

/-- The sections after a tuning from the table (rule R212): section `k` has the coefficients of entry `k`; a section beyond
the table is as before; the number of sections is as before. -/
def SectionsTuned (P : Params) (rate : F32) (bs bs' : List Biquad) : Prop :=
  bs'.length = bs.length ∧
  ∀ (k : Nat) (b : Biquad), bs[k]? = some b →
    ((hsTable P)[k]? = none → bs'[k]? = some b) ∧
    ∀ e : Entry, (hsTable P)[k]? = some e →
      ∃ b', bs'[k]? = some b' ∧ CoeffsWritten (bqCoef P e.kind e.freq rate e.q e.gainDb) b b'

/-- The line after `dl_set(len, interp, d, frac)` (rule R185), slot by slot. -/
def LineSet (len : Nat) (interp : Bool) (d frac : F32) (dl dl' : DelayLine) : Prop :=
  dl'.cap = len ∧ dl'.interp = interp ∧ dl'.frac = frac ∧
  dl'.delaySamples = (if interp then .val d else dl.delaySamples) ∧
  (dl.cap = len → dl'.index = dl.index ∧ ∀ j, dl'.data.read j = dl.data.read j) ∧
  (dl.cap ≠ len → dl'.index = 0 ∧ ∀ j, dl'.data.read j = posZero)

/-- The line after a put (rule R183): the slot under the cursor holds `x`, every other slot what it held, the cursor is one
further modulo the capacity, all else is as before. -/
def LinePushed (x : F32) (dl dl' : DelayLine) : Prop :=
  dl'.data.read dl.index = x ∧ (∀ j, j ≠ dl.index → dl'.data.read j = dl.data.read j) ∧
  dl' = { dl with data := dl'.data, index := (dl.index + 1) % dl.cap }

/-- What a read of a line gives (rule R184): the slot under the cursor, or its blend with the next slot. -/
def lineOutput (dl : DelayLine) : F32 :=
  let cur := dl.data.read dl.index
  let nxt := dl.data.read ((dl.index + 1) % dl.cap)
  if dl.interp then fadd (fmul cur (fsub one dl.frac)) (fmul nxt dl.frac) else cur

/-- The shaper after one sample, and its output (rule R233). -/
def ShaperFed (x : F32) (f f' : Shaper) (y : F32) : Prop :=
  let lp := f.lpCoeff.value
  let fg := f.floorGain.value
  let hp := f.hpCoeff.value
  let lowpassed := fadd (fmul x (fsub one lp)) (fmul f.lpState lp)
  let shaped := if f.clampEn then fadd (fmul lowpassed (fsub one fg)) (fmul x fg) else lowpassed
  let tracked := fadd (fmul shaped (fsub one hp)) (fmul f.hpState hp)
  f' = { f with lpState := lowpassed, hpState := tracked } ∧ y = fsub shaped tracked

/-- One section after one sample, and its output (rule R158). -/
def SectionFed (x : F32) (b b' : Biquad) (y : F32) : Prop :=
  y = fsub (fsub (fadd (fadd (fmul b.b0.value x) (fmul b.b1.value b.x1)) (fmul b.b2.value b.x2)) (fmul b.a1.value b.y1))
    (fmul b.a2.value b.y2) ∧
  b' = { b with x1 := x, x2 := b.x1, y1 := y, y2 := b.y1 }

/-- The first `n` sections after one sample, and the output of the last of them (rule R213): each is fed the output of the one
before it, in the order of the list; sections beyond are as before. -/
def CascadeFed : Nat → F32 → List Biquad → List Biquad → F32 → Prop
  | 0, x, bs, bs', y => bs' = bs ∧ y = x
  | _ + 1, x, [], bs', y => bs' = [] ∧ y = x
  | n + 1, x, b :: bs, bs', y => ∃ b' v rest, SectionFed x b b' v ∧ CascadeFed n v bs rest y ∧ bs' = b' :: rest

/-- The path after `path_put(p, v)` (rule R254), in each head-shadow model: what goes into the delay line is `v` itself, `v`
through the shaper, or `v` through the first `NSEC` sections; everything else of the path is as before. -/
def PathFed (P : Params) (hsm : HeadShadow) (v : F32) (p q : Path) : Prop :=
  match hsm with
  | .none => ∃ dl, LinePushed v p.cfb.dl dl ∧ q = { p with cfb := { p.cfb with dl := dl } }
  | .firstOrderShaper =>
    ∃ f y dl, ShaperFed v p.fos f y ∧ LinePushed y p.cfb.dl dl ∧ q = { fos := f, cfb := { p.cfb with dl := dl } }
  | .biquadCascade =>
    ∃ secs y dl, CascadeFed (nsec P) v p.cfb.sec secs y ∧ LinePushed y p.cfb.dl dl ∧
      q = { p with cfb := { sec := secs, dl := dl } }

/-- A line right after a resize to `d` slots (rule R186): every slot `+0`, the cursor at 0; its buffer in canonical form. -/
def FreshLine (d : Nat) (dl : DelayLine) : Prop :=
  dl.cap = d ∧ dl.index = 0 ∧ dl.data.wf = true ∧ ∀ j, j < d → dl.data.read j = posZero

/-! Runs of commands. -/

/-- Commands performed one after the other on `exec`, stopping at the first fault. -/
def runCommands : List Instr → State → Host.Outcome State Fault Refusal
  | [], s => .next s
  | i :: is, s =>
    match exec i s with
    | .next t => runCommands is t
    | .fault f => .fault f
    | .refused r => .refused r

/-- The steps of rule R186 on the stand-alone line: "`DL_GET`, then `DL_PUT x[n]`". -/
def getThenPut (xs : List F32) : List Instr := xs.flatMap fun x => [.dlGet, .dlPut x]

/-- As `getThenPut`, on the stand-alone bank (rule R215). -/
def bankGetThenPut (xs : List F32) : List Instr := xs.flatMap fun x => [.cfbGet, .cfbPut x]

/-- A signal delayed by `d` samples of silence, as long as it was (rule R186). -/
def delayed (d : Nat) (xs : List F32) : List F32 := (List.replicate d posZero ++ xs).take xs.length

/-- The outputs of the first `n` sections fed a signal, one sample after the other (rule R213's loop, rule R215's `h`). -/
def CascadeRun (n : Nat) : List Biquad → List F32 → List F32 → Prop
  | _, [], ys => ys = []
  | bs, x :: xs, ys => ∃ bs' y rest, CascadeFed n x bs bs' y ∧ CascadeRun n bs' xs rest ∧ ys = y :: rest

/-- The outputs of a section with coefficients `c` and history `x1, x2, y1, y2` fed a signal (rule R158). -/
def sectionRun (c : Coeffs) : F32 → F32 → F32 → F32 → List F32 → List F32
  | _, _, _, _, [] => []
  | x1, x2, y1, y2, x :: xs =>
    let y := biquadOutput c x x1 x2 y1 y2
    y :: sectionRun c x x1 y y1 xs

/-! Rounding, said without the algorithm (rule R121). -/

/-- `r` is the datum nearest to `num / den` units of `2^-149`, ties to even: no finite datum is nearer, and of two equally
near `r` is the one with an even fraction. -/
def NearestEven (num : Int) (den : Nat) (r : F32) : Prop :=
  isFinite r = true ∧ ∀ c : F32, isFinite c = true →
    |num - scaled r * den| ≤ |num - scaled c * den| ∧
    (|num - scaled r * den| = |num - scaled c * den| → scaled c ≠ scaled r → (fracField r).toNat % 2 = 0)

/-- The magnitude from which on a result rounds to an infinity, in units of `2^-149`: half a unit in the last place above the
largest finite datum (rule R121: "at least 2^128" after rounding). -/
def overflowAt : Nat := (2 ^ 25 - 1) * 2 ^ 252

/-- `r` is `num / den` units of `2^-149` rounded once (rule R121): nearest even below the overflow threshold, the infinity of
its sign from there on. -/
def RoundedOnce (num : Int) (den : Nat) (r : F32) : Prop :=
  (num.natAbs < overflowAt * den → NearestEven num den r) ∧
  (overflowAt * den ≤ num.natAbs → isInf r = true ∧ signBit r = decide (num < 0))

/-! The named properties a claim may assume of the OPEN functions (rules R127, R152). None is assumed by the model; the
properties `P_fun`, `P_nan`, `P_pow10_zero`, `P_exp_zero`, `P_range` and `P_bq_fun` hold by construction. -/

/-- `P_acc` (rule R127) of an implementation `f` of a real function `g`: where the true result is a normal binary32 number
`v`, `2^e <= |v| < 2^(e+1)`, the result is within `ulps` units in the last place `2^(e-23)` of it. -/
def PAcc (f : F32 → F32) (g : ℝ → ℝ) (ulps : Rat) : Prop :=
  ∀ (a : F32) (e : ℤ), isFinite a = true → -126 ≤ e → e ≤ 127 →
    (2 : ℝ) ^ e ≤ |g ((scaled a : ℝ) / 2 ^ 149)| → |g ((scaled a : ℝ) / 2 ^ 149)| < (2 : ℝ) ^ (e + 1) →
    isFinite (f a) = true ∧
    |(scaled (f a) : ℝ) / 2 ^ 149 - g ((scaled a : ℝ) / 2 ^ 149)| ≤ ulps * (2 : ℝ) ^ (e - 23)

/-- `P_acc` of the four functions, with `ACC_ULP`. -/
def ParamsAccurate (P : Params) : Prop :=
  PAcc (fSin P) Real.sin P.accUlp ∧ PAcc (fCos P) Real.cos P.accUlp ∧ PAcc (fExp P) Real.exp P.accUlp ∧
  PAcc (fPow10 P) (fun v => (10 : ℝ) ^ v) P.accUlp

/-- The cookbook in real arithmetic (rules R152 to R157): `b0, b1, b2, a1, a2` are the normalised coefficients of a kind. -/
def CookbookReal (shelf : ShelfKind) (kind : Kind) (freq rate q gainDb b0 b1 b2 a1 a2 : ℝ) : Prop :=
  ∃ cs alpha A B0 B1 B2 A0 A1 A2 : ℝ,
    cs = Real.cos (2 * Real.pi * freq / rate) ∧ alpha = Real.sin (2 * Real.pi * freq / rate) / (2 * q) ∧
    A = (10 : ℝ) ^ (gainDb / 40) ∧
    (match kind with
      | .lp => B0 = (1 - cs) / 2 ∧ B1 = 1 - cs ∧ B2 = (1 - cs) / 2 ∧ A0 = 1 + alpha ∧ A1 = -2 * cs ∧ A2 = 1 - alpha
      | .hp => B0 = (1 + cs) / 2 ∧ B1 = -(1 + cs) ∧ B2 = (1 + cs) / 2 ∧ A0 = 1 + alpha ∧ A1 = -2 * cs ∧ A2 = 1 - alpha
      | .pk => B0 = 1 + alpha * A ∧ B1 = -2 * cs ∧ B2 = 1 - alpha * A ∧ A0 = 1 + alpha / A ∧ A1 = -2 * cs ∧ A2 = 1 - alpha / A
      | .ap => B0 = 1 - alpha ∧ B1 = -2 * cs ∧ B2 = 1 + alpha ∧ A0 = 1 + alpha ∧ A1 = -2 * cs ∧ A2 = 1 - alpha
      | .sh =>
        match shelf with
        | .low =>
          B0 = A * ((A + 1) - (A - 1) * cs + 2 * Real.sqrt A * alpha) ∧ B1 = 2 * A * ((A - 1) - (A + 1) * cs) ∧
          B2 = A * ((A + 1) - (A - 1) * cs - 2 * Real.sqrt A * alpha) ∧
          A0 = (A + 1) + (A - 1) * cs + 2 * Real.sqrt A * alpha ∧ A1 = -2 * ((A - 1) + (A + 1) * cs) ∧
          A2 = (A + 1) + (A - 1) * cs - 2 * Real.sqrt A * alpha
        | .high =>
          B0 = A * ((A + 1) + (A - 1) * cs + 2 * Real.sqrt A * alpha) ∧ B1 = -2 * A * ((A - 1) + (A + 1) * cs) ∧
          B2 = A * ((A + 1) + (A - 1) * cs - 2 * Real.sqrt A * alpha) ∧
          A0 = (A + 1) - (A - 1) * cs + 2 * Real.sqrt A * alpha ∧ A1 = 2 * ((A - 1) - (A + 1) * cs) ∧
          A2 = (A + 1) - (A - 1) * cs - 2 * Real.sqrt A * alpha) ∧
    b0 * A0 = B0 ∧ b1 * A0 = B1 ∧ b2 * A0 = B2 ∧ a1 * A0 = A1 ∧ a2 * A0 = A2

/-- `P_bq_acc` (rule R152): inside the invariant each coefficient is within `BQ_TOL` of the real-arithmetic value. -/
def ParamsBqAccurate (P : Params) : Prop :=
  ∀ (kind : Kind) (freq rate q gainDb : F32) (b0 b1 b2 a1 a2 : ℝ),
    ValidTuning freq rate q → isFinite gainDb = true →
    CookbookReal P.shelfKind kind ((scaled freq : ℝ) / 2 ^ 149) ((scaled rate : ℝ) / 2 ^ 149) ((scaled q : ℝ) / 2 ^ 149)
      ((scaled gainDb : ℝ) / 2 ^ 149) b0 b1 b2 a1 a2 →
    let c := bqCoef P kind freq rate q gainDb
    let near (f : F32) (v : ℝ) : Prop := isFinite f = true ∧ |(scaled f : ℝ) / 2 ^ 149 - v| ≤ (P.bqTol : ℝ)
    near c.b0 b0 ∧ near c.b1 b1 ∧ near c.b2 b2 ∧ near c.a1 a1 ∧ near c.a2 a2

/-- `P_bq_stable` (rule R152), with a claim's own bound on `Q`, `eps` and number of samples: the impulse response of a freshly
reset, validly tuned section stays below `eps` from sample `bound` on. -/
def ParamsBqStable (P : Params) (maxQ eps : F32) (bound : Nat) : Prop :=
  ∀ (kind : Kind) (freq rate q gainDb : F32) (n : Nat),
    ValidTuning freq rate q → isFinite gainDb = true → scaled q ≤ scaled maxQ → bound ≤ n →
    ∀ y ∈ (sectionRun (bqCoef P kind freq rate q gainDb) posZero posZero posZero posZero
      (one :: List.replicate n posZero))[n]?, isFinite y = true ∧ magnitude y < magnitude eps

end Sys2Proof.Machine
end

