-- ==== Sys2Proof/Certificates/Slice0/Obligations.lean ====
section
/-! DEFINITION. The statements for the provers. Each docstring says which rule of the spec it formalises; OBLIGATIONS.json
lists them. `Config.params` is one opaque constant, so every statement holds for every choice of the OPEN parameters. -/

open Sys2Proof Sys2Proof.Machine

/-! Encoding. -/

/-- Decode and encode agree (rules R91 to R97, R105): every well-formed command, every operand, any words after it. -/
def Obligations.EncodedCommandDecodesToItself : Prop :=
  ∀ (i : Instr) (rest : List Word), i.wellFormed = true → decode i.port (encode i ++ rest) = .command i rest

/-- No two word sequences mean one command (rules R91 to R105): what decodes is what the command encodes to. -/
def Obligations.DecodedCommandIsWhatItsWordsEncode : Prop :=
  ∀ (p : PortId) (ws : List Word) (i : Instr) (rest : List Word), decode p ws = .command i rest →
    i.wellFormed = true ∧ i.port = p ∧ ws = encode i ++ rest

/-- The illegal headers are those of rule R103 (a) to (d), on the port `p` of rule R104. -/
def Obligations.IllegalHeadersAreTheFourCases : Prop :=
  ∀ (p : PortId) (h : Word), (∃ why, decodeHeader p h = .error why) ↔
    (∀ o, opcode o ≠ h.extractLsb' 24 8) ∨
    ∃ o, opcode o = h.extractLsb' 24 8 ∧
      (h.extractLsb' 0 24 &&& reservedMask o ≠ 0 ∨ (o = .xtcReconfigure ∧ h.extractLsb' 1 2 = 3) ∨ o.port ≠ p)

/-- The header word of each of the 19 commands, with the flags and counts of vector T-ENC1, decodes to the command rule R93 gives
its opcode to, with any payload. -/
def Obligations.HeadersOfTheVectorsDecode : Prop :=
  ∀ (a b c d : Word) (rest : List Word),
    decode .xtc (0x0100001D :: a :: b :: c :: d :: rest) =
      .command (.xtcReconfigure true .biquadCascade true true a b c d) rest ∧
    decode .xtc (0x02000002 :: a :: b :: c :: d :: rest) = .command (.xtcProcess [(a, b), (c, d)]) rest ∧
    decode .xtc (0x03000001 :: rest) = .command (.xtcSetBypass true) rest ∧
    decode .xtc (0x04000000 :: rest) = .command .xtcGetLatency rest ∧
    decode .bq (0x11000000 :: a :: b :: c :: rest) = .command (.bqSetLowpass a b c) rest ∧
    decode .bq (0x12000000 :: a :: b :: c :: rest) = .command (.bqSetHighpass a b c) rest ∧
    decode .bq (0x13000000 :: a :: b :: c :: d :: rest) = .command (.bqSetPeaking a b c d) rest ∧
    decode .bq (0x14000000 :: a :: b :: c :: d :: rest) = .command (.bqSetShelf a b c d) rest ∧
    decode .bq (0x15000000 :: a :: b :: c :: rest) = .command (.bqSetAllpass a b c) rest ∧
    decode .bq (0x16000000 :: a :: rest) = .command (.bqProcess a) rest ∧
    decode .dl (0x21000003 :: rest) = .command (.dlConfigure 3) rest ∧
    decode .dl (0x22000000 :: a :: rest) = .command (.dlConfigureFrac a) rest ∧
    decode .dl (0x23000000 :: a :: rest) = .command (.dlPut a) rest ∧
    decode .dl (0x24000000 :: rest) = .command .dlGet rest ∧
    decode .cfb (0x31000001 :: a :: b :: rest) = .command (.cfbConfigure true a b) rest ∧
    decode .cfb (0x32000000 :: a :: rest) = .command (.cfbPut a) rest ∧
    decode .cfb (0x33000000 :: rest) = .command .cfbGet rest ∧
    decode .fos (0x41000001 :: a :: rest) = .command (.fosConfigure true a) rest ∧
    decode .fos (0x42000000 :: a :: rest) = .command (.fosProcess a) rest

/-! Steps. -/

/-- A step runs the decoded command (rules R5, R68, R91): its words leave the port, the input is used up, and `exec` says the
rest. That a port with an illegal header pending has ended the run is another statement's (log 1). -/
def Obligations.StepRunsTheDecodedCommand : Prop :=
  ∀ (s : State) (p : PortId) (rest : List Input) (i : Instr) (ws : List Word), (∀ q, (s.port q).ill = false) →
    s.inputs = .command p :: rest → decode p (s.port p).cmd = .command i ws →
    step s = exec i ((s.setInputs rest).consume p ws)

/-- An illegal header (rules R103, R301 code 1, R305): the header is consumed, no payload word is, no response word is
produced, `ill` is 1, and no other state of the block changes; after it the run is over: while some `ill` flag is 1, every step
that does not take a reset is `FaultIllegal` with the headers of a port whose flag is 1. That the fault comes with the step
after, and the record, are the model's (log 1). -/
def Obligations.IllegalHeaderSetsIllAndEndsTheRun : Prop :=
  (∀ (s : State) (p : PortId) (rest : List Input) (h : Word) (ws : List Word) (why : IllegalHeader),
    (∀ q, (s.port q).ill = false) → s.inputs = .command p :: rest → (s.port p).cmd = h :: ws →
    decodeHeader p h = .error why →
    ∃ t, step s = .next t ∧ (t.port p).cmd = ws ∧ (t.port p).rsp = (s.port p).rsp ∧ (t.port p).ill = true ∧
      (t.port p).illHeaders = (s.port p).illHeaders ++ [h] ∧ (∀ q, SameUnit q s t) ∧
      (∀ q, q ≠ p → t.port q = s.port q) ∧ t.inputs = rest ∧
      ((∀ q l, rest ≠ .reset q :: l) → step t = .fault (.illegal (t.port p).illHeaders))) ∧
  ∀ (s : State) (p : PortId), (s.port p).ill = true → (∀ q l, s.inputs ≠ .reset q :: l) →
    ∃ q, (s.port q).ill = true ∧ step s = .fault (.illegal (s.port q).illHeaders)

/-- A command whose payload is not complete, or none at all, is waited for: nothing of the block changes. The model's choice
(log 4). -/
def Obligations.PortWaitsForACompleteCommand : Prop :=
  ∀ (s : State) (p : PortId) (rest : List Input), (∀ q, (s.port q).ill = false) → s.inputs = .command p :: rest →
    (decode p (s.port p).cmd = .incomplete ∨ (s.port p).cmd = []) → step s = .next (s.setInputs rest)

/-- Reset of an instance (rule R330): its unit as rule R50 has it, `ill` cleared, a partial command discarded, nothing of any
other instance changed. -/
def Obligations.ResetInputRestoresTheInstance : Prop :=
  ∀ (s : State) (p : PortId) (rest : List Input), s.inputs = .reset p :: rest →
    ∃ t, step s = .next t ∧ SameUnit p State.reset t ∧ (t.port p).ill = false ∧ (t.port p).rsp = (s.port p).rsp ∧
      (decode p (s.port p).cmd = .incomplete → (t.port p).cmd = []) ∧
      (∀ q, q ≠ p → SameUnit q s t ∧ t.port q = s.port q) ∧ t.inputs = rest

/-- The reset values of rule R50, row by row, of the top-level block and of every stand-alone instance. A register the
table gives as Unset has not been written; the word it holds meanwhile is the model's choice (log 2) and is not stated here. -/
def Obligations.ResetValuesAreThoseOfTheTable : Prop :=
  let s := State.reset
  let unset (r : Reg) : Prop := r.written = false
  let sectionReset (b : Biquad) : Prop :=
    unset b.a1 ∧ unset b.a2 ∧ unset b.b0 ∧ unset b.b1 ∧ unset b.b2 ∧
    b.x1 = 0x00000000 ∧ b.x2 = 0x00000000 ∧ b.y1 = 0x00000000 ∧ b.y2 = 0x00000000
  let lineReset (d : DelayLine) : Prop :=
    d.cap = 0 ∧ d.index = 0 ∧ d.data = [] ∧ d.interp = false ∧ unset d.delaySamples ∧ d.frac = 0x00000000
  let shaperReset (f : Shaper) : Prop :=
    f.lpState = 0x00000000 ∧ f.hpState = 0x00000000 ∧ unset f.lpCoeff ∧ unset f.hpCoeff ∧ unset f.floorGain ∧
    f.clampEn = false
  s.xtc.phase = .unconfigured ∧ s.xtc.bypass = false ∧ (∀ p, (s.port p).ill = false) ∧
  unset s.xtc.sampleRate ∧ unset s.xtc.delayUs ∧ unset s.xtc.decayDb ∧ unset s.xtc.centerDb ∧
  s.xtc.phantom = false ∧ s.xtc.hsm = .none ∧ s.xtc.interp = false ∧ s.xtc.cen = false ∧
  unset s.xtc.decayGain ∧ unset s.xtc.centerGain ∧ unset s.xtc.gainComp ∧
  (∀ b ∈ s.bq :: s.cfb.sec ++ s.xtc.pathA.cfb.sec ++ s.xtc.pathB.cfb.sec, sectionReset b) ∧
  (∀ d ∈ [s.dl, s.cfb.dl, s.xtc.pathA.cfb.dl, s.xtc.pathB.cfb.dl], lineReset d) ∧
  (∀ f ∈ [s.fos, s.xtc.pathA.fos, s.xtc.pathB.fos], shaperReset f)

/-! Frames of every command. -/

/-- A command touches its own instance only (rules R39, R104, R308): every other instance, its port, the words waiting, every
`ill` flag and the inputs are as before. A port's record of Unset reads (the model's, log 2) only grows, and only with a
processing command. -/
def Obligations.CommandTouchesOnlyItsInstance : Prop :=
  ∀ (i : Instr) (s t : State), exec i s = .next t →
    (∀ p, p ≠ i.port → SameUnit p s t ∧ t.port p = s.port p) ∧
    (t.port i.port).cmd = (s.port i.port).cmd ∧ (t.port i.port).ill = (s.port i.port).ill ∧
    (t.port i.port).illHeaders = (s.port i.port).illHeaders ∧ t.inputs = s.inputs ∧
    (∃ l, (t.port i.port).unsetReads = (s.port i.port).unsetReads ++ l) ∧
    (i.op ∉ [Op.bqProcess, .cfbPut, .fosProcess, .xtcProcess] →
      (t.port i.port).unsetReads = (s.port i.port).unsetReads)

/-- A command returns as many response words as the length table says (rule R105), and has as many payload words. -/
def Obligations.CommandLengthsAreThoseOfTheTable : Prop :=
  ∀ (i : Instr), (encode i).length = 1 + i.payloadWords ∧
    ∀ (s t : State), exec i s = .next t →
      ∃ ws, ws.length = i.responseWords ∧ (t.port i.port).rsp = (s.port i.port).rsp ++ ws

/-- Histories persist across configuration (rule R23): no command but `BQ_PROCESS`, `CFB_PUT` (its sections' `BQ_PROCESS`) and
`XTC_PROCESS` writes `x1, x2, y1, y2` of any section. -/
def Obligations.HistoriesArePersistent : Prop :=
  ∀ (i : Instr) (s t : State), exec i s = .next t → i.op ≠ .bqProcess → i.op ≠ .cfbPut → i.op ≠ .xtcProcess →
    SameHistory s.bq t.bq ∧ SameHistories s.cfb.sec t.cfb.sec ∧
    SameHistories s.xtc.pathA.cfb.sec t.xtc.pathA.cfb.sec ∧ SameHistories s.xtc.pathB.cfb.sec t.xtc.pathB.cfb.sec

/-- Shaper states persist across configuration (rule R30): only `FOS_PROCESS`, and `XTC_PROCESS` through it, writes them. -/
def Obligations.ShaperStatesArePersistent : Prop :=
  ∀ (i : Instr) (s t : State), exec i s = .next t → i.op ≠ .fosProcess → i.op ≠ .xtcProcess →
    SameShaperState s.fos t.fos ∧ SameShaperState s.xtc.pathA.fos t.xtc.pathA.fos ∧
    SameShaperState s.xtc.pathB.fos t.xtc.pathB.fos

/-! The BQ unit. -/

/-- `BQ_SET_LOWPASS`, `BQ_SET_HIGHPASS`, `BQ_SET_ALLPASS` complete on valid operands and write the five coefficients of
`bq_coef`, nothing else (rules R153, R154, R157). -/
def Obligations.ThreeOperandTuningWritesCoefficients : Prop :=
  ∀ (s : State) (freq rate q : F32), ValidTuning freq rate q →
    let coef (k : Kind) := bqCoef Config.params k freq rate q posZero
    let written (c : Coeffs) : State :=
      s.setBq { s.bq with a1 := .val c.a1, a2 := .val c.a2, b0 := .val c.b0, b1 := .val c.b1, b2 := .val c.b2 }
    exec (.bqSetLowpass freq rate q) s = .next (written (coef .lp)) ∧
    exec (.bqSetHighpass freq rate q) s = .next (written (coef .hp)) ∧
    exec (.bqSetAllpass freq rate q) s = .next (written (coef .ap))

/-- `BQ_SET_PEAKING`, `BQ_SET_SHELF` complete on valid operands and a finite gain and write the five coefficients of
`bq_coef`, nothing else (rules R155, R156). -/
def Obligations.FourOperandTuningWritesCoefficients : Prop :=
  ∀ (s : State) (freq rate q gainDb : F32), ValidTuning freq rate q → isFinite gainDb = true →
    let coef (k : Kind) := bqCoef Config.params k freq rate q gainDb
    let written (c : Coeffs) : State :=
      s.setBq { s.bq with a1 := .val c.a1, a2 := .val c.a2, b0 := .val c.b0, b1 := .val c.b1, b2 := .val c.b2 }
    exec (.bqSetPeaking freq rate q gainDb) s = .next (written (coef .pk)) ∧
    exec (.bqSetShelf freq rate q gainDb) s = .next (written (coef .sh))

/-- A tuning operation outside the invariant, or with a NaN or infinite operand, is `FaultConfig` (rules R151, R301). -/
def Obligations.TuningOutsideTheInvariantFaults : Prop :=
  ∀ (s : State) (freq rate q gainDb : F32),
    (¬ValidTuning freq rate q →
      (∃ x, exec (.bqSetLowpass freq rate q) s = .fault (.config .bqSetLowpass x)) ∧
      (∃ x, exec (.bqSetHighpass freq rate q) s = .fault (.config .bqSetHighpass x)) ∧
      (∃ x, exec (.bqSetAllpass freq rate q) s = .fault (.config .bqSetAllpass x))) ∧
    (¬(ValidTuning freq rate q ∧ isFinite gainDb = true) →
      (∃ x, exec (.bqSetPeaking freq rate q gainDb) s = .fault (.config .bqSetPeaking x)) ∧
      (∃ x, exec (.bqSetShelf freq rate q gainDb) s = .fault (.config .bqSetShelf x)))

/-- `BQ_PROCESS` on a tuned section completes: `y = b0·x + b1·x1 + b2·x2 − a1·y1 − a2·y2`, rounded term by term from left to
right, and the history shifts; the coefficients and all else are as before (rule R158). -/
def Obligations.BqProcessComputesTheDifferenceEquation : Prop :=
  ∀ (s : State) (x a1 a2 b0 b1 b2 : F32),
    s.bq.a1 = .val a1 → s.bq.a2 = .val a2 → s.bq.b0 = .val b0 → s.bq.b1 = .val b1 → s.bq.b2 = .val b2 →
    let y := fsub (fsub (fadd (fadd (fmul b0 x) (fmul b1 s.bq.x1)) (fmul b2 s.bq.x2)) (fmul a1 s.bq.y1)) (fmul a2 s.bq.y2)
    exec (.bqProcess x) s =
      .next ((s.setBq { s.bq with x1 := x, x2 := s.bq.x1, y1 := y, y2 := s.bq.y1 }).emit .bq [y])

/-- `BQ_PROCESS` on a section with an Unset coefficient: "computes with whatever the storage holds" (rule R301, code 3), by the
formula of rule R158, and the run is marked with every Unset coefficient read. That the command completes, what the storage holds
after reset, and the record are the model's (log 2). -/
def Obligations.BqProcessOnAnUntunedSectionMarksTheRun : Prop :=
  ∀ (s : State) (x : F32), ¬Tuned s.bq →
    ∃ b y t, SectionFed x s.bq b y ∧ exec (.bqProcess x) s = .next t ∧ t.bq = b ∧ t.bqPort.rsp = s.bqPort.rsp ++ [y] ∧
      t.bqPort.unsetReads ≠ [] ∧
      ∀ e ∈ [(RegName.bqB0, s.bq.b0), (.bqB1, s.bq.b1), (.bqB2, s.bq.b2), (.bqA1, s.bq.a1), (.bqA2, s.bq.a2)],
        e.2.written = false → e.1 ∈ t.bqPort.unsetReads

/-- Re-tuning under live history (rule R159): a tuning operation writes coefficients and never history; `BQ_PROCESS` writes
history and never coefficients; the next output is computed from the new coefficients and the old history. The spec marks this
rule as its own inference. -/
def Obligations.RetuningKeepsTheHistoryInPlace : Prop :=
  (∀ (i : Instr) (s t : State), i.op ∈ [Op.bqSetLowpass, .bqSetHighpass, .bqSetPeaking, .bqSetShelf, .bqSetAllpass] →
    exec i s = .next t → SameHistory s.bq t.bq ∧
      ∃ c : Coeffs, CoeffsWritten c s.bq t.bq ∧ ∀ x,
        let y := biquadOutput c x s.bq.x1 s.bq.x2 s.bq.y1 s.bq.y2
        exec (.bqProcess x) t =
          .next ((t.setBq { t.bq with x1 := x, x2 := s.bq.x1, y1 := y, y2 := s.bq.y1 }).emit .bq [y])) ∧
  (∀ (x : F32) (s t : State), exec (.bqProcess x) s = .next t →
    t.bq.a1 = s.bq.a1 ∧ t.bq.a2 = s.bq.a2 ∧ t.bq.b0 = s.bq.b0 ∧ t.bq.b1 = s.bq.b1 ∧ t.bq.b2 = s.bq.b2)

/-- A NaN in `y1` makes the next output NaN, whatever the input and the coefficients, and that output is the new `y1` (rules
R124, R158 corner case (b), R348). -/
def Obligations.NaNInY1MakesTheNextOutputNaN : Prop :=
  ∀ (s : State) (x : F32), isNaN s.bq.y1 = true →
    ∃ y t, exec (.bqProcess x) s = .next t ∧ isNaN y = true ∧ t.bq.y1 = y ∧ t.bqPort.rsp = s.bqPort.rsp ++ [y]

/-! The DL unit. -/

/-- `DL_CONFIGURE` with a length from 1 to `DL_MAX` completes (rules R181, R185), slot by slot; nothing but the line changes. -/
def Obligations.DlConfigureSetsAWholeSampleLine : Prop :=
  ∀ (s : State) (len : BitVec 24), 1 ≤ len.toNat → len.toNat ≤ dlMax Config.params →
    ∃ t, exec (.dlConfigure len) s = .next t ∧ t = s.setDl t.dl ∧ LineSet len.toNat false posZero posZero s.dl t.dl

/-- `DL_CONFIGURE` with length 0 is `FaultZeroLength`, above `DL_MAX` `FaultCapacity` (rules R96, R181, R301). -/
def Obligations.DlConfigureRejectsZeroAndTooLong : Prop :=
  ∀ (s : State) (len : BitVec 24), len.toNat = 0 ∨ dlMax Config.params < len.toNat →
    exec (.dlConfigure len) s = .fault (if len.toNat = 0 then .zeroLength 0 else .capacity len.toNat)

/-- `DL_CONFIGURE_FRAC` of `d` samples with ceiling `n` from 1 to `DL_MAX` completes (rules R129, R182, R185): capacity `n`,
fraction `n − d`. -/
def Obligations.DlConfigureFracSetsAFractionalLine : Prop :=
  ∀ (s : State) (d : F32) (n : Nat), isFinite d = true → 1 ≤ n → n ≤ dlMax Config.params →
    ((n : Int) - 1) * unitScale < scaled d → scaled d ≤ n * unitScale →
    ∃ t, exec (.dlConfigureFrac d) s = .next t ∧ t = s.setDl t.dl ∧ LineSet n true d (fsub (i2f n) d) s.dl t.dl

/-- The faults of `DL_CONFIGURE_FRAC` (rules R182, R301): a NaN or infinite request, a ceiling of 0 or less, a ceiling above
`DL_MAX`. -/
def Obligations.DlConfigureFracRejects : Prop :=
  ∀ (s : State) (d : F32),
    (isFinite d = false → exec (.dlConfigureFrac d) s = .fault (.config .dlConfigureFrac .delaySamples)) ∧
    ∀ n : Int, isFinite d = true → (n - 1) * unitScale < scaled d → scaled d ≤ n * unitScale →
      (n ≤ 0 → exec (.dlConfigureFrac d) s = .fault (.zeroLength n)) ∧
      ((dlMax Config.params : Int) < n → exec (.dlConfigureFrac d) s = .fault (.capacity n.toNat))

/-- `DL_PUT` (`op = 0x23`, one payload word) on a configured line completes: it stores one slot and advances the cursor;
every other slot and all else is as before. On a line never configured it is `FaultUnconfigured` (rule R183). The
premise that the buffer is in canonical form is part of the invariant every step keeps. -/
def Obligations.DlPutStoresOneSlotAndAdvances : Prop :=
  ∀ (s : State) (x : F32), encode (.dlPut x) = [0x23000000, x] ∧
    (s.dl.cap ≠ 0 → s.dl.data.wf = true → ∃ t, exec (.dlPut x) s = .next t ∧ t = s.setDl t.dl ∧ LinePushed x s.dl t.dl) ∧
    (s.dl.cap = 0 → exec (.dlPut x) s = .fault (.unconfigured .dlPut))

/-- `DL_GET` (`op = 0x24`, no payload) on a configured line completes and is a pure read: the slot under the cursor, or
its blend with the next slot; no state but the response changes. On a line never configured it is `FaultUnconfigured`
(rules R66, R184). -/
def Obligations.DlGetIsAPureRead : Prop :=
  ∀ (s : State),
    let cur := s.dl.data.read s.dl.index
    let nxt := s.dl.data.read ((s.dl.index + 1) % s.dl.cap)
    encode .dlGet = [0x24000000] ∧
    (s.dl.cap ≠ 0 → s.dl.interp = false → exec .dlGet s = .next (s.emit .dl [cur])) ∧
    (s.dl.cap ≠ 0 → s.dl.interp = true →
      exec .dlGet s = .next (s.emit .dl [fadd (fmul cur (fsub one s.dl.frac)) (fmul nxt s.dl.frac)])) ∧
    (s.dl.cap = 0 → exec .dlGet s = .fault (.unconfigured .dlGet))

/-- Use before configuration (rule R189): put and get on a line with `cap = 0` fault; only a configure command of its own unit
makes a line configured, and no command makes it unconfigured again. -/
def Obligations.OnlyAConfigureCommandConfiguresALine : Prop :=
  ∀ (s : State),
    (s.dl.cap = 0 → exec .dlGet s = .fault (.unconfigured .dlGet) ∧
      ∀ x, exec (.dlPut x) s = .fault (.unconfigured .dlPut)) ∧
    (s.cfb.dl.cap = 0 → exec .cfbGet s = .fault (.unconfigured .cfbGet) ∧
      ∀ x, exec (.cfbPut x) s = .fault (.unconfigured .cfbPut)) ∧
    ∀ (i : Instr) (t : State), exec i s = .next t →
      (s.dl.cap = 0 → t.dl.cap ≠ 0 → i.op = .dlConfigure ∨ i.op = .dlConfigureFrac) ∧
      (s.cfb.dl.cap = 0 → t.cfb.dl.cap ≠ 0 → i.op = .cfbConfigure) ∧
      (s.xtc.pathA.cfb.dl.cap = 0 → t.xtc.pathA.cfb.dl.cap ≠ 0 → i.op = .xtcReconfigure) ∧
      (s.xtc.pathB.cfb.dl.cap = 0 → t.xtc.pathB.cfb.dl.cap ≠ 0 → i.op = .xtcReconfigure) ∧
      (s.dl.cap ≠ 0 → t.dl.cap ≠ 0) ∧ (s.cfb.dl.cap ≠ 0 → t.cfb.dl.cap ≠ 0) ∧
      (s.xtc.pathA.cfb.dl.cap ≠ 0 → t.xtc.pathA.cfb.dl.cap ≠ 0) ∧
      (s.xtc.pathB.cfb.dl.cap ≠ 0 → t.xtc.pathB.cfb.dl.cap ≠ 0)

/-- The latency law (rule R186): on a freshly resized whole-sample line of capacity `D >= 1`, "get, then put `x[n]`" repeated
gives `g[n] = x[n - D]`, and `+0` before. The spec marks this law as its own inference. -/
def Obligations.WholeSampleLineDelaysByItsCapacity : Prop :=
  ∀ (s : State) (D : Nat) (xs : List F32), 1 ≤ D → FreshLine D s.dl → s.dl.interp = false →
    ∃ t, runCommands (getThenPut xs) s = .next t ∧ t.dlPort.rsp = s.dlPort.rsp ++ delayed D xs

/-- The interpolated latency law (rule R187): on a freshly resized fractional line of capacity `D >= 2`, `g[n]` is `x[n - D]`
weighted `1 - frac` plus `x[n - D + 1]` weighted `frac`, with `x[m] = +0` for `m < 0`. The spec marks this law as its own
inference. -/
def Obligations.FractionalLineBlendsTwoNeighbours : Prop :=
  ∀ (s : State) (D : Nat) (xs : List F32), 2 ≤ D → FreshLine D s.dl → s.dl.interp = true →
    ∃ t, runCommands (getThenPut xs) s = .next t ∧
      t.dlPort.rsp = s.dlPort.rsp ++
        List.zipWith (fun old new => fadd (fmul old (fsub one s.dl.frac)) (fmul new s.dl.frac))
          (delayed D xs) (delayed (D - 1) xs)

/-! The CFB unit. -/

/-- `CFB_CONFIGURE` completes for a valid delay, a rate the table is valid for and a capacity within `DL_MAX` (rule R212): the
line is set, every section is tuned from its entry, histories are kept, nothing else changes. -/
def Obligations.CfbConfigureSetsTheLineAndTunesTheSections : Prop :=
  ∀ (s : State) (interp : Bool) (delayUs rate : F32), isFinite delayUs = true → isFinite rate = true → 0 < scaled rate →
    ValidDelay delayUs rate → ValidTable Config.params rate →
    let d := fmul (fmul delayUs 0x358637BD) rate
    let r := delayRequest d interp
    r.len ≤ dlMax Config.params →
    ∃ t, exec (.cfbConfigure interp delayUs rate) s = .next t ∧ t = s.setCfb t.cfb ∧
      LineSet r.len interp d r.frac s.cfb.dl t.cfb.dl ∧ SectionsTuned Config.params rate s.cfb.sec t.cfb.sec

/-- The faults of `CFB_CONFIGURE` (rules R212, R301, R304). -/
def Obligations.CfbConfigureRejects : Prop :=
  ∀ (s : State) (interp : Bool) (delayUs rate : F32),
    let valid := isFinite delayUs = true ∧ isFinite rate = true ∧ 0 < scaled rate ∧ ValidDelay delayUs rate ∧
      ValidTable Config.params rate
    let r := delayRequest (fmul (fmul delayUs 0x358637BD) rate) interp
    (¬valid → ∃ x, exec (.cfbConfigure interp delayUs rate) s = .fault (.config .cfbConfigure x)) ∧
    (valid → dlMax Config.params < r.len → exec (.cfbConfigure interp delayUs rate) s = .fault (.capacity r.len))

/-- `CFB_PUT` on a configured and tuned bank completes (rule R213): the sample runs through the first `NSEC` sections in
order, and the result is put into the delay line; nothing else changes. -/
def Obligations.CfbPutRunsTheCascadeIntoTheLine : Prop :=
  ∀ (s : State) (x : F32), s.cfb.dl.cap ≠ 0 → s.cfb.dl.data.wf = true → BankTuned Config.params s.cfb.sec →
    ∃ secs v dl, CascadeFed (nsec Config.params) x s.cfb.sec secs v ∧ LinePushed v s.cfb.dl dl ∧
      exec (.cfbPut x) s = .next (s.setCfb { sec := secs, dl := dl })

/-- `CFB_PUT` before configuration (rules R189, R213, R301): on a line with `cap = 0` it is `FaultUnconfigured`. On a configured
line with an untuned section among the first `NSEC` it computes with what the registers hold and marks the run: that it completes,
and the record, are the model's (rule R301 code 3, log 2). -/
def Obligations.CfbPutBeforeConfigurationOrTuning : Prop :=
  ∀ (s : State) (x : F32),
    (s.cfb.dl.cap = 0 → exec (.cfbPut x) s = .fault (.unconfigured .cfbPut)) ∧
    (s.cfb.dl.cap ≠ 0 → s.cfb.dl.data.wf = true → (∃ b ∈ s.cfb.sec.take (nsec Config.params), ¬Tuned b) →
      ∃ secs v dl t, CascadeFed (nsec Config.params) x s.cfb.sec secs v ∧ LinePushed v s.cfb.dl dl ∧
        exec (.cfbPut x) s = .next t ∧ t.cfb = { sec := secs, dl := dl } ∧ t.cfbPort.rsp = s.cfbPort.rsp ∧
        t.cfbPort.unsetReads ≠ [])

/-- `CFB_GET` is `DL_GET` on the bank's line (rule R214): a pure read, `FaultUnconfigured` before configuration. -/
def Obligations.CfbGetReadsTheDelayLine : Prop :=
  ∀ (s : State),
    let cur := s.cfb.dl.data.read s.cfb.dl.index
    let nxt := s.cfb.dl.data.read ((s.cfb.dl.index + 1) % s.cfb.dl.cap)
    (s.cfb.dl.cap ≠ 0 → s.cfb.dl.interp = false → exec .cfbGet s = .next (s.emit .cfb [cur])) ∧
    (s.cfb.dl.cap ≠ 0 → s.cfb.dl.interp = true →
      exec .cfbGet s = .next (s.emit .cfb [fadd (fmul cur (fsub one s.cfb.dl.frac)) (fmul nxt s.cfb.dl.frac)])) ∧
    (s.cfb.dl.cap = 0 → exec .cfbGet s = .fault (.unconfigured .cfbGet))

/-- The bank delays what the cascade makes of its input (rule R215, for every signal): on a freshly resized whole-sample line
of capacity `D`, "get, then put" gives the cascade's outputs `D` steps late. The spec marks this law as its own inference. -/
def Obligations.BankDelaysTheCascadeOutput : Prop :=
  ∀ (s : State) (D : Nat) (xs : List F32), 1 ≤ D → FreshLine D s.cfb.dl → s.cfb.dl.interp = false →
    ∃ t ys, CascadeRun (nsec Config.params) s.cfb.sec xs ys ∧ runCommands (bankGetThenPut xs) s = .next t ∧
      t.cfbPort.rsp = s.cfbPort.rsp ++ delayed D ys

/-- The composition of `HS_TABLE` (rules R6, R211), for every choice of the parameters: 5 to 7 entries, exactly one
high-pass, exactly one low-pass, the rest peaking. -/
def Obligations.TableHasOneHighPassOneLowPass : Prop :=
  ∀ (P : Params), 5 ≤ nsec P ∧ nsec P ≤ 7 ∧ (hsTable P).length = nsec P ∧
    ((hsTable P).filter fun e => e.kind = .hp).length = 1 ∧ ((hsTable P).filter fun e => e.kind = .lp).length = 1 ∧
    ∀ e ∈ hsTable P, e.kind = .hp ∨ e.kind = .pk ∨ e.kind = .lp

/-! The FOS unit. -/

/-- `FOS_CONFIGURE` (`op = 0x41`, `clamp_en` in bit 0, one payload word) completes for a finite positive rate and writes
the four coefficient registers, nothing else; any other rate is `FaultConfig` (rule R232). -/
def Obligations.FosConfigureWritesTheCoefficients : Prop :=
  ∀ (s : State) (clampEn : Bool) (rate : F32),
    let P := Config.params
    encode (.fosConfigure clampEn rate) = [if clampEn then 0x41000001 else 0x41000000, rate] ∧
    (isFinite rate = true → 0 < scaled rate →
      exec (.fosConfigure clampEn rate) s = .next (s.setFos { s.fos with
        lpCoeff := .val (fExp P (fdiv (fmul (fneg twoPi32) (fLp P)) rate))
        hpCoeff := .val (fExp P (fdiv (fmul (fneg twoPi32) (fHp P)) rate))
        floorGain := .val (fPow10 P (fdiv (limitDb P) twenty))
        clampEn := clampEn })) ∧
    (isFinite rate = false ∨ scaled rate ≤ 0 →
      exec (.fosConfigure clampEn rate) s = .fault (.config .fosConfigure .rate))

/-- `FOS_PROCESS` on a configured shaper completes (rule R233): low-pass, clamp where `clamp_en` says so, input minus low-pass
of input; only the two states change. -/
def Obligations.FosProcessShapesTheSample : Prop :=
  ∀ (s : State) (x lp hp fg : F32), s.fos.lpCoeff = .val lp → s.fos.hpCoeff = .val hp →
    (s.fos.clampEn = true → s.fos.floorGain = .val fg) →
    let lowpassed := fadd (fmul x (fsub one lp)) (fmul s.fos.lpState lp)
    let shaped :=
      if s.fos.clampEn = true then fadd (fmul lowpassed (fsub one fg)) (fmul x fg) else lowpassed
    let tracked := fadd (fmul shaped (fsub one hp)) (fmul s.fos.hpState hp)
    exec (.fosProcess x) s =
      .next ((s.setFos { s.fos with lpState := lowpassed, hpState := tracked }).emit .fos [fsub shaped tracked])

/-- `FOS_PROCESS` with an Unset coefficient it reads: "computes with whatever the storage holds" (rule R301, code 3), by the
recurrence of rule R233, and the run is marked with every Unset coefficient read. That the command completes, what the storage
holds after reset, and the record are the model's (log 2). -/
def Obligations.FosProcessBeforeConfigureMarksTheRun : Prop :=
  ∀ (s : State) (x : F32),
    s.fos.lpCoeff.written = false ∨ s.fos.hpCoeff.written = false ∨
      (s.fos.clampEn = true ∧ s.fos.floorGain.written = false) →
    ∃ f y t, ShaperFed x s.fos f y ∧ exec (.fosProcess x) s = .next t ∧ t.fos = f ∧
      t.fosPort.rsp = s.fosPort.rsp ++ [y] ∧ t.fosPort.unsetReads ≠ [] ∧
      (s.fos.lpCoeff.written = false → RegName.fosLpCoeff ∈ t.fosPort.unsetReads) ∧
      (s.fos.hpCoeff.written = false → RegName.fosHpCoeff ∈ t.fosPort.unsetReads) ∧
      (s.fos.clampEn = true → s.fos.floorGain.written = false → RegName.fosFloorGain ∈ t.fosPort.unsetReads)

/-! The XTC unit. -/

/-- `XTC_RECONFIGURE` completes for a valid configuration whose capacity is within `DL_MAX` (rules R252, R253): the
configuration registers, both delay lines, the selected head-shadow model of both paths, the gains and the state; histories,
the unselected models, `bypass` and all other instances are as before. -/
def Obligations.ReconfigureAppliesTheConfiguration : Prop :=
  ∀ (s : State) (phantom : Bool) (hsm : HeadShadow) (interp cen : Bool) (rate delayUs decayDb centerDb : F32),
    let P := Config.params
    let d := fmul (fmul delayUs 0x358637BD) rate
    let r := delayRequest d interp
    let gain (db : F32) := fPow10 P (fdiv db twenty)
    let tuned (p q : Path) : Prop :=
      LineSet r.len interp d r.frac p.cfb.dl q.cfb.dl ∧
      (hsm = .biquadCascade → SectionsTuned P rate p.cfb.sec q.cfb.sec) ∧
      (hsm ≠ .biquadCascade → q.cfb.sec = p.cfb.sec) ∧
      (hsm = .firstOrderShaper → q.fos = { p.fos with
        lpCoeff := .val (fExp P (fdiv (fmul (fneg twoPi32) (fLp P)) rate))
        hpCoeff := .val (fExp P (fdiv (fmul (fneg twoPi32) (fHp P)) rate))
        floorGain := .val (gain (limitDb P))
        clampEn := P.fosClamp }) ∧
      (hsm ≠ .firstOrderShaper → q.fos = p.fos)
    ValidConfig P hsm rate delayUs decayDb centerDb → r.len ≤ dlMax P →
    ∃ pathA pathB, tuned s.xtc.pathA pathA ∧ tuned s.xtc.pathB pathB ∧
      exec (.xtcReconfigure phantom hsm interp cen rate delayUs decayDb centerDb) s = .next (s.setXtc
        { sampleRate := .val rate, delayUs := .val delayUs, decayDb := .val decayDb, centerDb := .val centerDb
          phantom := phantom, hsm := hsm, interp := interp, cen := cen
          decayGain := .val (gain decayDb), centerGain := .val (gain centerDb)
          gainComp := .val (fdiv one (fadd one (gain centerDb)))
          phase := .ready, bypass := s.xtc.bypass, pathA := pathA, pathB := pathB })

/-- The faults of `XTC_RECONFIGURE` (rules R252, R253, R301, R304). -/
def Obligations.ReconfigureRejects : Prop :=
  ∀ (s : State) (phantom : Bool) (hsm : HeadShadow) (interp cen : Bool) (rate delayUs decayDb centerDb : F32),
    let P := Config.params
    let i := Instr.xtcReconfigure phantom hsm interp cen rate delayUs decayDb centerDb
    let r := delayRequest (fmul (fmul delayUs 0x358637BD) rate) interp
    (¬ValidConfig P hsm rate delayUs decayDb centerDb → ∃ x, exec i s = .fault (.config .xtcReconfigure x)) ∧
    (ValidConfig P hsm rate delayUs decayDb centerDb → dlMax P < r.len → exec i s = .fault (.capacity r.len))

/-- Idempotence (rule R263): the same `XTC_RECONFIGURE` a second time leaves exactly the state after the first.
The spec marks this law as its own inference. -/
def Obligations.ReconfigureIsIdempotent : Prop :=
  ∀ (s t : State) (phantom : Bool) (hsm : HeadShadow) (interp cen : Bool) (rate delayUs decayDb centerDb : F32),
    let i := Instr.xtcReconfigure phantom hsm interp cen rate delayUs decayDb centerDb
    exec i s = .next t → exec i t = .next t

/-- The gains at 0 dB (rules R132, R252 corner case (c), by `P_pow10_zero`): `center_db = 0` gives `center_gain = 1.0` and
`gain_comp = 0.5`; `decay_db = 0` gives `decay_gain = 1.0`; for zeros of either sign. -/
def Obligations.ZeroDecibelsGiveUnitGains : Prop :=
  ∀ (s t : State) (phantom : Bool) (hsm : HeadShadow) (interp cen : Bool) (rate delayUs decayDb centerDb : F32),
    exec (.xtcReconfigure phantom hsm interp cen rate delayUs decayDb centerDb) s = .next t →
    (isZero centerDb = true → t.xtc.centerGain = .val 0x3F800000 ∧ t.xtc.gainComp = .val 0x3F000000) ∧
    (isZero decayDb = true → t.xtc.decayGain = .val 0x3F800000)

/-- Bypass (rule R260): with `bypass = 1`, `XTC_PROCESS` returns every payload word unchanged and reads and writes no other
state, in every state. -/
def Obligations.BypassIsAPureCopy : Prop :=
  ∀ (s : State) (pairs : List (F32 × F32)), s.xtc.bypass = true →
    exec (.xtcProcess pairs) s = .next (s.emit .xtc (pairs.flatMap fun p => [p.1, p.2]))

/-- `XTC_PROCESS` without bypass in `Unconfigured` is `FaultUnconfigured`, an empty block included (rules R251, R255). -/
def Obligations.ProcessBeforeReconfigureFaults : Prop :=
  ∀ (s : State) (pairs : List (F32 × F32)), s.xtc.bypass = false → s.xtc.phase = .unconfigured →
    exec (.xtcProcess pairs) s = .fault (.unconfigured .xtcProcess)

/-- In Ready a block never faults (rule R256: "none can occur in state Ready"): in every state that meets the invariant, with
either bypass, `XTC_PROCESS` completes, reads no Unset register, and the block is Ready again. The spec marks this sentence as
its own inference. -/
def Obligations.ProcessNeverFaultsInReady : Prop :=
  ∀ (s : State) (pairs : List (F32 × F32)), StateOk Config.params s → s.xtc.phase = .ready →
    ∃ t, exec (.xtcProcess pairs) s = .next t ∧ t.xtc.phase = .ready ∧ t.xtcPort.unsetReads = []

/-- One sample pair in general mode, in every head-shadow model (rules R254, R256, R257, `FB_TAP = PRE` of rule R258): both
cross reads, the cancellation, the optional reinforcement, both pushes; nothing else changes but the state, which is Ready. -/
def Obligations.GeneralSampleCancelsTheOppositeChannel : Prop :=
  ∀ (s : State) (l r g cg gc : F32), s.xtc.bypass = false → s.xtc.phase ≠ .unconfigured → s.xtc.phantom = false →
    ModelTuned Config.params s.xtc.hsm s.xtc.pathA → ModelTuned Config.params s.xtc.hsm s.xtc.pathB →
    s.xtc.pathA.cfb.dl.cap ≠ 0 → s.xtc.pathB.cfb.dl.cap ≠ 0 →
    s.xtc.pathA.cfb.dl.data.wf = true → s.xtc.pathB.cfb.dl.data.wf = true →
    s.xtc.decayGain = .val g → (s.xtc.cen = true → s.xtc.centerGain = .val cg ∧ s.xtc.gainComp = .val gc) →
    let crossToLeft := lineOutput s.xtc.pathB.cfb.dl
    let crossToRight := lineOutput s.xtc.pathA.cfb.dl
    let leftOut := fsub l (fmul g crossToLeft)
    let rightOut := fsub r (fmul g crossToRight)
    let cc := fmul cg (fmul (fadd l r) 0x3F000000)
    let out := if s.xtc.cen = true then [fmul (fadd leftOut cc) gc, fmul (fadd rightOut cc) gc] else [leftOut, rightOut]
    ∃ pathA pathB, PathFed Config.params s.xtc.hsm leftOut s.xtc.pathA pathA ∧
      PathFed Config.params s.xtc.hsm rightOut s.xtc.pathB pathB ∧
      exec (.xtcProcess [(l, r)]) s =
        .next ((s.setXtc { s.xtc with phase := .ready, pathA := pathA, pathB := pathB }).emit .xtc out)

/-- One sample pair in phantom-centre-only mode, in every head-shadow model (rules R254, R259): the mid signal is cancelled
through path A; path B is neither read nor written, and there is no reinforcement. -/
def Obligations.PhantomSampleCancelsTheMidSignal : Prop :=
  ∀ (s : State) (l r g : F32), s.xtc.bypass = false → s.xtc.phase ≠ .unconfigured → s.xtc.phantom = true →
    ModelTuned Config.params s.xtc.hsm s.xtc.pathA → s.xtc.pathA.cfb.dl.cap ≠ 0 →
    s.xtc.pathA.cfb.dl.data.wf = true → s.xtc.decayGain = .val g →
    let side := fsub l r
    let mid2 := fsub (fadd l r) (fmul g (lineOutput s.xtc.pathA.cfb.dl))
    ∃ pathA, PathFed Config.params s.xtc.hsm mid2 s.xtc.pathA pathA ∧
      exec (.xtcProcess [(l, r)]) s = .next ((s.setXtc { s.xtc with phase := .ready, pathA := pathA }).emit .xtc
        [fmul (fadd mid2 side) 0x3F000000, fmul (fsub mid2 side) 0x3F000000])

/-- A block is a left fold of the per-sample step (rule R255): an empty block outside Unconfigured changes nothing but the
state, which is Ready, and a block may be cut in two anywhere, with no command between the pieces: the same outputs, the same
final state, the same fault where there is one. The spec marks the cut as its own inference. -/
def Obligations.BlocksMayBeCutAnywhere : Prop :=
  ∀ (s : State) (ps qs : List (F32 × F32)),
    (s.xtc.bypass = false → s.xtc.phase ≠ .unconfigured →
      exec (.xtcProcess []) s = .next (s.setXtc { s.xtc with phase := .ready })) ∧
    exec (.xtcProcess (ps ++ qs)) s = runCommands [.xtcProcess ps, .xtcProcess qs] s

/-- `XTC_SET_BYPASS` (`op = 0x03`, `b` in bit 0, no payload) writes `bypass` and nothing else, in every state (rule
R261). -/
def Obligations.SetBypassWritesTheFlag : Prop :=
  ∀ (s : State) (b : Bool), encode (.xtcSetBypass b) = [if b then 0x03000001 else 0x03000000] ∧
    exec (.xtcSetBypass b) s = .next (s.setXtc { s.xtc with bypass := b })

/-- `XTC_GET_LATENCY` (`op = 0x04`, no payload) returns `+0.0` whatever the configured delay, and changes nothing, in
every state (rule R262). -/
def Obligations.LatencyIsAlwaysZero : Prop :=
  encode .xtcGetLatency = [0x04000000] ∧ ∀ (s : State), exec .xtcGetLatency s = .next (s.emit .xtc [0x00000000])

/-- The state machine (rules R34, R251), over all commands: reconfigure enters Ready; a block without bypass is processed only
outside Unconfigured and ends in Ready; every other command, and a bypassed block, leaves the state; only `XTC_SET_BYPASS`
writes `bypass`. -/
def Obligations.CommandsMoveTheStateMachineAsTheTableSays : Prop :=
  ∀ (i : Instr) (s t : State), exec i s = .next t →
    (i.op = .xtcReconfigure → t.xtc.phase = .ready) ∧
    (i.op = .xtcProcess → s.xtc.bypass = false → s.xtc.phase ≠ .unconfigured ∧ t.xtc.phase = .ready) ∧
    (i.op = .xtcProcess → s.xtc.bypass = true → t.xtc.phase = s.xtc.phase) ∧
    (i.op ≠ .xtcReconfigure → i.op ≠ .xtcProcess → t.xtc.phase = s.xtc.phase) ∧
    (i.op ≠ .xtcSetBypass → t.xtc.bypass = s.xtc.bypass)

/-- No self-cancellation on silent lines (rule R256 corner case (a)): in general mode without reinforcement, with both cross
samples `+0` and a finite gain that is not negative, a sample pair that is not NaN passes exactly, for every head-shadow
model the invariant holds tuned. -/
def Obligations.SilentLinesPassTheSampleExactly : Prop :=
  ∀ (s : State) (l r g : F32), StateOk Config.params s → s.xtc.bypass = false → s.xtc.phase = .ready →
    s.xtc.phantom = false → s.xtc.cen = false → s.xtc.decayGain = .val g → isFinite g = true → signBit g = false →
    lineOutput s.xtc.pathA.cfb.dl = posZero → lineOutput s.xtc.pathB.cfb.dl = posZero →
    isNaN l = false → isNaN r = false →
    ∃ t, exec (.xtcProcess [(l, r)]) s = .next t ∧ t.xtcPort.rsp = s.xtcPort.rsp ++ [l, r]

/-- The cancellation scenario (rule R266 with no head-shadow model, up to sample `D`): an impulse on the left channel leaves
the left output as it is and appears on the right output exactly `D` samples later, as minus the decay gain. The spec marks this law as
its own inference. -/
def Obligations.ImpulseAppearsNegatedOnTheRightAfterTheDelay : Prop :=
  ∀ (s : State) (D : Nat) (g : F32), 1 ≤ D → s.xtc.bypass = false → s.xtc.phase = .ready → s.xtc.phantom = false →
    s.xtc.cen = false → s.xtc.hsm = .none → s.xtc.decayGain = .val g → isFinite g = true → 0 < scaled g →
    FreshLine D s.xtc.pathA.cfb.dl → FreshLine D s.xtc.pathB.cfb.dl →
    s.xtc.pathA.cfb.dl.interp = false → s.xtc.pathB.cfb.dl.interp = false →
    ∃ t, exec (.xtcProcess ((one, posZero) :: List.replicate D (posZero, posZero))) s = .next t ∧
      t.xtcPort.rsp = s.xtcPort.rsp ++
        interleave ((one, posZero) :: List.replicate (D - 1) (posZero, posZero) ++ [(posZero, fneg g)])

/-! The invariant. -/

/-- The reset state meets the invariant (rule R50). -/
def Obligations.ResetMeetsTheInvariant : Prop := StateOk Config.params State.reset

/-- Every step keeps the invariant (rules R21, R25 to R28, R34, R60 to R62, R252): from every state that meets it, whatever the
step does (a command, an illegal header, a reset, a wait), the next state meets it. -/
def Obligations.EveryStepKeepsTheInvariant : Prop :=
  ∀ (s t : State), StateOk Config.params s → step s = .next t → StateOk Config.params t

/-! Arithmetic. -/

/-- `fadd`, `fsub`, `fmul` and `fdiv` on finite operands are the exact result rounded once, ties to even, overflow to the
infinity of its sign, subnormals kept (rules R121, R123); an exact sum or difference of zero is `+0` but for two zeros that are
both negative as added, and a product or quotient has the sign of its operands' signs, zeros included ("Signed zeros follow IEEE
754", rule R126). -/
def Obligations.ArithmeticIsRoundedOnce : Prop :=
  ∀ (a b : F32), isFinite a = true → isFinite b = true →
    RoundedOnce (scaled a + scaled b) 1 (fadd a b) ∧ RoundedOnce (scaled a - scaled b) 1 (fsub a b) ∧
    RoundedOnce (scaled a * scaled b) unitScale (fmul a b) ∧
    (isZero b = false →
      RoundedOnce (scaled a * unitScale * (scaled b).sign) (magnitude b) (fdiv a b)) ∧
    (scaled a + scaled b = 0 → fadd a b = if a = 0x80000000 ∧ b = 0x80000000 then 0x80000000 else 0x00000000) ∧
    (scaled a - scaled b = 0 → fsub a b = if a = 0x80000000 ∧ b = 0x00000000 then 0x80000000 else 0x00000000) ∧
    signBit (fmul a b) = (signBit a != signBit b) ∧
    (isZero b = false → signBit (fdiv a b) = (signBit a != signBit b))

/-- Infinities and NaN (rule R124): the valid operations with an infinite operand, and a division by zero, "follow IEEE 754";
the invalid ones, and every operation with a NaN operand, give a quiet NaN. -/
def Obligations.InfinitiesAndInvalidOperationsFollowIeee : Prop :=
  ∀ (a b : F32),
    let inf (neg : Bool) : F32 := if neg then 0xFF800000 else 0x7F800000
    let zero (neg : Bool) : F32 := if neg then 0x80000000 else 0x00000000
    let neg := signBit a != signBit b
    (isNaN a = true ∨ isNaN b = true → isQuietNaN (fadd a b) = true ∧ isQuietNaN (fsub a b) = true ∧
      isQuietNaN (fmul a b) = true ∧ isQuietNaN (fdiv a b) = true) ∧
    (isInf a = true → isInf b = true →
      (neg = false → fadd a b = a) ∧ (neg = true → isQuietNaN (fadd a b) = true) ∧
      (neg = true → fsub a b = a) ∧ (neg = false → isQuietNaN (fsub a b) = true) ∧
      fmul a b = inf neg ∧ isQuietNaN (fdiv a b) = true) ∧
    (isInf a = true → isFinite b = true →
      fadd a b = a ∧ fadd b a = a ∧ fsub a b = a ∧ fsub b a = inf (!signBit a) ∧
      (isZero b = false → fmul a b = inf neg ∧ fmul b a = inf neg) ∧
      (isZero b = true → isQuietNaN (fmul a b) = true ∧ isQuietNaN (fmul b a) = true) ∧
      fdiv a b = inf neg ∧ fdiv b a = zero neg) ∧
    (isFinite a = true → isZero b = true →
      (isZero a = false → fdiv a b = inf neg) ∧ (isZero a = true → isQuietNaN (fdiv a b) = true))

/-- `i2f(n)` is exact for `n < 2^24` (rules R9, R126; the spec marks R126 as its own inference). -/
def Obligations.SmallIntegersConvertExactly : Prop :=
  ∀ (n : Nat), n < 2 ^ 24 → isFinite (i2f n) = true ∧ scaled (i2f n) = n * unitScale

/-- The capacity request (rules R128, R129, R131): at least one slot; without interpolation the nearest whole number, ties
upwards, clamped to 1; with it the ceiling, clamped to 1, with the fraction `i2f(n) - d` rounded once, from 0 to 1.0 (a bound the
spec marks as its own inference). -/
def Obligations.CapacityRequestRoundsAndClamps : Prop :=
  ∀ (d : F32), isFinite d = true → 0 ≤ scaled d →
    let w := delayRequest d false
    let f := delayRequest d true
    1 ≤ w.len ∧ w.frac = posZero ∧ ((unitScale : Int) ≤ 2 * scaled d →
      2 * scaled d < (2 * w.len + 1) * unitScale ∧ (2 * (w.len : Int) - 1) * unitScale ≤ 2 * scaled d) ∧
    (2 * scaled d < unitScale → w.len = 1) ∧
    1 ≤ f.len ∧ (0 < scaled d → ((f.len : Int) - 1) * unitScale < scaled d ∧ scaled d ≤ f.len * unitScale ∧
      f.frac = fsub (i2f f.len) d) ∧
    (scaled d = 0 → f.len = 1 ∧ f.frac = posZero) ∧
    (f.len < 2 ^ 24 → isFinite f.frac = true ∧ 0 ≤ scaled f.frac ∧ scaled f.frac ≤ unitScale)
end

