-- ==== Sys2Proof/Laws/Numerics.lean ====
section
/-! SUPPORT. Binary32 arithmetic: a datum as its sign and 31 low bits, rounding to nearest even (rule R121), what survives
exactly (rule R126), and NaN (rule R124). -/

namespace Sys2Proof.Machine

/-! Fields. -/

/-- The 31 bits below the sign. -/
def lowBits (a : F32) : Nat := a.toNat % 2 ^ 31

/-- The magnitude that 31 bits stand for. -/
def magBits (b : Nat) : Nat := if b / 2 ^ 23 = 0 then b else (2 ^ 23 + b % 2 ^ 23) * 2 ^ (b / 2 ^ 23 - 1)

theorem lowBits_lt (a : F32) : lowBits a < 2 ^ 31 := Nat.mod_lt _ (by norm_num)

theorem expField_toNat (a : F32) : (expField a).toNat = lowBits a / 2 ^ 23 := by
  have := a.isLt
  simp only [expField, lowBits, BitVec.extractLsb'_toNat, Nat.shiftRight_eq_div_pow]
  omega

theorem fracField_toNat (a : F32) : (fracField a).toNat = lowBits a % 2 ^ 23 := by
  have := a.isLt
  simp only [fracField, lowBits, BitVec.extractLsb'_toNat, Nat.shiftRight_eq_div_pow]
  omega

theorem signBit_eq (a : F32) : signBit a = decide (2 ^ 31 ≤ a.toNat) := by
  have := a.isLt
  simp only [signBit, BitVec.getLsbD, Nat.testBit_eq_decide_div_mod_eq]
  rw [decide_eq_decide]; omega

theorem toNat_eq (a : F32) : a.toNat = (if signBit a then 2 ^ 31 else 0) + lowBits a := by
  have := a.isLt
  simp only [signBit_eq, lowBits, decide_eq_true_eq]
  split <;> omega

theorem isFinite_iff (a : F32) : isFinite a = true ↔ lowBits a < infBits := by
  have h := lowBits_lt a
  have : expField a = 255 ↔ (expField a).toNat = 255 := by rw [← BitVec.toNat_inj]; rfl
  simp only [isFinite, bne_iff_ne, ne_eq, this, expField_toNat, infBits]
  omega

theorem isInf_iff (a : F32) : isInf a = true ↔ lowBits a = infBits := by
  have h := lowBits_lt a
  have : expField a = 255 ↔ (expField a).toNat = 255 := by rw [← BitVec.toNat_inj]; rfl
  have : fracField a = 0 ↔ (fracField a).toNat = 0 := by rw [← BitVec.toNat_inj]; rfl
  simp only [isInf, Bool.and_eq_true, beq_iff_eq, *, fracField_toNat, expField_toNat, infBits]
  omega

theorem isNaN_iff (a : F32) : isNaN a = true ↔ infBits < lowBits a := by
  have h := lowBits_lt a
  have : expField a = 255 ↔ (expField a).toNat = 255 := by rw [← BitVec.toNat_inj]; rfl
  have : fracField a = 0 ↔ (fracField a).toNat = 0 := by rw [← BitVec.toNat_inj]; rfl
  simp only [isNaN, Bool.and_eq_true, beq_iff_eq, bne_iff_ne, ne_eq, *, fracField_toNat, expField_toNat, infBits]
  omega

theorem isZero_iff (a : F32) : isZero a = true ↔ lowBits a = 0 := by
  have h := lowBits_lt a
  have : expField a = 0 ↔ (expField a).toNat = 0 := by rw [← BitVec.toNat_inj]; rfl
  have : fracField a = 0 ↔ (fracField a).toNat = 0 := by rw [← BitVec.toNat_inj]; rfl
  simp only [isZero, Bool.and_eq_true, beq_iff_eq, *, fracField_toNat, expField_toNat]
  omega

theorem magnitude_eq (a : F32) : magnitude a = magBits (lowBits a) := by
  have : expField a = 0 ↔ (expField a).toNat = 0 := by rw [← BitVec.toNat_inj]; rfl
  simp only [magnitude, magBits, this, fracField_toNat, expField_toNat]
  split
  · rename_i h; rw [Nat.mod_eq_of_lt]; omega
  · rfl

theorem pack_toNat (neg : Bool) {b : Nat} (hb : b < 2 ^ 31) : (pack neg b).toNat = (if neg then 2 ^ 31 else 0) + b := by
  have h : (BitVec.ofNat 31 b).toNat = b := by rw [BitVec.toNat_ofNat]; exact Nat.mod_eq_of_lt hb
  rw [pack, BitVec.toNat_append, h, ← Nat.shiftLeft_add_eq_or_of_lt hb]
  cases neg <;> simp

theorem lowBits_pack (neg : Bool) {b : Nat} (hb : b < 2 ^ 31) : lowBits (pack neg b) = b := by
  rw [lowBits, pack_toNat neg hb]; cases neg
  · simp; omega
  · simp; omega

theorem signBit_pack (neg : Bool) {b : Nat} (hb : b < 2 ^ 31) : signBit (pack neg b) = neg := by
  rw [signBit_eq, pack_toNat neg hb]; cases neg
  · simp; omega
  · simp

theorem pack_fields (a : F32) : pack (signBit a) (lowBits a) = a := by
  rw [← BitVec.toNat_inj, pack_toNat _ (lowBits_lt a), ← toNat_eq]

theorem ext_fields {a b : F32} (hs : signBit a = signBit b) (hl : lowBits a = lowBits b) : a = b := by
  rw [← pack_fields a, ← pack_fields b, hs, hl]

theorem magBits_norm {s k : Nat} (h : k ≤ 2 ^ 24) (hs : s = 0 ∨ 2 ^ 23 ≤ k) : magBits (s * 2 ^ 23 + k) = k * 2 ^ s := by
  unfold magBits
  rcases Nat.lt_or_ge k (2 ^ 23) with hk | hk
  · obtain rfl : s = 0 := by omega
    rw [if_pos (by omega), zero_mul, zero_add, pow_zero, mul_one]
  · rcases Nat.lt_or_ge k (2 ^ 24) with hk2 | hk2
    · have h1 : (s * 2 ^ 23 + k) / 2 ^ 23 = s + 1 := by omega
      have h2 : (s * 2 ^ 23 + k) % 2 ^ 23 = k - 2 ^ 23 := by omega
      have h3 : 2 ^ 23 + (k - 2 ^ 23) = k := by omega
      rw [h1, h2, h3, if_neg (by omega), Nat.add_sub_cancel]
    · obtain rfl : k = 2 ^ 24 := by omega
      have h1 : (s * 2 ^ 23 + 2 ^ 24) / 2 ^ 23 = s + 2 := by omega
      have h2 : (s * 2 ^ 23 + 2 ^ 24) % 2 ^ 23 = 0 := by omega
      rw [h1, h2, if_neg (by omega)]
      simp only [Nat.add_zero, show s + 2 - 1 = s + 1 by omega, pow_succ]
      ring

/-! Rounding. -/

/-- Every 31 bits split as exponent steps and kept bits. -/
theorem magBits_split (b : Nat) : ∃ s k, b = s * 2 ^ 23 + k ∧ k < 2 ^ 24 ∧ (s = 0 ∨ 2 ^ 23 ≤ k) ∧ magBits b = k * 2 ^ s := by
  rcases Nat.lt_or_ge b (2 ^ 23) with h | h
  · exact ⟨0, b, by omega, by omega, .inl rfl, by simpa using magBits_norm (s := 0) (k := b) (by omega) (.inl rfl)⟩
  · refine ⟨b / 2 ^ 23 - 1, 2 ^ 23 + b % 2 ^ 23, by omega, by omega, .inr (by omega), ?_⟩
    rw [← magBits_norm (by omega) (.inr (by omega))]
    congr 1; omega

/-- What `roundBits` does: the kept bits of `num / den` at its exponent, one more where the rest rounds up. -/
theorem roundBits_spec (num : Nat) {den : Nat} (hd : 0 < den) :
    ∃ s k, 
      (s = 0 ∨ 2 ^ 23 ≤ k) ∧ k < 2 ^ 24 ∧ k * (den * 2 ^ s) ≤ num ∧ num < (k + 1) * (den * 2 ^ s) ∧
      ((roundBits num den = s * 2 ^ 23 + k ∧
          (2 * (num - k * (den * 2 ^ s)) < den * 2 ^ s ∨ (2 * (num - k * (den * 2 ^ s)) = den * 2 ^ s ∧ k % 2 = 0))) ∨
       (roundBits num den = s * 2 ^ 23 + (k + 1) ∧
          (den * 2 ^ s < 2 * (num - k * (den * 2 ^ s)) ∨ (2 * (num - k * (den * 2 ^ s)) = den * 2 ^ s ∧ k % 2 = 1)))) := by
  set s := Nat.log2 (num / den) - 23 with hs
  set ulp := den * 2 ^ s with hu
  have hup : 0 < ulp := by positivity
  refine ⟨s, num / ulp, ?_, ?_, Nat.div_mul_le_self _ _, ?_, ?_⟩
  · rw [hu, ← Nat.div_div_eq_div_mul]
    rcases Nat.eq_zero_or_pos s with h | h
    · exact .inl h
    · right
      have hq : num / den ≠ 0 := by intro h0; rw [h0] at hs; simp at hs; omega
      have : 2 ^ Nat.log2 (num / den) ≤ num / den := Nat.log2_self_le hq
      rw [Nat.le_div_iff_mul_le (by positivity), ← pow_add]
      rwa [show 23 + s = Nat.log2 (num / den) by omega]
  · rw [hu, ← Nat.div_div_eq_div_mul, Nat.div_lt_iff_lt_mul (by positivity), ← pow_add]
    calc num / den < 2 ^ (Nat.log2 (num / den) + 1) := Nat.lt_log2_self
      _ ≤ 2 ^ (24 + s) := Nat.pow_le_pow_right (by norm_num) (by omega)
  · exact (Nat.div_lt_iff_lt_mul hup).mp (Nat.lt_succ_self _)
  · have hr : num % ulp = num - num / ulp * ulp := by
      have := Nat.div_add_mod num ulp; rw [mul_comm] at this; omega
    unfold roundBits
    simp only [← hs, ← hu, hr]
    split
    · rename_i h
      right; exact ⟨rfl, by omega⟩
    · rename_i h
      left; exact ⟨rfl, by omega⟩


theorem magBits_lt_succ (b : Nat) : magBits b < magBits (b + 1) := by
  obtain ⟨s, k, rfl, hk, hs, hm⟩ := magBits_split b
  rw [hm, Nat.add_assoc, magBits_norm (by omega) (by omega)]
  exact Nat.mul_lt_mul_of_pos_right (Nat.lt_succ_self k) (by positivity)

theorem magBits_strictMono : StrictMono magBits := strictMono_nat_of_lt_succ magBits_lt_succ

theorem magBits_zero : magBits 0 = 0 := rfl

theorem magBits_pos {b : Nat} (h : 0 < b) : 0 < magBits b := magBits_zero ▸ magBits_strictMono h

/-- Rounding brackets `num / den` between two neighbouring data and takes the nearer one, ties to the even one. -/
theorem roundBits_bracket (num : Nat) {den : Nat} (hd : 0 < den) :
    ∃ b, magBits b * den ≤ num ∧ num < magBits (b + 1) * den ∧
      ((roundBits num den = b ∧
          (2 * num < (magBits b + magBits (b + 1)) * den ∨
            (2 * num = (magBits b + magBits (b + 1)) * den ∧ b % 2 = 0))) ∨
       (roundBits num den = b + 1 ∧
          ((magBits b + magBits (b + 1)) * den < 2 * num ∨
            (2 * num = (magBits b + magBits (b + 1)) * den ∧ b % 2 = 1)))) := by
  obtain ⟨s, k, hs, hk, hlo, hhi, h⟩ := roundBits_spec num hd
  have e0 : magBits (s * 2 ^ 23 + k) * den = k * (den * 2 ^ s) := by rw [magBits_norm (by omega) hs]; ring
  have e1 : magBits (s * 2 ^ 23 + k + 1) * den = k * (den * 2 ^ s) + den * 2 ^ s := by
    rw [Nat.add_assoc, magBits_norm (by omega) (by omega)]; ring
  refine ⟨s * 2 ^ 23 + k, by rw [e0]; exact hlo, by rw [e1]; linarith, ?_⟩
  rw [Nat.add_mul, e0, e1]
  generalize k * (den * 2 ^ s) = u at *
  generalize den * 2 ^ s = v at *
  have p1 : (s * 2 ^ 23 + k) % 2 = k % 2 := by omega
  rcases h with ⟨h1, h2⟩ | ⟨h1, h2⟩
  · left; refine ⟨h1, ?_⟩; omega
  · right; refine ⟨h1.trans (Nat.add_assoc _ _ _).symm, ?_⟩; omega

/-- A value that is a datum rounds to that datum. -/
theorem roundBits_exact (b : Nat) {den : Nat} (hd : 0 < den) : roundBits (magBits b * den) den = b := by
  obtain ⟨c, hlo, hhi, h⟩ := roundBits_bracket (magBits b * den) hd
  have h1 : magBits c ≤ magBits b := Nat.le_of_mul_le_mul_right hlo hd
  have h2 : magBits b < magBits (c + 1) := Nat.lt_of_mul_lt_mul_right hhi
  have h3 := magBits_strictMono.le_iff_le.mp h1
  have h4 := magBits_strictMono.lt_iff_lt.mp h2
  obtain rfl : b = c := by omega
  have := Nat.mul_lt_mul_of_pos_right (magBits_lt_succ b) hd
  rw [Nat.add_mul] at h
  generalize magBits b * den = u at *
  generalize magBits (b + 1) * den = v at *
  omega

theorem overflow_bits : magBits (infBits - 1) = (2 ^ 24 - 1) * 2 ^ 253 ∧ magBits infBits = 2 ^ 24 * 2 ^ 253 := by
  constructor
  · rw [show infBits - 1 = 253 * 2 ^ 23 + (2 ^ 24 - 1) from rfl, magBits_norm (by norm_num) (by norm_num)]
  · rw [show infBits = 253 * 2 ^ 23 + 2 ^ 24 from rfl, magBits_norm (by norm_num) (by norm_num)]

/-- A magnitude below the overflow threshold rounds to a finite datum, one at or above it to the infinity or beyond. -/
theorem roundBits_lt_inf (num : Nat) {den : Nat} (hd : 0 < den) : roundBits num den < infBits ↔ num < overflowAt * den := by
  obtain ⟨b, hlo, hhi, h⟩ := roundBits_bracket num hd
  have hb : b < infBits - 1 ∨ b = infBits - 1 ∨ infBits ≤ b := by omega
  have hov : 2 * overflowAt = magBits (infBits - 1) + magBits infBits := by
    rw [overflow_bits.1, overflow_bits.2, overflowAt]; norm_num
  have hI : infBits = infBits - 1 + 1 := rfl
  rcases hb with hb | hb | hb
  · have h1 : magBits (b + 1) ≤ magBits (infBits - 1) := magBits_strictMono.le_iff_le.mpr (by omega)
    have h2 : magBits (infBits - 1) ≤ magBits infBits := magBits_strictMono.le_iff_le.mpr (by omega)
    have h3 : magBits (b + 1) * den ≤ overflowAt * den := Nat.mul_le_mul_right _ (by omega)
    constructor <;> intro <;> omega
  · subst hb
    rw [← hI, ← hov] at h
    rw [show 2 * overflowAt * den = 2 * (overflowAt * den) by ring] at h
    have hodd : (infBits - 1) % 2 = 1 := rfl
    generalize overflowAt * den = w at *
    omega
  · have h1 : magBits infBits ≤ magBits b := magBits_strictMono.le_iff_le.mpr hb
    have h2 : magBits (infBits - 1) ≤ magBits infBits := magBits_strictMono.le_iff_le.mpr (by omega)
    have h3 : overflowAt * den ≤ magBits b * den := Nat.mul_le_mul_right _ (by omega)
    constructor <;> intro <;> omega


theorem scaled_pack (neg : Bool) {b : Nat} (hb : b < 2 ^ 31) :
    scaled (pack neg b) = if neg then -(magBits b : Int) else magBits b := by
  rw [scaled, signBit_pack neg hb, magnitude_eq, lowBits_pack neg hb]

theorem natAbs_scaled (a : F32) : (scaled a).natAbs = magnitude a := by
  rw [scaled]; split <;> simp

/-- The nearer of two neighbours is nearer than everything beyond them. -/
theorem nearer_of_bracket {num lo hi m t b : Int} (h1 : lo ≤ num) (h2 : num < hi) (ht : t ≤ lo ∨ hi ≤ t)
    (h : (m = lo ∧ (2 * num < lo + hi ∨ (2 * num = lo + hi ∧ b % 2 = 0))) ∨
      (m = hi ∧ (lo + hi < 2 * num ∨ (2 * num = lo + hi ∧ b % 2 = 1)))) :
    |num - m| ≤ |num - t| ∧ (|num - m| = |num - t| → t ≠ m → (m = lo → b % 2 = 0) ∧ (m = hi → b % 2 = 1)) := by
  simp only [abs_eq_max_neg]
  omega

/-- `roundPack` rounds once (rule R121). -/
theorem roundPack_rounded (neg : Bool) (num : Nat) {den : Nat} (hd : 0 < den) :
    RoundedOnce (if neg then -(num : Int) else num) den (roundPack neg num den) := by
  have hlt := roundBits_lt_inf num hd
  have habs : (if neg then -(num : Int) else num).natAbs = num := by split <;> simp
  constructor
  · intro h
    rw [habs] at h
    have hb := hlt.mpr h
    have hb31 : roundBits num den < 2 ^ 31 := hb.trans (by decide)
    have hr : roundPack neg num den = pack neg (roundBits num den) := by rw [roundPack, Nat.min_eq_left hb.le]
    rw [hr]
    refine ⟨by rw [isFinite_iff, lowBits_pack _ hb31]; exact hb, fun c hc => ?_⟩
    obtain ⟨b, hlo, hhi, h⟩ := roundBits_bracket num hd
    rw [fracField_toNat, lowBits_pack _ hb31, scaled_pack _ hb31]
    generalize hB : roundBits num den = B at *
    have hc' : magnitude c ≤ magBits b ∨ magBits (b + 1) ≤ magnitude c := by
      rw [magnitude_eq]
      rcases Nat.lt_or_ge b (lowBits c) with hbc | hbc
      · exact .inr (magBits_strictMono.le_iff_le.mpr hbc)
      · exact .inl (magBits_strictMono.le_iff_le.mpr hbc)
    have key : ∀ t : Int, t.natAbs = magnitude c →
        |(num : Int) - magBits B * den| ≤ |(num : Int) - t * den| ∧
        (|(num : Int) - magBits B * den| = |(num : Int) - t * den| → t ≠ magBits B → B % 2 ^ 23 % 2 = 0) := by
      intro t ht
      have hsep : t * den ≤ magBits b * den ∨ (magBits (b + 1) : Int) * den ≤ t * den := by
        have : t ≤ magBits b ∨ (magBits (b + 1) : Int) ≤ t := by omega
        exact this.imp (fun h => Int.mul_le_mul_of_nonneg_right h (by positivity))
          (fun h => Int.mul_le_mul_of_nonneg_right h (by positivity))
      rw [Nat.add_mul] at h
      have cast0 : ((magBits b * den : Nat) : Int) = magBits b * den := by push_cast; ring
      have cast1 : ((magBits (b + 1) * den : Nat) : Int) = magBits (b + 1) * den := by push_cast; ring
      have hcase : ((magBits B : Int) * den = magBits b * den ∧ B = b ∧ (2 * (num : Int) < magBits b * den + magBits (b + 1) * den ∨ (2 * (num : Int) = magBits b * den + magBits (b + 1) * den ∧ (b : Int) % 2 = 0))) ∨
          ((magBits B : Int) * den = magBits (b + 1) * den ∧ B = b + 1 ∧ (magBits b * den + magBits (b + 1) * den < 2 * (num : Int) ∨ (2 * (num : Int) = magBits b * den + magBits (b + 1) * den ∧ (b : Int) % 2 = 1))) := by
        rw [← cast0, ← cast1]
        rcases h with ⟨h1, h2⟩ | ⟨h1, h2⟩
        · left; subst h1; refine ⟨cast0.symm, rfl, ?_⟩; omega
        · right; subst h1; refine ⟨cast1.symm, rfl, ?_⟩; omega
      have hn := nearer_of_bracket (b := b) (m := magBits B * den) (by rw [← cast0]; exact_mod_cast hlo) (by rw [← cast1]; exact_mod_cast hhi) hsep
        (hcase.imp (fun h => ⟨h.1, h.2.2⟩) (fun h => ⟨h.1, h.2.2⟩))
      refine ⟨hn.1, fun he hne => ?_⟩
      have hne' : t * den ≠ magBits B * den := fun h => hne (mul_right_cancel₀ (by exact_mod_cast hd.ne') h)
      have := hn.2 he hne'
      rcases hcase with h | h
      · have := this.1 h.1; have := h.2.1; omega
      · have := this.2 h.1; have := h.2.1; omega
    cases neg
    · exact key (scaled c) (natAbs_scaled c)
    · have := key (-scaled c) (by rw [Int.natAbs_neg]; exact natAbs_scaled c)
      have e1 : |(-(num : Int)) - -(magBits B : Int) * den| = |(num : Int) - magBits B * den| := by
        rw [← abs_neg]; ring_nf
      have e2 : |(-(num : Int)) - scaled c * den| = |(num : Int) - -scaled c * den| := by
        rw [← abs_neg]; ring_nf
      simp only [if_true, e1, e2]
      exact ⟨this.1, fun he hne => this.2 he (by omega)⟩
  · intro h
    rw [habs] at h
    have hb : infBits ≤ roundBits num den := by omega
    have hr : roundPack neg num den = pack neg infBits := by rw [roundPack, Nat.min_eq_right hb]
    rw [hr, isInf_iff, lowBits_pack _ (by decide), signBit_pack _ (by decide)]
    refine ⟨rfl, ?_⟩
    have hpos : 0 < num := lt_of_lt_of_le (Nat.mul_pos (by decide) hd) h
    cases neg
    · simp
    · simp; omega

/-- A datum's magnitude, as it is or scaled with the denominator, rounds to the datum. -/
theorem roundPack_exact {a : F32} (h : isFinite a = true) {den : Nat} (hd : 0 < den) :
    roundPack (signBit a) (magnitude a * den) den = a := by
  rw [roundPack, magnitude_eq, roundBits_exact _ hd, Nat.min_eq_left ((isFinite_iff a).mp h).le, pack_fields]

/-! NaN. -/

theorem quietNaN_bit (free : BitVec 23) : (quietNaN free).getLsbD 22 = true := by
  simp only [quietNaN, BitVec.getLsbD_append]
  rfl

theorem quietNaN_low (free : BitVec 23) : infBits < lowBits (quietNaN free) := by
  have h : isNaN (quietNaN free) = true := by
    have h1 : expField (quietNaN free) = 255 := by
      apply BitVec.eq_of_getLsbD_eq
      intro i hi
      simp only [expField, quietNaN, BitVec.getLsbD_extractLsb', BitVec.getLsbD_append, hi, decide_true, Bool.true_and]
      interval_cases i <;> simp
    have h2 : (fracField (quietNaN free)).getLsbD 22 = true := by
      rw [fracField, BitVec.getLsbD_extractLsb', Nat.zero_add, quietNaN_bit]
      rfl
    have h3 : fracField (quietNaN free) ≠ 0 := by intro h0; rw [h0] at h2; cases h2
    rw [isNaN, h1, bne_iff_ne.mpr h3]
    rfl
  exact (isNaN_iff _).mp h

/-- Every value of `quietNaN` is a quiet NaN. -/
theorem isQuietNaN_quietNaN (free : BitVec 23) : isQuietNaN (quietNaN free) = true := by
  rw [isQuietNaN, quietNaN_bit, (isNaN_iff _).mpr (quietNaN_low free)]
  rfl

@[simp] theorem isNaN_nanOf (op : FOp) (a b : F32) : isNaN (nanOf op a b) = true := (isNaN_iff _).mpr (quietNaN_low _)
@[simp] theorem isQuietNaN_nanOf (op : FOp) (a b : F32) : isQuietNaN (nanOf op a b) = true := isQuietNaN_quietNaN _

/-- A datum is exactly one of finite, infinite, NaN. -/
theorem class_cases (a : F32) :
    (isFinite a = true ∧ isInf a = false ∧ isNaN a = false) ∨ (isFinite a = false ∧ isInf a = true ∧ isNaN a = false) ∨
    (isFinite a = false ∧ isInf a = false ∧ isNaN a = true) := by
  rcases Nat.lt_trichotomy (lowBits a) infBits with h | h | h
  · exact .inl ⟨(isFinite_iff a).mpr h, Bool.eq_false_iff.mpr (by rw [ne_eq, isInf_iff]; omega),
      Bool.eq_false_iff.mpr (by rw [ne_eq, isNaN_iff]; omega)⟩
  · exact .inr (.inl ⟨Bool.eq_false_iff.mpr (by rw [ne_eq, isFinite_iff]; omega), (isInf_iff a).mpr h,
      Bool.eq_false_iff.mpr (by rw [ne_eq, isNaN_iff]; omega)⟩)
  · exact .inr (.inr ⟨Bool.eq_false_iff.mpr (by rw [ne_eq, isFinite_iff]; omega),
      Bool.eq_false_iff.mpr (by rw [ne_eq, isInf_iff]; omega), (isNaN_iff a).mpr h⟩)

theorem not_inf_of_finite {a : F32} (h : isFinite a = true) : isInf a = false := by
  rcases class_cases a with h' | h' | h' <;> simp_all
theorem not_nan_of_finite {a : F32} (h : isFinite a = true) : isNaN a = false := by
  rcases class_cases a with h' | h' | h' <;> simp_all
theorem finite_of_zero {a : F32} (h : isZero a = true) : isFinite a = true := by
  rw [isFinite_iff, (isZero_iff a).mp h]; decide

theorem isZero_iff_scaled {a : F32} : isZero a = true ↔ scaled a = 0 := by
  rw [isZero_iff, ← Int.natAbs_eq_zero, natAbs_scaled, magnitude_eq]
  exact ⟨fun h => by rw [h]; rfl, fun h => by by_contra h0; exact absurd h (magBits_pos (by omega)).ne'⟩

/-! A NaN operand gives a NaN (rule R124). -/

theorem fadd_nan {a b : F32} (h : isNaN a = true ∨ isNaN b = true) : fadd a b = nanOf .add a b := by
  rw [fadd, if_pos (by simpa using h)]
theorem fsub_nan {a b : F32} (h : isNaN a = true ∨ isNaN b = true) : fsub a b = nanOf .sub a b := by
  rw [fsub, if_pos (by simpa using h)]
theorem fmul_nan {a b : F32} (h : isNaN a = true ∨ isNaN b = true) : fmul a b = nanOf .mul a b := by
  rw [fmul, if_pos (by simpa using h)]
theorem fdiv_nan {a b : F32} (h : isNaN a = true ∨ isNaN b = true) : fdiv a b = nanOf .div a b := by
  rw [fdiv, if_pos (by simpa using h)]

/-! Sign flip. -/

theorem lowBits_eq (a : F32) : lowBits a = (a.extractLsb' 0 31).toNat := by
  rw [lowBits, BitVec.extractLsb'_toNat, Nat.shiftRight_zero]

@[simp] theorem lowBits_fneg (a : F32) : lowBits (fneg a) = lowBits a := by
  rw [lowBits_eq, lowBits_eq]
  congr 1
  apply BitVec.eq_of_getLsbD_eq
  intro i hi
  simp only [fneg, BitVec.getLsbD_extractLsb', BitVec.getLsbD_xor, hi, decide_true, Bool.true_and, Nat.zero_add]
  have : (0x80000000#32).getLsbD i = false := by interval_cases i <;> rfl
  rw [show (0x80000000 : BitVec 32) = 0x80000000#32 from rfl, this, Bool.xor_false]

@[simp] theorem signBit_fneg (a : F32) : signBit (fneg a) = !signBit a := by
  simp only [signBit, fneg, BitVec.getLsbD_xor]
  rw [show (0x80000000 : BitVec 32).getLsbD 31 = true from rfl, Bool.xor_true]

@[simp] theorem isFinite_fneg (a : F32) : isFinite (fneg a) = isFinite a := by
  rw [Bool.eq_iff_iff, isFinite_iff, isFinite_iff, lowBits_fneg]
@[simp] theorem isInf_fneg (a : F32) : isInf (fneg a) = isInf a := by
  rw [Bool.eq_iff_iff, isInf_iff, isInf_iff, lowBits_fneg]
@[simp] theorem isNaN_fneg (a : F32) : isNaN (fneg a) = isNaN a := by
  rw [Bool.eq_iff_iff, isNaN_iff, isNaN_iff, lowBits_fneg]
@[simp] theorem isZero_fneg (a : F32) : isZero (fneg a) = isZero a := by
  rw [Bool.eq_iff_iff, isZero_iff, isZero_iff, lowBits_fneg]
@[simp] theorem scaled_fneg (a : F32) : scaled (fneg a) = -scaled a := by
  rw [scaled, scaled, signBit_fneg, magnitude_eq, magnitude_eq, lowBits_fneg]
  cases signBit a <;> simp

/-! What is exact (rule R126). -/

@[simp] theorem scaled_posZero : scaled posZero = 0 := by decide
@[simp] theorem isFinite_posZero : isFinite posZero = true := by decide
@[simp] theorem isInf_posZero : isInf posZero = false := by decide
@[simp] theorem isNaN_posZero : isNaN posZero = false := by decide
@[simp] theorem isZero_posZero : isZero posZero = true := by decide
@[simp] theorem signBit_posZero : signBit posZero = false := by decide
@[simp] theorem magnitude_posZero : magnitude posZero = 0 := by decide

/-- Rounding an exact sum that is a datum's value gives the datum, but for zeros. -/
theorem roundPack_scaled {a : F32} (h : isFinite a = true) (h0 : isZero a = false) :
    roundPack (decide (scaled a < 0)) (scaled a).natAbs 1 = a := by
  have hm : 0 < magnitude a := by
    rw [magnitude_eq]
    refine magBits_pos (Nat.pos_of_ne_zero fun h => ?_)
    rw [(isZero_iff a).mpr h] at h0; cases h0
  have hs : decide (scaled a < 0) = signBit a := by
    rw [scaled]; cases signBit a
    · simp
    · simp; omega
  rw [hs, natAbs_scaled]
  simpa using roundPack_exact h (den := 1) Nat.one_pos

/-- `l - (+0) = l`. -/
theorem fsub_posZero {l : F32} (h : isNaN l = false) : fsub l posZero = l := by
  have hz : zeroOf true = fneg posZero := by decide
  simp only [fsub, h, isNaN_posZero, Bool.or_self, Bool.false_eq_true, if_false, sumOf, isInf_fneg, isInf_posZero,
    Bool.false_and, scaled_fneg, scaled_posZero, neg_zero, add_zero, signBit_fneg, signBit_posZero, Bool.not_false,
    Bool.and_true]
  split
  · rfl
  · rename_i hi
    have hf : isFinite l = true := by rcases class_cases l with h' | h' | h' <;> simp_all
    split
    · rename_i h0
      have := (isZero_iff l).mp (isZero_iff_scaled.mpr h0)
      refine ext_fields ?_ ?_
      · rw [zeroOf, signBit_pack _ (by decide)]
      · rw [zeroOf, lowBits_pack _ (by decide), this]
    · rename_i h0
      exact roundPack_scaled hf (Bool.eq_false_iff.mpr fun h => h0 (isZero_iff_scaled.mp h))

/-- `+0 - g = -g` for a finite `g` that is not zero. -/
theorem posZero_fsub {g : F32} (h : isFinite g = true) (h0 : isZero g = false) : fsub posZero g = fneg g := by
  have h1 : isFinite (fneg g) = true := by simpa using h
  have h2 : isZero (fneg g) = false := by simpa using h0
  have h3 : ¬scaled (fneg g) = 0 := fun h => by rw [isZero_iff_scaled.mpr h] at h2; cases h2
  simp only [fsub, sumOf, isNaN_posZero, not_nan_of_finite h, Bool.or_self, Bool.false_eq_true, if_false, isInf_posZero,
    isInf_fneg, not_inf_of_finite h, scaled_posZero, zero_add, if_neg h3]
  exact roundPack_scaled h1 h2

/-- `g * (+0) = +0` for a finite `g` that is not negative. -/
theorem fmul_posZero {g : F32} (h : isFinite g = true) (hs : signBit g = false) : fmul g posZero = posZero := by
  have hz : roundBits (magnitude g * magnitude posZero) unitScale = 0 := by
    rw [magnitude_posZero, Nat.mul_zero]
    simpa [magBits_zero] using roundBits_exact 0 (den := unitScale) (by decide)
  simp only [fmul, not_nan_of_finite h, isNaN_posZero, not_inf_of_finite h, isInf_posZero, Bool.or_self,
    Bool.false_eq_true, if_false, hs, signBit_posZero, roundPack, hz]
  rfl

/-- `g * 1.0 = g`. -/
theorem fmul_one {g : F32} (h : isFinite g = true) : fmul g one = g := by
  have h1 : isNaN one = false := by decide
  have h2 : isInf one = false := by decide
  have h3 : signBit one = false := by decide
  have h4 : magnitude one = unitScale := by decide
  simp only [fmul, not_nan_of_finite h, h1, not_inf_of_finite h, h2, h3, h4, Bool.or_self, Bool.false_eq_true, if_false,
    Bool.bne_false]
  exact roundPack_exact h (by decide)

end Sys2Proof.Machine
end

