-- ==== Sys2Proof/Laws/Operands.lean ====
section
/-! SUPPORT. One lemma for each check: when it passes, and what it faults with otherwise (rules R131, R151, R211, R301,
R304). -/

namespace Sys2Proof.Machine

/-! Outcomes and the checks' monad. -/

@[simp] theorem finish_ok {α : Type} (a : α) (k : α → State) : finish (.ok a) k = .next (k a) := rfl
@[simp] theorem finish_error {α : Type} (f : Fault) (k : α → State) : finish (.error f) k = .fault f := rfl
@[simp] theorem ok_bind {α β : Type} (a : α) (f : α → Except Fault β) : (Except.ok a >>= f) = f a := rfl
@[simp] theorem error_bind {α β : Type} (e : Fault) (f : α → Except Fault β) : ((Except.error e : Except Fault α) >>= f) = .error e := rfl

/-- A command that answers a next state: its result is there, and the state is what it makes of it. -/
theorem finish_next {α : Type} {r : Except Fault α} {k : α → State} {t : State} (h : finish r k = .next t) :
    ∃ a, r = .ok a ∧ t = k a := by
  cases r with
  | ok a => exact ⟨a, rfl, by simpa using h.symm⟩
  | error e => cases h

/-- A computation of two parts that succeeds: both succeed. -/
theorem bind_ok {α β : Type} {x : Except Fault α} {f : α → Except Fault β} {b : β} (h : (x >>= f) = .ok b) :
    ∃ a, x = .ok a ∧ f a = .ok b := by
  cases x with
  | ok a => exact ⟨a, rfl, h⟩
  | error e => cases h

theorem pure_ok {α : Type} {a b : α} (h : (pure a : Except Fault α) = .ok b) : a = b := Except.ok.inj h

@[simp] theorem require_true (f : Fault) : require true f = .ok ⟨⟩ := rfl
@[simp] theorem require_false (f : Fault) : require false f = .error f := rfl
theorem require_ok {c : Bool} {f : Fault} {u : Unit} (h : require c f = .ok u) : c = true := by
  cases c with
  | true => rfl
  | false => cases h

/-! Registers (rule R8). -/

@[simp] theorem Reg.val_value (v : F32) : (Reg.val v).value = v := rfl
@[simp] theorem Reg.val_written (v : F32) : (Reg.val v).written = true := rfl
@[simp] theorem Reg.unset_value : Reg.unset.value = posZero := rfl
@[simp] theorem Reg.unset_written : Reg.unset.written = false := rfl
theorem Reg.written_iff {r : Reg} : r.written = true ↔ r = .val r.value := by
  cases r; simp [Reg.val]

/-- No register of a list is Unset exactly when each has been written. -/
theorem unsetOf_eq_nil {l : List (RegName × Reg)} : unsetOf l = [] ↔ ∀ e ∈ l, e.2.written = true := by
  induction l with
  | nil => simp [unsetOf]
  | cons e rest ih =>
    obtain ⟨n, r⟩ := e
    cases h : r.written <;> simp [unsetOf, h, ih]

theorem mem_unsetOf {l : List (RegName × Reg)} {n : RegName} : n ∈ unsetOf l ↔ ∃ r, (n, r) ∈ l ∧ r.written = false := by
  induction l with
  | nil => simp [unsetOf]
  | cons e rest ih =>
    obtain ⟨m, r⟩ := e
    cases h : r.written
    · simp only [unsetOf, h, Bool.false_eq_true, if_false, List.mem_cons, ih, Prod.mk.injEq]
      constructor
      · rintro (rfl | ⟨q, hq, hw⟩)
        · exact ⟨r, .inl ⟨rfl, rfl⟩, h⟩
        · exact ⟨q, .inr hq, hw⟩
      · rintro ⟨q, ⟨rfl, -⟩ | hq, hw⟩
        · exact .inl rfl
        · exact .inr ⟨q, hq, hw⟩
    · simp only [unsetOf, h, if_true, List.mem_cons, ih, Prod.mk.injEq]
      constructor
      · rintro ⟨q, hq, hw⟩
        exact ⟨q, .inr hq, hw⟩
      · rintro ⟨q, ⟨-, rfl⟩ | hq, hw⟩
        · rw [h] at hw; cases hw
        · exact ⟨q, hq, hw⟩

/-! Finite operands. -/

theorem requireFinite_ok {op : Op} : ∀ {l : List (Operand × F32)}, (∀ e ∈ l, isFinite e.2 = true) → requireFinite op l = .ok ⟨⟩
  | [], _ => rfl
  | (n, v) :: rest, h => by
    simp only [requireFinite, if_pos (h (n, v) (by simp))]
    exact requireFinite_ok fun e he => h e (by simp [he])

theorem requireFinite_error {op : Op} :
    ∀ {l : List (Operand × F32)}, (∃ e ∈ l, isFinite e.2 = false) → ∃ x, requireFinite op l = .error (.config op x)
  | [], h => by simp at h
  | (n, v) :: rest, h => by
    by_cases hv : isFinite v = true
    · simp only [requireFinite, if_pos hv]
      refine requireFinite_error ?_
      obtain ⟨e, he, hf⟩ := h
      rcases List.mem_cons.mp he with rfl | he
      · rw [hv] at hf; cases hf
      · exact ⟨e, he, hf⟩
    · exact ⟨n, by simp only [requireFinite, if_neg hv]⟩

theorem requireFinite_cases (op : Op) (l : List (Operand × F32)) :
    (requireFinite op l = .ok ⟨⟩ ∧ ∀ e ∈ l, isFinite e.2 = true) ∨
    ((∃ x, requireFinite op l = .error (.config op x)) ∧ ∃ e ∈ l, isFinite e.2 = false) := by
  by_cases h : ∀ e ∈ l, isFinite e.2 = true
  · exact .inl ⟨requireFinite_ok h, h⟩
  · have h' : ∃ e ∈ l, isFinite e.2 = false := by simpa using h
    exact .inr ⟨requireFinite_error h', h'⟩

/-! The tuning invariant (rule R151). -/

theorem isPositive_iff (v : F32) : isPositive v = true ↔ isFinite v = true ∧ 0 < scaled v := by simp [isPositive]
theorem belowHalf_iff (f r : F32) : belowHalf f r = true ↔ 2 * scaled f < scaled r := by simp [belowHalf]

theorem checkTuning_ok {op : Op} {freq rate q : F32} {gains : List (Operand × F32)} (h : ValidTuning freq rate q)
    (hg : ∀ e ∈ gains, isFinite e.2 = true) : checkTuning op freq rate q gains = .ok ⟨⟩ := by
  obtain ⟨h1, h2, h3, h4, h5, h6, h7⟩ := h
  have hf : requireFinite op ([(.freq, freq), (.rate, rate), (.q, q)] ++ gains) = .ok ⟨⟩ :=
    requireFinite_ok (by
      intro e he
      simp only [List.mem_append, List.mem_cons, List.not_mem_nil, or_false] at he
      rcases he with (rfl | rfl | rfl) | he
      · exact h1
      · exact h2
      · exact h3
      · exact hg e he)
  simp only [checkTuning, hf, (isPositive_iff _).mpr ⟨h2, h4⟩, (isPositive_iff _).mpr ⟨h1, h5⟩,
    (isPositive_iff _).mpr ⟨h3, h7⟩, (belowHalf_iff _ _).mpr h6, ok_bind, require_true, Bool.and_self]

theorem checkTuning_error {op : Op} {freq rate q : F32} {gains : List (Operand × F32)}
    (h : ¬(ValidTuning freq rate q ∧ ∀ e ∈ gains, isFinite e.2 = true)) :
    ∃ x, checkTuning op freq rate q gains = .error (.config op x) := by
  unfold checkTuning
  rcases requireFinite_cases op ([(.freq, freq), (.rate, rate), (.q, q)] ++ gains) with ⟨hk, hf⟩ | ⟨⟨x, hk⟩, -⟩
  · rw [hk, ok_bind]
    have h1 : isFinite freq = true := hf (.freq, freq) (by simp)
    have h2 : isFinite rate = true := hf (.rate, rate) (by simp)
    have h3 : isFinite q = true := hf (.q, q) (by simp)
    by_cases hr : isPositive rate = true
    · rw [hr, require_true, ok_bind]
      by_cases hb : (isPositive freq && belowHalf freq rate) = true
      · rw [hb, require_true, ok_bind]
        by_cases hq : isPositive q = true
        · refine absurd ⟨⟨h1, h2, h3, ?_⟩, fun e he => hf e (by simp [he])⟩ h
          simp only [isPositive_iff, belowHalf_iff, Bool.and_eq_true] at hr hb hq
          exact ⟨hr.2, hb.1.2, hb.2, hq.2⟩
        · exact ⟨_, by rw [Bool.eq_false_iff.mpr hq]; rfl⟩
      · exact ⟨_, by rw [Bool.eq_false_iff.mpr hb]; rfl⟩
    · exact ⟨_, by rw [Bool.eq_false_iff.mpr hr]; rfl⟩
  · exact ⟨x, by rw [hk]; rfl⟩

theorem checkTuning_passed {op : Op} {freq rate q : F32} {gains : List (Operand × F32)} {u : Unit}
    (h : checkTuning op freq rate q gains = .ok u) : ValidTuning freq rate q ∧ ∀ e ∈ gains, isFinite e.2 = true := by
  by_contra hn
  obtain ⟨x, hx⟩ := checkTuning_error (op := op) hn
  rw [hx] at h; cases h

/-! The cascade table (rule R211). -/

theorem entryValid_iff {rate : F32} (hf : isFinite rate = true) (hr : 0 < scaled rate) (e : Entry) :
    entryValid rate e = true ↔ ValidTuning e.freq rate e.q ∧ isFinite e.gainDb = true := by
  simp only [entryValid, ValidTuning, Bool.and_eq_true, isPositive_iff, belowHalf_iff]
  tauto

theorem checkEntries_ok {op : Op} {rate : F32} :
    ∀ {k : Nat} {l : List Entry}, (∀ e ∈ l, entryValid rate e = true) → checkEntries op rate k l = .ok ⟨⟩
  | _, [], _ => rfl
  | k, e :: rest, h => by
    simp only [checkEntries, if_pos (h e (by simp))]
    exact checkEntries_ok fun x hx => h x (by simp [hx])

theorem checkEntries_error {op : Op} {rate : F32} :
    ∀ {k : Nat} {l : List Entry}, (¬∀ e ∈ l, entryValid rate e = true) →
      ∃ x, checkEntries op rate k l = .error (.config op x)
  | _, [], h => by simp at h
  | k, e :: rest, h => by
    by_cases he : entryValid rate e = true
    · simp only [checkEntries, if_pos he]
      refine checkEntries_error fun hr => h fun x hx => ?_
      rcases List.mem_cons.mp hx with rfl | hx
      · exact he
      · exact hr x hx
    · exact ⟨_, by simp only [checkEntries, if_neg he]; rfl⟩

/-- The table check at a sample rate: passes exactly when the table is valid for it. -/
theorem checkTable_cases (P : Params) (op : Op) {rate : F32} (hf : isFinite rate = true) (hr : 0 < scaled rate) :
    (checkEntries op rate 0 (hsTable P) = .ok ⟨⟩ ∧ ValidTable P rate) ∨
    ((∃ x, checkEntries op rate 0 (hsTable P) = .error (.config op x)) ∧ ¬ValidTable P rate) := by
  have hv : ValidTable P rate ↔ ∀ e ∈ hsTable P, entryValid rate e = true :=
    forall₂_congr fun e _ => (entryValid_iff hf hr e).symm
  rw [hv]
  by_cases h : ∀ e ∈ hsTable P, entryValid rate e = true
  · exact .inl ⟨checkEntries_ok h, h⟩
  · exact .inr ⟨checkEntries_error h, h⟩

/-! Capacity requests (rule R131). -/

/-- The delay in samples of a claim is the one the commands compute (rule R130). -/
theorem samplesOf_eq (delayUs rate : F32) : samplesOf delayUs rate = delaySamplesOf delayUs rate := rfl

theorem delayLen_ok {op : Op} {delayUs rate : F32} {interp : Bool} (h : ValidDelay delayUs rate) :
    delayLen op delayUs rate interp = .ok (delayRequest (delaySamplesOf delayUs rate) interp) := by
  have h1 : isFinite (delaySamplesOf delayUs rate) = true := h.1
  have h2 : 0 ≤ scaled (delaySamplesOf delayUs rate) := h.2
  simp only [delayLen, h1, decide_eq_true h2, Bool.and_self, require_true, ok_bind]
  rfl

theorem delayLen_error {op : Op} {delayUs rate : F32} {interp : Bool} (h : ¬ValidDelay delayUs rate) :
    delayLen op delayUs rate interp = .error (.config op .delaySamples) := by
  have hc : (isFinite (delaySamplesOf delayUs rate) && decide (0 ≤ scaled (delaySamplesOf delayUs rate))) = false := by
    rw [Bool.eq_false_iff]
    change ¬(isFinite (delaySamplesOf delayUs rate) = true ∧ 0 ≤ scaled (delaySamplesOf delayUs rate)) at h
    simpa using h
  simp only [delayLen, hc, require_false, error_bind]

theorem checkCapacity_ok {P : Params} {len : Nat} (h : len ≤ dlMax P) : checkCapacity P len = .ok ⟨⟩ := by
  simp [checkCapacity, h]

theorem checkCapacity_error {P : Params} {len : Nat} (h : dlMax P < len) : checkCapacity P len = .error (.capacity len) := by
  simp [checkCapacity, Nat.not_le.mpr h]

theorem checkCapacity_passed {P : Params} {len : Nat} {u : Unit} (h : checkCapacity P len = .ok u) : len ≤ dlMax P :=
  of_decide_eq_true (require_ok h)

/-- A request has at least one slot. -/
theorem delayRequest_len_pos (d : F32) (interp : Bool) : 1 ≤ (delayRequest d interp).len := by
  unfold delayRequest
  split
  · dsimp only; split
    · assumption
    · exact le_rfl
  · exact Nat.le_max_left _ _

@[simp] theorem delayRequest_d (d : F32) (interp : Bool) : (delayRequest d interp).d = d := by
  unfold delayRequest
  split
  · dsimp only; split <;> rfl
  · rfl

@[simp] theorem delayRequest_whole_frac (d : F32) : (delayRequest d false).frac = posZero := rfl

end Sys2Proof.Machine
end

