-- ==== Sys2Proof/Laws/Parameters.lean ====
section
/-! SUPPORT. What every choice of the OPEN parameters satisfies (rules R6, R127, R211, R253). -/

namespace Sys2Proof.Machine

theorem dlMax_pos (P : Params) : 1 ≤ dlMax P := by unfold dlMax; omega
theorem dlMax_lt (P : Params) : dlMax P < 2 ^ 24 := by unfold dlMax; omega
theorem nsec_ge (P : Params) : 5 ≤ nsec P := by unfold nsec; omega
theorem nsec_le (P : Params) : nsec P ≤ 7 := by unfold nsec; omega
theorem nsec_le_maxSections (P : Params) : nsec P ≤ maxSections := nsec_le P

@[simp] theorem length_hsTable (P : Params) : (hsTable P).length = nsec P := by simp [hsTable]

theorem isFinite_forceFinite (r : F32) : isFinite (forceFinite r) = true := by
  unfold forceFinite
  split
  · assumption
  · decide

theorem isPositive_forcePositive (r : F32) : isPositive (forcePositive r) = true := by
  unfold forcePositive
  split
  · assumption
  · decide

theorem forceFreq_valid (r : F32) : isPositive (forceFreq r) = true ∧ belowHalf (forceFreq r) maxFinite = true := by
  unfold forceFreq
  split
  · rename_i h; simpa using h
  · decide

/-- The table is valid for the largest sample rate, so it is valid for some (rule R211). -/
theorem validTable_maxFinite (P : Params) : ValidTable P maxFinite := by
  intro e he
  obtain ⟨k, -, rfl⟩ := List.mem_map.mp he
  exact (entryValid_iff (by decide) (by decide) _).mp (by
    simp only [entryValid, tableEntry, (forceFreq_valid _).1, (forceFreq_valid _).2, isPositive_forcePositive,
      isFinite_forceFinite, Bool.and_self])

/-- The shaper's parameters always pass the check of rule R253. -/
theorem validModel_shaper (P : Params) (rate : F32) : ValidModel P .firstOrderShaper rate := by
  have h1 := (isPositive_iff _).mp (isPositive_forcePositive P.fLpRaw)
  have h2 := (isPositive_iff _).mp (isPositive_forcePositive P.fHpRaw)
  exact ⟨h1.1, h1.2, h2.1, h2.2, isFinite_forceFinite _⟩

theorem hpPos_lt (P : Params) : hpPos P < nsec P := Nat.mod_lt _ (by have := nsec_ge P; omega)
theorem lpPos_lt (P : Params) : lpPos P < nsec P := Nat.mod_lt _ (by have := nsec_ge P; omega)

/-- The one LP entry is not the one HP entry. -/
theorem lpPos_ne_hpPos (P : Params) : lpPos P ≠ hpPos P := by
  have h5 := nsec_ge P
  have hh := hpPos_lt P
  have hm := Nat.mod_lt P.lpPosRaw (show 0 < nsec P - 1 by omega)
  unfold lpPos
  generalize P.lpPosRaw % (nsec P - 1) = m at *
  rcases Nat.lt_or_ge (hpPos P + 1 + m) (nsec P) with h | h
  · rw [Nat.mod_eq_of_lt h]; omega
  · rw [Nat.mod_eq_sub_mod h, Nat.mod_eq_of_lt (by omega)]; omega

/-- `db_to_gain` of a zero is `1.0` (rule R132, by `P_pow10_zero`). -/
theorem dbToGain_zero (P : Params) {db : F32} (h : isZero db = true) : dbToGain P db = one := by
  have hb : ∀ a : F32, isZero a = true → a = zeroOf (signBit a) := fun a ha => by
    refine ext_fields ?_ ?_
    · rw [zeroOf, signBit_pack _ (by decide)]
    · rw [zeroOf, lowBits_pack _ (by decide), (isZero_iff a).mp ha]
  have hd : isZero (fdiv db twenty) = true := by
    rw [hb db h]
    cases signBit db <;> decide
  rw [dbToGain, fPow10, not_nan_of_finite (finite_of_zero hd), hd]
  rfl

end Sys2Proof.Machine
end

