-- ==== Sys2Proof/Laws/Memory.lean ====
section
/-! SUPPORT. Delay buffers: a read after a write, and the canonical form that every operation keeps (rules R9, R60 to R62). -/

namespace Sys2Proof.Machine

@[simp] theorem Memory.read_zeroFilled (i : Nat) : Memory.zeroFilled.read i = posZero := rfl
@[simp] theorem Memory.wf_zeroFilled : Memory.zeroFilled.wf = true := rfl
@[simp] theorem Memory.below_zeroFilled (cap : Nat) : Memory.zeroFilled.below cap = true := rfl
@[simp] theorem Memory.unlisted_eq : Memory.unlisted = posZero := rfl

theorem Memory.wfFrom_mono {n m : Nat} (h : m ≤ n) : ∀ {l : Memory}, Memory.wfFrom n l = true → Memory.wfFrom m l = true
  | [], _ => rfl
  | (a, v) :: rest, hw => by
    simp only [Memory.wfFrom, Bool.and_eq_true, decide_eq_true_eq] at hw ⊢
    exact ⟨⟨h.trans hw.1.1, hw.1.2⟩, hw.2⟩

/-- A slot below every listed one reads as unlisted. -/
theorem Memory.read_of_lt {n i : Nat} : ∀ {l : Memory}, Memory.wfFrom n l = true → i < n → l.read i = posZero
  | [], _, _ => rfl
  | (a, v) :: rest, hw, hi => by
    simp only [Memory.wfFrom, Bool.and_eq_true, decide_eq_true_eq] at hw
    have ha : a ≠ i := by omega
    simp only [Memory.read, if_neg ha]
    exact Memory.read_of_lt hw.2 (by omega)

/-- A write keeps the canonical form, from any bound not above the slot written. -/
theorem Memory.wfFrom_write {n i : Nat} {v : F32} :
    ∀ {l : Memory}, Memory.wfFrom n l = true → n ≤ i → Memory.wfFrom n (l.write i v) = true
  | [], _, hi => by
    by_cases hv : v = posZero <;> simp [Memory.write, Memory.wfFrom, hv, hi]
  | (a, w) :: rest, hw, hi => by
    simp only [Memory.wfFrom, Bool.and_eq_true, decide_eq_true_eq] at hw
    obtain ⟨⟨ha, hwz⟩, hr⟩ := hw
    unfold Memory.write
    split
    · split <;> simp_all [Memory.wfFrom]
    · split
      · split
        · exact Memory.wfFrom_mono (by omega) hr
        · simp_all [Memory.wfFrom]
      · have := Memory.wfFrom_write (v := v) hr (show a + 1 ≤ i by omega)
        simp_all [Memory.wfFrom]

/-- A write keeps the canonical form. -/
theorem Memory.wf_write {l : Memory} (i : Nat) (v : F32) (h : l.wf = true) : (l.write i v).wf = true :=
  Memory.wfFrom_write h (Nat.zero_le i)

/-- A slot named after a write is the slot written or was named before. -/
theorem Memory.mem_write {i : Nat} {v : F32} {c : Nat × F32} : ∀ {l : Memory}, c ∈ l.write i v → c = (i, v) ∨ c ∈ l
  | [], h => by
    unfold Memory.write at h
    split at h <;> simp_all
  | (a, w) :: rest, h => by
    unfold Memory.write at h
    split at h
    · split at h <;> simp_all
    · split at h
      · split at h <;> simp_all
        tauto
      · rcases List.mem_cons.mp h with rfl | h
        · simp
        · have := Memory.mem_write h
          simp only [List.mem_cons]; tauto

/-- A write inside a line names no slot outside it. -/
theorem Memory.below_write {cap i : Nat} (v : F32) (hi : i < cap) {l : Memory} (h : l.below cap = true) :
    (l.write i v).below cap = true := by
  simp only [Memory.below, List.all_eq_true, decide_eq_true_eq] at h ⊢
  intro c hc
  rcases Memory.mem_write hc with rfl | hc
  · exact hi
  · exact h c hc

/-- Reading back what was written, and every other slot as before: on a canonical buffer. -/
theorem Memory.read_write_from {n i : Nat} {v : F32} :
    ∀ {l : Memory}, Memory.wfFrom n l = true → ∀ j, (l.write i v).read j = if j = i then v else l.read j
  | [], _, j => by
    by_cases hv : v = posZero <;> by_cases hj : i = j <;> simp [Memory.write, Memory.read, hv, hj, eq_comm (a := j)]
  | (a, w) :: rest, hw, j => by
    simp only [Memory.wfFrom, Bool.and_eq_true, decide_eq_true_eq] at hw
    obtain ⟨⟨-, -⟩, hr⟩ := hw
    have low : ∀ k, k ≤ a → Memory.read rest k = posZero := fun k hk => Memory.read_of_lt hr (by omega)
    unfold Memory.write
    by_cases h1 : i < a
    · rw [if_pos h1]
      have hz : Memory.read ((a, w) :: rest) i = posZero := by
        simp only [Memory.read, if_neg (show a ≠ i by omega)]; exact low i (by omega)
      by_cases hv : v = Memory.unlisted
      · rw [if_pos hv]
        by_cases hj : j = i
        · subst hj; rw [if_pos rfl, hz, hv]; rfl
        · rw [if_neg hj]
      · rw [if_neg hv]
        by_cases hj : j = i
        · subst hj; simp [Memory.read]
        · rw [if_neg hj]; simp only [Memory.read, if_neg (Ne.symm hj)]
    · rw [if_neg h1]
      by_cases h2 : i = a
      · subst h2
        rw [if_pos rfl]
        by_cases hv : v = Memory.unlisted
        · rw [if_pos hv]
          by_cases hj : j = i
          · subst hj; rw [if_pos rfl, low j le_rfl, hv]; rfl
          · rw [if_neg hj]; simp only [Memory.read, if_neg (Ne.symm hj)]
        · rw [if_neg hv]
          by_cases hj : j = i
          · subst hj; simp [Memory.read]
          · rw [if_neg hj]; simp only [Memory.read, if_neg (Ne.symm hj)]
      · rw [if_neg h2]
        have ih := Memory.read_write_from (i := i) (v := v) hr j
        by_cases hj : a = j
        · subst hj
          rw [if_neg (Ne.symm h2)]
          simp [Memory.read]
        · simp only [Memory.read, if_neg hj, ih]

/-- Reading back what was written, and every other slot as before, on a canonical buffer. -/
theorem Memory.read_write {l : Memory} (h : l.wf = true) (i j : Nat) (v : F32) :
    (l.write i v).read j = if j = i then v else l.read j :=
  Memory.read_write_from h j

/-- Two canonical buffers that read alike everywhere are one list: equal contents are equal data. -/
theorem Memory.ext_from {n : Nat} : ∀ {l m : Memory}, Memory.wfFrom n l = true → Memory.wfFrom n m = true →
    (∀ j, l.read j = m.read j) → l = m
  | [], [], _, _, _ => rfl
  | [], (a, v) :: m, _, hm, h => by
    simp only [Memory.wfFrom, Bool.and_eq_true] at hm
    have := h a
    simp [Memory.read] at this
    simp [← this] at hm
  | (a, v) :: l, [], hl, _, h => by
    simp only [Memory.wfFrom, Bool.and_eq_true] at hl
    have := h a
    simp [Memory.read] at this
    simp [this] at hl
  | (a, v) :: l, (b, w) :: m, hl, hm, h => by
    simp only [Memory.wfFrom, Bool.and_eq_true, decide_eq_true_eq] at hl hm
    obtain ⟨⟨-, hv⟩, hl⟩ := hl
    obtain ⟨⟨-, hw⟩, hm⟩ := hm
    have lowl : ∀ k, k ≤ a → Memory.read l k = posZero := fun k hk => Memory.read_of_lt hl (by omega)
    have lowm : ∀ k, k ≤ b → Memory.read m k = posZero := fun k hk => Memory.read_of_lt hm (by omega)
    have hab : a = b := by
      rcases Nat.lt_trichotomy a b with hlt | heq | hlt
      · have := h a
        simp only [Memory.read, if_neg (show b ≠ a by omega), lowm a (by omega)] at this
        simp_all
      · exact heq
      · have := h b
        simp only [Memory.read, if_neg (show a ≠ b by omega), lowl b (by omega)] at this
        simp_all
    subst hab
    have hvw : v = w := by simpa [Memory.read] using h a
    subst hvw
    refine congrArg _ (Memory.ext_from hl hm fun j => ?_)
    by_cases hj : a = j
    · subst hj; rw [lowl a le_rfl, lowm a le_rfl]
    · have := h j
      simpa [Memory.read, hj] using this

end Sys2Proof.Machine
end

