-- ==== Sys2Proof/Laws/State.lean ====
section
/-! SUPPORT. One lemma per field per update of the state's records, so that later proofs unfold no record update. -/

namespace Sys2Proof.Machine

/-! The whole state. -/

@[simp] theorem State.setXtc_xtc (s : State) (x : Canceller) : (s.setXtc x).xtc = x := rfl
@[simp] theorem State.setXtc_bq (s : State) (x : Canceller) : (s.setXtc x).bq = s.bq := rfl
@[simp] theorem State.setXtc_dl (s : State) (x : Canceller) : (s.setXtc x).dl = s.dl := rfl
@[simp] theorem State.setXtc_cfb (s : State) (x : Canceller) : (s.setXtc x).cfb = s.cfb := rfl
@[simp] theorem State.setXtc_fos (s : State) (x : Canceller) : (s.setXtc x).fos = s.fos := rfl
@[simp] theorem State.setXtc_inputs (s : State) (x : Canceller) : (s.setXtc x).inputs = s.inputs := rfl
@[simp] theorem State.setXtc_port (s : State) (x : Canceller) (p : PortId) : (s.setXtc x).port p = s.port p := by cases p <;> rfl

@[simp] theorem State.setBq_xtc (s : State) (b : Biquad) : (s.setBq b).xtc = s.xtc := rfl
@[simp] theorem State.setBq_bq (s : State) (b : Biquad) : (s.setBq b).bq = b := rfl
@[simp] theorem State.setBq_dl (s : State) (b : Biquad) : (s.setBq b).dl = s.dl := rfl
@[simp] theorem State.setBq_cfb (s : State) (b : Biquad) : (s.setBq b).cfb = s.cfb := rfl
@[simp] theorem State.setBq_fos (s : State) (b : Biquad) : (s.setBq b).fos = s.fos := rfl
@[simp] theorem State.setBq_inputs (s : State) (b : Biquad) : (s.setBq b).inputs = s.inputs := rfl
@[simp] theorem State.setBq_port (s : State) (b : Biquad) (p : PortId) : (s.setBq b).port p = s.port p := by cases p <;> rfl

@[simp] theorem State.setDl_xtc (s : State) (d : DelayLine) : (s.setDl d).xtc = s.xtc := rfl
@[simp] theorem State.setDl_bq (s : State) (d : DelayLine) : (s.setDl d).bq = s.bq := rfl
@[simp] theorem State.setDl_dl (s : State) (d : DelayLine) : (s.setDl d).dl = d := rfl
@[simp] theorem State.setDl_cfb (s : State) (d : DelayLine) : (s.setDl d).cfb = s.cfb := rfl
@[simp] theorem State.setDl_fos (s : State) (d : DelayLine) : (s.setDl d).fos = s.fos := rfl
@[simp] theorem State.setDl_inputs (s : State) (d : DelayLine) : (s.setDl d).inputs = s.inputs := rfl
@[simp] theorem State.setDl_port (s : State) (d : DelayLine) (p : PortId) : (s.setDl d).port p = s.port p := by cases p <;> rfl

@[simp] theorem State.setCfb_xtc (s : State) (c : FilterBank) : (s.setCfb c).xtc = s.xtc := rfl
@[simp] theorem State.setCfb_bq (s : State) (c : FilterBank) : (s.setCfb c).bq = s.bq := rfl
@[simp] theorem State.setCfb_dl (s : State) (c : FilterBank) : (s.setCfb c).dl = s.dl := rfl
@[simp] theorem State.setCfb_cfb (s : State) (c : FilterBank) : (s.setCfb c).cfb = c := rfl
@[simp] theorem State.setCfb_fos (s : State) (c : FilterBank) : (s.setCfb c).fos = s.fos := rfl
@[simp] theorem State.setCfb_inputs (s : State) (c : FilterBank) : (s.setCfb c).inputs = s.inputs := rfl
@[simp] theorem State.setCfb_port (s : State) (c : FilterBank) (p : PortId) : (s.setCfb c).port p = s.port p := by cases p <;> rfl

@[simp] theorem State.setFos_xtc (s : State) (f : Shaper) : (s.setFos f).xtc = s.xtc := rfl
@[simp] theorem State.setFos_bq (s : State) (f : Shaper) : (s.setFos f).bq = s.bq := rfl
@[simp] theorem State.setFos_dl (s : State) (f : Shaper) : (s.setFos f).dl = s.dl := rfl
@[simp] theorem State.setFos_cfb (s : State) (f : Shaper) : (s.setFos f).cfb = s.cfb := rfl
@[simp] theorem State.setFos_fos (s : State) (f : Shaper) : (s.setFos f).fos = f := rfl
@[simp] theorem State.setFos_inputs (s : State) (f : Shaper) : (s.setFos f).inputs = s.inputs := rfl
@[simp] theorem State.setFos_port (s : State) (f : Shaper) (p : PortId) : (s.setFos f).port p = s.port p := by cases p <;> rfl

@[simp] theorem State.setInputs_xtc (s : State) (l : List Input) : (s.setInputs l).xtc = s.xtc := rfl
@[simp] theorem State.setInputs_bq (s : State) (l : List Input) : (s.setInputs l).bq = s.bq := rfl
@[simp] theorem State.setInputs_dl (s : State) (l : List Input) : (s.setInputs l).dl = s.dl := rfl
@[simp] theorem State.setInputs_cfb (s : State) (l : List Input) : (s.setInputs l).cfb = s.cfb := rfl
@[simp] theorem State.setInputs_fos (s : State) (l : List Input) : (s.setInputs l).fos = s.fos := rfl
@[simp] theorem State.setInputs_inputs (s : State) (l : List Input) : (s.setInputs l).inputs = l := rfl
@[simp] theorem State.setInputs_port (s : State) (l : List Input) (p : PortId) : (s.setInputs l).port p = s.port p := by cases p <;> rfl

@[simp] theorem State.setPort_xtc (s : State) (p : PortId) (q : Port) : (s.setPort p q).xtc = s.xtc := by cases p <;> rfl
@[simp] theorem State.setPort_bq (s : State) (p : PortId) (q : Port) : (s.setPort p q).bq = s.bq := by cases p <;> rfl
@[simp] theorem State.setPort_dl (s : State) (p : PortId) (q : Port) : (s.setPort p q).dl = s.dl := by cases p <;> rfl
@[simp] theorem State.setPort_cfb (s : State) (p : PortId) (q : Port) : (s.setPort p q).cfb = s.cfb := by cases p <;> rfl
@[simp] theorem State.setPort_fos (s : State) (p : PortId) (q : Port) : (s.setPort p q).fos = s.fos := by cases p <;> rfl
@[simp] theorem State.setPort_inputs (s : State) (p : PortId) (q : Port) : (s.setPort p q).inputs = s.inputs := by cases p <;> rfl
@[simp] theorem State.setPort_port (s : State) (p : PortId) (q : Port) : (s.setPort p q).port p = q := by cases p <;> rfl
theorem State.setPort_port_ne (s : State) (p : PortId) (q : Port) (o : PortId) (h : o ≠ p) :
    (s.setPort p q).port o = s.port o := by cases p <;> cases o <;> first | rfl | exact absurd rfl h

@[simp] theorem State.emit_xtc (s : State) (p : PortId) (ws : List Word) : (s.emit p ws).xtc = s.xtc := by cases p <;> rfl
@[simp] theorem State.emit_bq (s : State) (p : PortId) (ws : List Word) : (s.emit p ws).bq = s.bq := by cases p <;> rfl
@[simp] theorem State.emit_dl (s : State) (p : PortId) (ws : List Word) : (s.emit p ws).dl = s.dl := by cases p <;> rfl
@[simp] theorem State.emit_cfb (s : State) (p : PortId) (ws : List Word) : (s.emit p ws).cfb = s.cfb := by cases p <;> rfl
@[simp] theorem State.emit_fos (s : State) (p : PortId) (ws : List Word) : (s.emit p ws).fos = s.fos := by cases p <;> rfl
@[simp] theorem State.emit_inputs (s : State) (p : PortId) (ws : List Word) : (s.emit p ws).inputs = s.inputs := by cases p <;> rfl
@[simp] theorem State.emit_port (s : State) (p : PortId) (ws : List Word) : (s.emit p ws).port p = { s.port p with rsp := (s.port p).rsp ++ ws } := by cases p <;> rfl
theorem State.emit_port_ne (s : State) (p : PortId) (ws : List Word) (o : PortId) (h : o ≠ p) :
    (s.emit p ws).port o = s.port o := by cases p <;> cases o <;> first | rfl | exact absurd rfl h

@[simp] theorem State.consume_xtc (s : State) (p : PortId) (ws : List Word) : (s.consume p ws).xtc = s.xtc := by cases p <;> rfl
@[simp] theorem State.consume_bq (s : State) (p : PortId) (ws : List Word) : (s.consume p ws).bq = s.bq := by cases p <;> rfl
@[simp] theorem State.consume_dl (s : State) (p : PortId) (ws : List Word) : (s.consume p ws).dl = s.dl := by cases p <;> rfl
@[simp] theorem State.consume_cfb (s : State) (p : PortId) (ws : List Word) : (s.consume p ws).cfb = s.cfb := by cases p <;> rfl
@[simp] theorem State.consume_fos (s : State) (p : PortId) (ws : List Word) : (s.consume p ws).fos = s.fos := by cases p <;> rfl
@[simp] theorem State.consume_inputs (s : State) (p : PortId) (ws : List Word) : (s.consume p ws).inputs = s.inputs := by cases p <;> rfl
@[simp] theorem State.consume_port (s : State) (p : PortId) (ws : List Word) : (s.consume p ws).port p = { s.port p with cmd := ws } := by cases p <;> rfl
theorem State.consume_port_ne (s : State) (p : PortId) (ws : List Word) (o : PortId) (h : o ≠ p) :
    (s.consume p ws).port o = s.port o := by cases p <;> cases o <;> first | rfl | exact absurd rfl h

@[simp] theorem State.noteUnset_xtc (s : State) (p : PortId) (l : List RegName) : (s.noteUnset p l).xtc = s.xtc := by cases p <;> rfl
@[simp] theorem State.noteUnset_bq (s : State) (p : PortId) (l : List RegName) : (s.noteUnset p l).bq = s.bq := by cases p <;> rfl
@[simp] theorem State.noteUnset_dl (s : State) (p : PortId) (l : List RegName) : (s.noteUnset p l).dl = s.dl := by cases p <;> rfl
@[simp] theorem State.noteUnset_cfb (s : State) (p : PortId) (l : List RegName) : (s.noteUnset p l).cfb = s.cfb := by cases p <;> rfl
@[simp] theorem State.noteUnset_fos (s : State) (p : PortId) (l : List RegName) : (s.noteUnset p l).fos = s.fos := by cases p <;> rfl
@[simp] theorem State.noteUnset_inputs (s : State) (p : PortId) (l : List RegName) : (s.noteUnset p l).inputs = s.inputs := by cases p <;> rfl
@[simp] theorem State.noteUnset_port (s : State) (p : PortId) (l : List RegName) : (s.noteUnset p l).port p =
    { s.port p with unsetReads := (s.port p).unsetReads ++ l.filter fun n => !(s.port p).unsetReads.contains n } := by cases p <;> rfl
theorem State.noteUnset_port_ne (s : State) (p : PortId) (l : List RegName) (o : PortId) (h : o ≠ p) :
    (s.noteUnset p l).port o = s.port o := by cases p <;> cases o <;> first | rfl | exact absurd rfl h
@[simp] theorem State.setPort_same (s : State) (p : PortId) : s.setPort p (s.port p) = s := by cases p <;> rfl

/-- With nothing to record the state is as before. -/
@[simp] theorem State.noteUnset_nil (s : State) (p : PortId) : s.noteUnset p [] = s := by
  simp only [State.noteUnset, List.filter_nil, List.append_nil]
  exact s.setPort_same p

/-- Ports, one lemma for every port: the answer of a port after one of them was replaced. -/
theorem State.setPort_port_eq (s : State) (p o : PortId) (q : Port) :
    (s.setPort p q).port o = if o = p then q else s.port o := by cases p <;> cases o <;> rfl

/-- Every register named is on the record. -/
theorem State.mem_noteUnset (s : State) (p : PortId) {l : List RegName} {n : RegName} (h : n ∈ l) :
    n ∈ ((s.noteUnset p l).port p).unsetReads := by
  by_cases hn : n ∈ (s.port p).unsetReads <;> simp [h, hn]

/-- The same names a second time change nothing. -/
@[simp] theorem State.noteUnset_noteUnset (s : State) (p : PortId) (l : List RegName) :
    (s.noteUnset p l).noteUnset p l = s.noteUnset p l := by
  have h : (l.filter fun n => !((s.noteUnset p l).port p).unsetReads.contains n) = [] := by
    rw [List.filter_eq_nil_iff]
    intro n hn
    simp only [List.contains_iff_mem.mpr (State.mem_noteUnset s p hn), Bool.not_true, Bool.false_eq_true, not_false_iff]
  rw [State.noteUnset]
  simp only [h, List.append_nil]
  cases p <;> rfl

/-- With no `ill` flag up the run goes on. -/
theorem State.overBy_none {s : State} (h : ∀ p, (s.port p).ill = false) : s.overBy = none := by
  simp [State.overBy, h]

/-- With an `ill` flag up the run is over, by the illegal headers of a port whose flag is up. -/
theorem State.overBy_some {s : State} {p : PortId} (h : (s.port p).ill = true) :
    ∃ q, (s.port q).ill = true ∧ s.overBy = some (s.port q).illHeaders := by
  cases hf : [PortId.xtc, .bq, .dl, .cfb, .fos].find? fun q => (s.port q).ill with
  | none =>
    rw [List.find?_eq_none] at hf
    exact absurd h (hf p (by cases p <;> decide))
  | some q => exact ⟨q, List.find?_some (p := fun q => (s.port q).ill) hf, by rw [State.overBy, hf]; rfl⟩

/-- Two states with the same units, ports and inputs are the same. -/
theorem State.ext_units {s t : State} (hx : s.xtc = t.xtc) (hb : s.bq = t.bq) (hd : s.dl = t.dl) (hc : s.cfb = t.cfb)
    (hf : s.fos = t.fos) (hp : ∀ p, s.port p = t.port p) (hi : s.inputs = t.inputs) : s = t := by
  cases s; cases t
  have h1 := hp .xtc
  have h2 := hp .bq
  have h3 := hp .dl
  have h4 := hp .cfb
  have h5 := hp .fos
  simp_all [State.port]

/-! Sections. -/

@[simp] theorem setCoeffs_a1 (b : Biquad) (c : Coeffs) : (setCoeffs b c).a1 = .val c.a1 := rfl
@[simp] theorem setCoeffs_a2 (b : Biquad) (c : Coeffs) : (setCoeffs b c).a2 = .val c.a2 := rfl
@[simp] theorem setCoeffs_b0 (b : Biquad) (c : Coeffs) : (setCoeffs b c).b0 = .val c.b0 := rfl
@[simp] theorem setCoeffs_b1 (b : Biquad) (c : Coeffs) : (setCoeffs b c).b1 = .val c.b1 := rfl
@[simp] theorem setCoeffs_b2 (b : Biquad) (c : Coeffs) : (setCoeffs b c).b2 = .val c.b2 := rfl
@[simp] theorem setCoeffs_x1 (b : Biquad) (c : Coeffs) : (setCoeffs b c).x1 = b.x1 := rfl
@[simp] theorem setCoeffs_x2 (b : Biquad) (c : Coeffs) : (setCoeffs b c).x2 = b.x2 := rfl
@[simp] theorem setCoeffs_y1 (b : Biquad) (c : Coeffs) : (setCoeffs b c).y1 = b.y1 := rfl
@[simp] theorem setCoeffs_y2 (b : Biquad) (c : Coeffs) : (setCoeffs b c).y2 = b.y2 := rfl
@[simp] theorem shiftHistory_a1 (b : Biquad) (x y : F32) : (shiftHistory b x y).a1 = b.a1 := rfl
@[simp] theorem shiftHistory_a2 (b : Biquad) (x y : F32) : (shiftHistory b x y).a2 = b.a2 := rfl
@[simp] theorem shiftHistory_b0 (b : Biquad) (x y : F32) : (shiftHistory b x y).b0 = b.b0 := rfl
@[simp] theorem shiftHistory_b1 (b : Biquad) (x y : F32) : (shiftHistory b x y).b1 = b.b1 := rfl
@[simp] theorem shiftHistory_b2 (b : Biquad) (x y : F32) : (shiftHistory b x y).b2 = b.b2 := rfl
@[simp] theorem shiftHistory_x1 (b : Biquad) (x y : F32) : (shiftHistory b x y).x1 = x := rfl
@[simp] theorem shiftHistory_x2 (b : Biquad) (x y : F32) : (shiftHistory b x y).x2 = b.x1 := rfl
@[simp] theorem shiftHistory_y1 (b : Biquad) (x y : F32) : (shiftHistory b x y).y1 = y := rfl
@[simp] theorem shiftHistory_y2 (b : Biquad) (x y : F32) : (shiftHistory b x y).y2 = b.y1 := rfl

/-! Delay lines. -/

@[simp] theorem pushSample_cap (x : F32) (dl : DelayLine) : (pushSample x dl).cap = dl.cap := rfl
@[simp] theorem pushSample_interp (x : F32) (dl : DelayLine) : (pushSample x dl).interp = dl.interp := rfl
@[simp] theorem pushSample_delaySamples (x : F32) (dl : DelayLine) : (pushSample x dl).delaySamples = dl.delaySamples := rfl
@[simp] theorem pushSample_frac (x : F32) (dl : DelayLine) : (pushSample x dl).frac = dl.frac := rfl
@[simp] theorem pushSample_index (x : F32) (dl : DelayLine) : (pushSample x dl).index = nextIndex dl := rfl
@[simp] theorem pushSample_data (x : F32) (dl : DelayLine) : (pushSample x dl).data = dl.data.write dl.index x := rfl

@[simp] theorem dlSet_cap (r : DelayRequest) (i : Bool) (dl : DelayLine) : (dlSet r i dl).cap = r.len := rfl
@[simp] theorem dlSet_interp (r : DelayRequest) (i : Bool) (dl : DelayLine) : (dlSet r i dl).interp = i := rfl
@[simp] theorem dlSet_frac (r : DelayRequest) (i : Bool) (dl : DelayLine) : (dlSet r i dl).frac = r.frac := rfl
@[simp] theorem dlSet_delaySamples (r : DelayRequest) (i : Bool) (dl : DelayLine) :
    (dlSet r i dl).delaySamples = if i then .val r.d else dl.delaySamples := rfl
theorem dlSet_index (r : DelayRequest) (i : Bool) (dl : DelayLine) :
    (dlSet r i dl).index = if r.len = dl.cap then dl.index else 0 := rfl
theorem dlSet_data (r : DelayRequest) (i : Bool) (dl : DelayLine) :
    (dlSet r i dl).data = if r.len = dl.cap then dl.data else Memory.zeroFilled := rfl

/-! Shapers. -/

@[simp] theorem tuneShaper_lpState (P : Params) (e : Bool) (rate : F32) (f : Shaper) :
    (tuneShaper P e rate f).lpState = f.lpState := rfl
@[simp] theorem tuneShaper_hpState (P : Params) (e : Bool) (rate : F32) (f : Shaper) :
    (tuneShaper P e rate f).hpState = f.hpState := rfl
@[simp] theorem tuneShaper_clampEn (P : Params) (e : Bool) (rate : F32) (f : Shaper) :
    (tuneShaper P e rate f).clampEn = e := rfl
@[simp] theorem tuneShaper_lpCoeff (P : Params) (e : Bool) (rate : F32) (f : Shaper) :
    (tuneShaper P e rate f).lpCoeff = .val (onePoleCoeff P (fLp P) rate) := rfl
@[simp] theorem tuneShaper_hpCoeff (P : Params) (e : Bool) (rate : F32) (f : Shaper) :
    (tuneShaper P e rate f).hpCoeff = .val (onePoleCoeff P (fHp P) rate) := rfl
@[simp] theorem tuneShaper_floorGain (P : Params) (e : Bool) (rate : F32) (f : Shaper) :
    (tuneShaper P e rate f).floorGain = .val (dbToGain P (limitDb P)) := rfl

/-! Paths. -/

@[simp] theorem setPath_dl (P : Params) (hsm : HeadShadow) (i : Bool) (rate : F32) (r : DelayRequest) (p : Path) :
    (setPath P hsm i rate r p).cfb.dl = dlSet r i p.cfb.dl := by cases hsm <;> rfl
theorem setPath_sec (P : Params) (hsm : HeadShadow) (i : Bool) (rate : F32) (r : DelayRequest) (p : Path) :
    (setPath P hsm i rate r p).cfb.sec =
      if hsm = .biquadCascade then tuneSections P rate (hsTable P) p.cfb.sec else p.cfb.sec := by cases hsm <;> rfl
theorem setPath_fos (P : Params) (hsm : HeadShadow) (i : Bool) (rate : F32) (r : DelayRequest) (p : Path) :
    (setPath P hsm i rate r p).fos =
      if hsm = .firstOrderShaper then tuneShaper P P.fosClamp rate p.fos else p.fos := by cases hsm <;> rfl

end Sys2Proof.Machine
end

