-- ==== Sys2Proof/Laws/Units.lean ====
section
/-! SUPPORT. One lemma for each operation of a unit: everything it can do, so that later proofs cite it instead of unfolding
it (files `41_biquad.md` to `45_crosstalk_canceller.md`). -/

namespace Sys2Proof.Machine

/-! Delay lines. -/

/-- A read of a line is what `DL_GET` answers (rule R184). -/
theorem lineOutput_eq (dl : DelayLine) : lineOutput dl = readSample dl := rfl

/-- `dl_set`, slot by slot (rule R185). -/
theorem dlSet_lineSet (r : DelayRequest) (interp : Bool) (dl : DelayLine) :
    LineSet r.len interp r.d r.frac dl (dlSet r interp dl) := by
  refine ⟨rfl, rfl, rfl, rfl, fun h => ?_, fun h => ?_⟩
  · simp [dlSet_index, dlSet_data, h]
  · simp [dlSet_index, dlSet_data, Ne.symm h]

/-- A put, slot by slot (rule R183). -/
theorem pushSample_linePushed (x : F32) {dl : DelayLine} (h : dl.data.wf = true) : LinePushed x dl (pushSample x dl) := by
  refine ⟨?_, fun j hj => ?_, rfl⟩
  · rw [pushSample_data, Memory.read_write h, if_pos rfl]
  · rw [pushSample_data, Memory.read_write h, if_neg hj]

theorem checkConfigured_ok {op : Op} {dl : DelayLine} (h : dl.cap ≠ 0) : checkConfigured op dl = .ok ⟨⟩ := by
  simp [checkConfigured, h]
theorem checkConfigured_error {op : Op} {dl : DelayLine} (h : dl.cap = 0) :
    checkConfigured op dl = .error (.unconfigured op) := by simp [checkConfigured, h]

theorem putSample_ok {op : Op} {x : F32} {dl : DelayLine} (h : dl.cap ≠ 0) : putSample op x dl = .ok (pushSample x dl) := by
  simp only [putSample, checkConfigured_ok h, ok_bind]; rfl
theorem putSample_error {op : Op} {x : F32} {dl : DelayLine} (h : dl.cap = 0) :
    putSample op x dl = .error (.unconfigured op) := by
  simp only [putSample, checkConfigured_error h, error_bind]
theorem getSample_ok {op : Op} {dl : DelayLine} (h : dl.cap ≠ 0) : getSample op dl = .ok (readSample dl) := by
  simp only [getSample, checkConfigured_ok h, ok_bind]; rfl
theorem getSample_error {op : Op} {dl : DelayLine} (h : dl.cap = 0) : getSample op dl = .error (.unconfigured op) := by
  simp only [getSample, checkConfigured_error h, error_bind]

/-- A put that succeeds: the line was configured, and it is the line with the sample pushed. -/
theorem putSample_spec {op : Op} {x : F32} {dl dl' : DelayLine} (h : putSample op x dl = .ok dl') :
    dl.cap ≠ 0 ∧ dl' = pushSample x dl := by
  by_cases hc : dl.cap = 0
  · rw [putSample_error hc] at h; cases h
  · rw [putSample_ok hc] at h; exact ⟨hc, (Except.ok.inj h).symm⟩

/-- A get that succeeds: the line was configured, and it answers the read. -/
theorem getSample_spec {op : Op} {dl : DelayLine} {y : F32} (h : getSample op dl = .ok y) : dl.cap ≠ 0 ∧ y = readSample dl := by
  by_cases hc : dl.cap = 0
  · rw [getSample_error hc] at h; cases h
  · rw [getSample_ok hc] at h; exact ⟨hc, (Except.ok.inj h).symm⟩

/-- What `DL_CONFIGURE` does to a line where it succeeds. -/
theorem configureWhole_spec {P : Params} {len : BitVec 24} {dl dl' : DelayLine} (h : configureWhole P len dl = .ok dl') :
    1 ≤ len.toNat ∧ len.toNat ≤ dlMax P ∧ dl' = dlSet { len := len.toNat, d := posZero, frac := posZero } false dl := by
  obtain ⟨u, h1, h⟩ := bind_ok h
  obtain ⟨v, h2, h⟩ := bind_ok h
  have := of_decide_eq_true (require_ok h1)
  exact ⟨by omega, checkCapacity_passed h2, (pure_ok h).symm⟩

/-- What `DL_CONFIGURE_FRAC` does to a line where it succeeds. -/
theorem configureFrac_spec {P : Params} {d : F32} {dl dl' : DelayLine} (h : configureFrac P d dl = .ok dl') :
    0 < ceilF d ∧ (ceilF d).toNat ≤ dlMax P ∧
    dl' = dlSet { len := (ceilF d).toNat, d := d, frac := fsub (i2f (ceilF d).toNat) d } true dl := by
  obtain ⟨u, h1, h⟩ := bind_ok h
  obtain ⟨v, h2, h⟩ := bind_ok h
  obtain ⟨w, h3, h⟩ := bind_ok h
  exact ⟨of_decide_eq_true (require_ok h2), checkCapacity_passed h3, (pure_ok h).symm⟩

/-! Sections. -/

/-- What `BQ_PROCESS` does to a section (rule R158). -/
theorem processBiquad_sectionFed (x : F32) (b : Biquad) : SectionFed x b (processBiquad x b).1 (processBiquad x b).2 := ⟨rfl, rfl⟩

/-- A section fed a sample is what `BQ_PROCESS` makes of it. -/
theorem SectionFed.eq {x y : F32} {b b' : Biquad} (h : SectionFed x b b' y) : processBiquad x b = (b', y) := by
  obtain ⟨rfl, rfl⟩ := h
  rfl

/-- A section reads no Unset coefficient exactly when it is tuned. -/
theorem unsetCoeffs_eq_nil {b : Biquad} : unsetCoeffs b = [] ↔ Tuned b := by
  rw [unsetCoeffs, unsetOf_eq_nil]
  simp [Tuned]
  tauto

@[simp] theorem tuned_shiftHistory (b : Biquad) (x y : F32) : Tuned (shiftHistory b x y) ↔ Tuned b := Iff.rfl
@[simp] theorem untuned_shiftHistory (b : Biquad) (x y : F32) : Untuned (shiftHistory b x y) ↔ Untuned b := Iff.rfl
theorem tuned_setCoeffs (b : Biquad) (c : Coeffs) : Tuned (setCoeffs b c) := ⟨rfl, rfl, rfl, rfl, rfl⟩
theorem tuned_tune (P : Params) (k : Kind) (freq rate q g : F32) (b : Biquad) : Tuned (tune P k freq rate q g b) :=
  tuned_setCoeffs _ _
theorem sameHistory_tune (P : Params) (k : Kind) (freq rate q g : F32) (b : Biquad) :
    SameHistory b (tune P k freq rate q g b) := ⟨rfl, rfl, rfl, rfl⟩
theorem coeffsWritten_tune (P : Params) (k : Kind) (freq rate q g : F32) (b : Biquad) :
    CoeffsWritten (bqCoef P k freq rate q g) b (tune P k freq rate q g b) := rfl

/-! Cascades. -/

/-- What a cascade does (rule R213). -/
theorem cascade_cascadeFed : ∀ (n : Nat) (x : F32) (secs : List Biquad),
    CascadeFed n x secs (cascade n x secs).1 (cascade n x secs).2
  | 0, _, _ => ⟨rfl, rfl⟩
  | _ + 1, _, [] => ⟨rfl, rfl⟩
  | n + 1, x, b :: bs => ⟨_, _, _, processBiquad_sectionFed x b, cascade_cascadeFed n _ bs, rfl⟩

/-- Sections fed a sample are what the cascade makes of them. -/
theorem CascadeFed.eq : ∀ {n : Nat} {x y : F32} {bs bs' : List Biquad}, CascadeFed n x bs bs' y → cascade n x bs = (bs', y)
  | 0, _, _, _, _, ⟨rfl, rfl⟩ => rfl
  | _ + 1, _, _, [], _, ⟨rfl, rfl⟩ => rfl
  | n + 1, x, y, b :: bs, _, ⟨b', v, rest, hb, hr, rfl⟩ => by
    simp only [cascade, hb.eq, hr.eq]

/-- The first `NSEC` sections read no Unset coefficient exactly when they are tuned. -/
theorem unsetSections_eq_nil {P : Params} {secs : List Biquad} :
    unsetSections P secs = [] ↔ ∀ b ∈ secs.take (nsec P), Tuned b := by
  simp only [unsetSections, List.flatMap_eq_nil_iff, unsetCoeffs_eq_nil]

/-- Two sections with the same coefficient registers. -/
def SameCoeffs (a b : Biquad) : Prop := b.a1 = a.a1 ∧ b.a2 = a.a2 ∧ b.b0 = a.b0 ∧ b.b1 = a.b1 ∧ b.b2 = a.b2

theorem SameCoeffs.refl (a : Biquad) : SameCoeffs a a := ⟨rfl, rfl, rfl, rfl, rfl⟩
theorem SameCoeffs.tuned {a b : Biquad} (h : SameCoeffs a b) : Tuned b ↔ Tuned a := by
  obtain ⟨h1, h2, h3, h4, h5⟩ := h
  simp only [Tuned, h1, h2, h3, h4, h5]
theorem SameCoeffs.together {a b : Biquad} (h : SameCoeffs a b) : CoeffsTogether b ↔ CoeffsTogether a := by
  obtain ⟨h1, h2, h3, h4, h5⟩ := h
  simp only [CoeffsTogether, Tuned, Untuned, h1, h2, h3, h4, h5]

/-- A cascade keeps the coefficients of every section. -/
theorem cascade_sameCoeffs : ∀ (n : Nat) (x : F32) (secs : List Biquad), List.Forall₂ SameCoeffs secs (cascade n x secs).1
  | 0, _, _ => List.forall₂_same.mpr fun b _ => SameCoeffs.refl b
  | _ + 1, _, [] => .nil
  | n + 1, _, _ :: bs => .cons ⟨rfl, rfl, rfl, rfl, rfl⟩ (cascade_sameCoeffs n _ bs)

theorem putBank_ok {P : Params} {op : Op} (x : F32) {c : FilterBank} (hc : c.dl.cap ≠ 0) :
    putBank P op x c =
      .ok { sec := (cascade (nsec P) x c.sec).1, dl := pushSample (cascade (nsec P) x c.sec).2 c.dl } := by
  simp only [putBank, checkConfigured_ok hc, putSample_ok hc, ok_bind]; rfl

/-- What `CFB_PUT` does to a bank where it succeeds (rule R213). -/
theorem putBank_spec {P : Params} {op : Op} {x : F32} {c c' : FilterBank} (h : putBank P op x c = .ok c') :
    c.dl.cap ≠ 0 ∧
    c' = { sec := (cascade (nsec P) x c.sec).1, dl := pushSample (cascade (nsec P) x c.sec).2 c.dl } := by
  by_cases hc : c.dl.cap = 0
  · simp only [putBank, checkConfigured_error hc, error_bind] at h; cases h
  · rw [putBank_ok x hc] at h; exact ⟨hc, (Except.ok.inj h).symm⟩

/-- Tuning from a table, section by section (rule R212). -/
theorem tuneSections_spec (P : Params) (rate : F32) : ∀ (es : List Entry) (bs : List Biquad),
    (tuneSections P rate es bs).length = bs.length ∧
    ∀ (k : Nat) (b : Biquad), bs[k]? = some b →
      (es[k]? = none → (tuneSections P rate es bs)[k]? = some b) ∧
      ∀ e, es[k]? = some e → (tuneSections P rate es bs)[k]? = some (tune P e.kind e.freq rate e.q e.gainDb b)
  | [], bs => by simp [tuneSections]
  | _ :: _, [] => by simp [tuneSections]
  | e :: es, b :: bs => by
    obtain ⟨h1, h2⟩ := tuneSections_spec P rate es bs
    refine ⟨by simp [tuneSections, h1], fun k a ha => ?_⟩
    cases k with
    | zero =>
      simp only [List.getElem?_cons_zero, Option.some.injEq, reduceCtorEq, false_implies, true_and] at ha ⊢
      subst ha
      rintro e' rfl
      rfl
    | succ k =>
      simp only [List.getElem?_cons_succ, tuneSections] at ha ⊢
      exact h2 k a ha

theorem tuneSections_sectionsTuned (P : Params) (rate : F32) (bs : List Biquad) :
    SectionsTuned P rate bs (tuneSections P rate (hsTable P) bs) := by
  obtain ⟨h1, h2⟩ := tuneSections_spec P rate (hsTable P) bs
  refine ⟨h1, fun k b hb => ⟨(h2 k b hb).1, fun e he => ⟨_, (h2 k b hb).2 e he, coeffsWritten_tune ..⟩⟩⟩

/-- Every section of a tuned bank has the history it had. -/
theorem tuneSections_histories (P : Params) (rate : F32) : ∀ (es : List Entry) (bs : List Biquad),
    SameHistories bs (tuneSections P rate es bs)
  | [], _ => List.forall₂_same.mpr fun _ _ => ⟨rfl, rfl, rfl, rfl⟩
  | _ :: _, [] => .nil
  | _ :: es, _ :: bs => .cons (sameHistory_tune ..) (tuneSections_histories P rate es bs)

/-- Sections whose coefficients are those of tuned ones are tuned. -/
theorem bankTuned_sameCoeffs {P : Params} {as bs : List Biquad} (h : List.Forall₂ SameCoeffs as bs) (ha : BankTuned P as) :
    BankTuned P bs := by
  refine ⟨h.length_eq ▸ ha.1, ?_⟩
  have key : ∀ (n : Nat) {as bs : List Biquad}, List.Forall₂ SameCoeffs as bs → (∀ b ∈ as.take n, Tuned b) →
      ∀ b ∈ bs.take n, Tuned b := by
    intro n as bs h
    induction h generalizing n with
    | nil => simp
    | cons hab _ ih =>
      cases n with
      | zero => simp
      | succ n =>
        intro ht b hb
        rcases List.mem_cons.mp (by simpa using hb) with rfl | hb
        · exact hab.tuned.mpr (ht _ (by simp))
        · exact ih n (fun c hc => ht c (by simp [hc])) b hb
  exact key _ h ha.2

theorem together_sameCoeffs {as bs : List Biquad} (h : List.Forall₂ SameCoeffs as bs) (ha : ∀ b ∈ as, CoeffsTogether b) :
    ∀ b ∈ bs, CoeffsTogether b := by
  induction h with
  | nil => simp
  | cons hab _ ih =>
    intro b hb
    rcases List.mem_cons.mp hb with rfl | hb
    · exact hab.together.mpr (ha _ (by simp))
    · exact ih (fun c hc => ha c (by simp [hc])) b hb

/-! Shapers. -/

/-- What `FOS_PROCESS` does to a shaper (rule R233). -/
theorem processShaper_shaperFed (x : F32) (f : Shaper) : ShaperFed x f (processShaper x f).1 (processShaper x f).2 := ⟨rfl, rfl⟩

@[simp] theorem processShaper_lpCoeff (x : F32) (f : Shaper) : (processShaper x f).1.lpCoeff = f.lpCoeff := rfl
@[simp] theorem processShaper_hpCoeff (x : F32) (f : Shaper) : (processShaper x f).1.hpCoeff = f.hpCoeff := rfl
@[simp] theorem processShaper_floorGain (x : F32) (f : Shaper) : (processShaper x f).1.floorGain = f.floorGain := rfl
@[simp] theorem processShaper_clampEn (x : F32) (f : Shaper) : (processShaper x f).1.clampEn = f.clampEn := rfl

/-- Which coefficients `FOS_PROCESS` reads while Unset. -/
theorem unsetShaper_eq_nil {f : Shaper} : unsetShaper f = [] ↔
    f.lpCoeff.written = true ∧ (f.clampEn = true → f.floorGain.written = true) ∧ f.hpCoeff.written = true := by
  rw [unsetShaper, unsetOf_eq_nil]
  cases f.clampEn <;> simp

theorem ShaperTuned.unsetShaper {f : Shaper} (h : ShaperTuned f) : unsetShaper f = [] :=
  unsetShaper_eq_nil.mpr ⟨h.1, fun _ => h.2.2, h.2.1⟩

end Sys2Proof.Machine
end

