-- ==== Sys2Proof/Laws/Block.lean ====
section
/-! SUPPORT. The top-level block: what a path, a sample, a block of samples and a reconfigure can do (file
`45_crosstalk_canceller.md`). -/

namespace Sys2Proof.Machine

/-! Paths. -/

/-- The path after one `path_put`: one sample pushed, histories moved on, every coefficient as before. -/
structure Pushed (p p' : Path) : Prop where
  line : ∃ v, p'.cfb.dl = pushSample v p.cfb.dl
  coeffs : List.Forall₂ SameCoeffs p.cfb.sec p'.cfb.sec
  lp : p'.fos.lpCoeff = p.fos.lpCoeff
  hp : p'.fos.hpCoeff = p.fos.hpCoeff
  fg : p'.fos.floorGain = p.fos.floorGain
  clamp : p'.fos.clampEn = p.fos.clampEn

theorem Pushed.cap {p p' : Path} (h : Pushed p p') : p'.cfb.dl.cap = p.cfb.dl.cap := by
  obtain ⟨v, hv⟩ := h.line
  rw [hv, pushSample_cap]

theorem sameCoeffs_refl (l : List Biquad) : List.Forall₂ SameCoeffs l l := List.forall₂_same.mpr fun b _ => SameCoeffs.refl b

/-- What `path_put` can do where it succeeds (rule R254). -/
theorem pathPut_spec {P : Params} {hsm : HeadShadow} {v : F32} {p p' : Path} (h : pathPut P hsm v p = .ok p') :
    p.cfb.dl.cap ≠ 0 ∧ Pushed p p' := by
  cases hsm with
  | none =>
    obtain ⟨dl, h1, h⟩ := bind_ok h
    obtain ⟨hc, rfl⟩ := putSample_spec h1
    obtain rfl := pure_ok h
    exact ⟨hc, ⟨_, rfl⟩, sameCoeffs_refl _, rfl, rfl, rfl, rfl⟩
  | firstOrderShaper =>
    obtain ⟨dl, h2, h⟩ := bind_ok h
    obtain ⟨hc, rfl⟩ := putSample_spec h2
    obtain rfl := pure_ok h
    exact ⟨hc, ⟨_, rfl⟩, sameCoeffs_refl _, rfl, rfl, rfl, rfl⟩
  | biquadCascade =>
    obtain ⟨c, h1, h⟩ := bind_ok h
    obtain ⟨hc, rfl⟩ := putBank_spec h1
    obtain rfl := pure_ok h
    exact ⟨hc, ⟨_, rfl⟩, cascade_sameCoeffs .., rfl, rfl, rfl, rfl⟩

/-- With the line configured `path_put` succeeds, in every head-shadow model (rule R254). -/
theorem pathPut_ok {P : Params} {hsm : HeadShadow} {p : Path} (v : F32) (hc : p.cfb.dl.cap ≠ 0) :
    ∃ p', pathPut P hsm v p = .ok p' ∧ (p.cfb.dl.data.wf = true → PathFed P hsm v p p') := by
  cases hsm with
  | none =>
    exact ⟨_, by simp only [pathPut, putSample_ok hc, ok_bind]; rfl, fun h => ⟨_, pushSample_linePushed v h, rfl⟩⟩
  | firstOrderShaper =>
    exact ⟨_, by simp only [pathPut, putSample_ok hc, ok_bind]; rfl,
      fun h => ⟨_, _, _, processShaper_shaperFed v p.fos, pushSample_linePushed _ h, rfl⟩⟩
  | biquadCascade =>
    exact ⟨_, by simp only [pathPut, putBank_ok v hc, ok_bind]; rfl,
      fun h => ⟨_, _, _, cascade_cascadeFed (nsec P) v p.cfb.sec, pushSample_linePushed _ h, rfl⟩⟩

theorem pathGet_ok {p : Path} (h : p.cfb.dl.cap ≠ 0) : pathGet p = .ok (readSample p.cfb.dl) := getSample_ok h

/-- A pushed path is as tuned as it was. -/
theorem Pushed.modelTuned {P : Params} {hsm : HeadShadow} {p p' : Path} (h : Pushed p p') (ht : ModelTuned P hsm p) :
    ModelTuned P hsm p' := by
  cases hsm with
  | none => trivial
  | firstOrderShaper => simpa only [ModelTuned, ShaperTuned, h.lp, h.hp, h.fg] using ht
  | biquadCascade => exact bankTuned_sameCoeffs h.coeffs ht

/-! Samples. -/

/-- The block after one sample: path A pushed, path B pushed or (in phantom mode) untouched, all else as before. -/
structure Sampled (x x' : Canceller) : Prop where
  rest : x' = { x with pathA := x'.pathA, pathB := x'.pathB }
  pathA : Pushed x.pathA x'.pathA
  pathB : (x.phantom = true ∧ x'.pathB = x.pathB) ∨ (x.phantom = false ∧ Pushed x.pathB x'.pathB)

/-- What a sample can do where it succeeds (rules R255, R256, R259). -/
theorem samplePair_spec {P : Params} {tap : FbTap} {x x' : Canceller} {l r : F32} {y : F32 × F32}
    (h : samplePair P tap x l r = .ok (x', y)) : Sampled x x' := by
  unfold samplePair at h
  cases hp : x.phantom with
  | false =>
    simp only [hp, Bool.false_eq_true, if_false] at h
    obtain ⟨c1, -, h⟩ := bind_ok h
    obtain ⟨c2, -, h⟩ := bind_ok h
    obtain ⟨pa, ha, h⟩ := bind_ok h
    obtain ⟨pb, hb, h⟩ := bind_ok h
    obtain ⟨rfl, -⟩ := Prod.mk.inj (pure_ok h)
    exact ⟨rfl, (pathPut_spec ha).2, .inr ⟨hp, (pathPut_spec hb).2⟩⟩
  | true =>
    simp only [hp, if_true] at h
    obtain ⟨c, -, h⟩ := bind_ok h
    obtain ⟨pa, ha, h⟩ := bind_ok h
    obtain ⟨rfl, -⟩ := Prod.mk.inj (pure_ok h)
    exact ⟨rfl, (pathPut_spec ha).2, .inl ⟨hp, rfl⟩⟩

/-- With both lines configured a sample never faults (rule R256). -/
theorem samplePair_ok {P : Params} {x : Canceller} (tap : FbTap) (l r : F32) (hA : x.pathA.cfb.dl.cap ≠ 0)
    (hB : x.pathB.cfb.dl.cap ≠ 0) : ∃ x' y, samplePair P tap x l r = .ok (x', y) := by
  unfold samplePair
  cases hp : x.phantom with
  | false =>
    simp only [Bool.false_eq_true, if_false, sampleGeneral, pathGet_ok hA, pathGet_ok hB, ok_bind]
    generalize fsub l (fmul x.decayGain.value (readSample x.pathB.cfb.dl)) = lo
    generalize fsub r (fmul x.decayGain.value (readSample x.pathA.cfb.dl)) = ro
    cases tap with
    | pre =>
      obtain ⟨pa, ha, -⟩ := pathPut_ok (P := P) (hsm := x.hsm) lo hA
      obtain ⟨pb, hb, -⟩ := pathPut_ok (P := P) (hsm := x.hsm) ro hB
      exact ⟨_, _, by rw [ha, ok_bind, hb, ok_bind]; rfl⟩
    | post =>
      obtain ⟨pa, ha, -⟩ := pathPut_ok (P := P) (hsm := x.hsm) (finalPair x l r lo ro).1 hA
      obtain ⟨pb, hb, -⟩ := pathPut_ok (P := P) (hsm := x.hsm) (finalPair x l r lo ro).2 hB
      exact ⟨_, _, by rw [ha, ok_bind, hb, ok_bind]; rfl⟩
  | true =>
    simp only [if_true, samplePhantom, pathGet_ok hA, ok_bind]
    obtain ⟨pa, ha, -⟩ :=
      pathPut_ok (P := P) (hsm := x.hsm) (fsub (fadd l r) (fmul x.decayGain.value (readSample x.pathA.cfb.dl))) hA
    exact ⟨_, _, by rw [ha, ok_bind]; rfl⟩

/-- A sample keeps the capacity of path B's line. -/
theorem Sampled.capB {x x' : Canceller} (h : Sampled x x') : x'.pathB.cfb.dl.cap = x.pathB.cfb.dl.cap := by
  rcases h.pathB with ⟨-, hb⟩ | ⟨-, hb⟩
  · rw [hb]
  · exact hb.cap

/-- A sample keeps what Ready holds. -/
theorem Sampled.readyOk {P : Params} {x x' : Canceller} (h : Sampled x x') (hr : ReadyOk P x) : ReadyOk P x' := by
  have e := h.rest
  have hm : ModelTuned P x.hsm x'.pathB := by
    rcases h.pathB with ⟨-, hb⟩ | ⟨-, hb⟩
    · rw [hb]; exact hr.modelB
    · exact hb.modelTuned hr.modelB
  refine ⟨?_, ?_, ?_, ?_, ?_, ?_⟩
  · rw [h.pathA.cap]; exact hr.capA
  · rw [h.capB, h.pathA.cap, hr.capB]
  · rw [e]; exact hr.config
  · rw [e]; exact hr.gains
  · rw [e]; exact h.pathA.modelTuned hr.modelA
  · rw [e]; exact hm

/-! Blocks of samples (rule R255). -/

/-- What holds along every sample, and composes, holds along a block. -/
theorem processPairs_rel {P : Params} {tap : FbTap} (R : Canceller → Canceller → Prop) (refl : ∀ x, R x x)
    (step : ∀ {x x' x''}, Sampled x x' → R x' x'' → R x x'') :
    ∀ {ps : List (F32 × F32)} {x x' : Canceller} {ws : List Word}, processPairs P tap x ps = .ok (x', ws) → R x x'
  | [], x, x', ws, h => by
    obtain ⟨rfl, -⟩ := Prod.mk.inj (Except.ok.inj h)
    exact refl x
  | p :: rest, x, x', ws, h => by
    obtain ⟨⟨x1, y⟩, h1, h⟩ := bind_ok h
    obtain ⟨⟨x2, vs⟩, h2, h⟩ := bind_ok h
    obtain ⟨rfl, -⟩ := Prod.mk.inj (pure_ok h)
    exact step (samplePair_spec h1) (processPairs_rel R refl step h2)

/-- A block answers two words for each pair. -/
theorem processPairs_length {P : Params} {tap : FbTap} :
    ∀ {ps : List (F32 × F32)} {x x' : Canceller} {ws : List Word}, processPairs P tap x ps = .ok (x', ws) →
      ws.length = 2 * ps.length
  | [], x, x', ws, h => by
    obtain ⟨-, rfl⟩ := Prod.mk.inj (Except.ok.inj h)
    rfl
  | p :: rest, x, x', ws, h => by
    obtain ⟨⟨x1, y⟩, -, h⟩ := bind_ok h
    obtain ⟨⟨x2, vs⟩, h2, h⟩ := bind_ok h
    obtain ⟨-, rfl⟩ := Prod.mk.inj (pure_ok h)
    have := processPairs_length h2
    simp only [List.length_cons]; omega

/-- With both lines configured a block never faults. -/
theorem processPairs_ok {P : Params} (tap : FbTap) : ∀ (ps : List (F32 × F32)) (x : Canceller),
    x.pathA.cfb.dl.cap ≠ 0 → x.pathB.cfb.dl.cap ≠ 0 → ∃ x' ws, processPairs P tap x ps = .ok (x', ws)
  | [], x, _, _ => ⟨x, [], rfl⟩
  | p :: rest, x, hA, hB => by
    obtain ⟨x1, y, h1⟩ := samplePair_ok (P := P) tap p.1 p.2 hA hB
    have hs := samplePair_spec h1
    obtain ⟨x2, vs, h2⟩ := processPairs_ok (P := P) tap rest x1 (hs.pathA.cap ▸ hA) (hs.capB ▸ hB)
    exact ⟨x2, y.1 :: y.2 :: vs, by simp only [processPairs, h1, ok_bind, h2]; rfl⟩

/-- A block in two pieces: the second goes on where the first ended. -/
theorem processPairs_append (P : Params) (tap : FbTap) : ∀ (ps qs : List (F32 × F32)) (x : Canceller),
    processPairs P tap x (ps ++ qs) =
      (processPairs P tap x ps >>= fun t => processPairs P tap t.1 qs >>= fun u => pure (u.1, t.2 ++ u.2))
  | [], qs, x => by
    simp only [List.nil_append, processPairs, ok_bind]
    cases processPairs P tap x qs <;> rfl
  | p :: rest, qs, x => by
    simp only [List.cons_append, processPairs]
    cases h : samplePair P tap x p.1 p.2 with
    | error e => rfl
    | ok t =>
      simp only [ok_bind, processPairs_append P tap rest qs t.1]
      cases h2 : processPairs P tap t.1 rest with
      | error e => rfl
      | ok u =>
        simp only [ok_bind]
        cases h3 : processPairs P tap u.1 qs with
        | error e => simp only [error_bind, h3, pure, Except.pure, ok_bind]
        | ok v => simp only [ok_bind, h3, pure, Except.pure, List.cons_append]

/-- What `XTC_PROCESS` can do where it succeeds (rules R255, R260). -/
theorem processBlock_spec {P : Params} {tap : FbTap} {ps : List (F32 × F32)} {x x' : Canceller} {ws : List Word}
    (h : processBlock P tap ps x = .ok (x', ws)) :
    (x.bypass = true ∧ x' = x ∧ ws = interleave ps) ∨
    (x.bypass = false ∧ x.phase ≠ .unconfigured ∧
      ∃ x1, processPairs P tap { x with phase := .processing } ps = .ok (x1, ws) ∧ x' = { x1 with phase := .ready }) := by
  unfold processBlock at h
  by_cases hb : x.bypass = true
  · rw [if_pos hb] at h
    obtain ⟨rfl, rfl⟩ := Prod.mk.inj (Except.ok.inj h)
    exact .inl ⟨hb, rfl, rfl⟩
  · rw [if_neg hb] at h
    by_cases hp : x.phase = .unconfigured
    · rw [if_pos hp] at h; cases h
    · rw [if_neg hp] at h
      obtain ⟨⟨x1, vs⟩, h1, h⟩ := bind_ok h
      obtain ⟨rfl, rfl⟩ := Prod.mk.inj (pure_ok h)
      exact .inr ⟨Bool.eq_false_iff.mpr hb, hp, x1, h1, rfl⟩

/-- What holds along every sample, composes and does not look at the state-machine register holds along `XTC_PROCESS`. -/
theorem processBlock_rel {P : Params} {tap : FbTap} (R : Canceller → Canceller → Prop) (refl : ∀ x, R x x)
    (step : ∀ {x x' x''}, Sampled x x' → R x' x'' → R x x'')
    (phase : ∀ {x x' : Canceller} (f g : Phase), R { x with phase := f } x' → R x { x' with phase := g })
    {ps : List (F32 × F32)} {x x' : Canceller} {ws : List Word} (h : processBlock P tap ps x = .ok (x', ws)) : R x x' := by
  rcases processBlock_spec h with ⟨-, rfl, -⟩ | ⟨-, -, x1, h1, rfl⟩
  · exact refl _
  · exact phase _ _ (processPairs_rel R refl step h1)

/-! Unset registers (rule R301, code 3). -/

/-- Sections with the same coefficient registers read the same Unset ones. -/
theorem unsetSections_sameCoeffs {P : Params} {as bs : List Biquad} (h : List.Forall₂ SameCoeffs as bs) :
    unsetSections P bs = unsetSections P as := by
  unfold unsetSections
  generalize nsec P = n
  induction h generalizing n with
  | nil => simp
  | cons hab _ ih =>
    cases n with
    | zero => simp
    | succ n =>
      obtain ⟨h1, h2, h3, h4, h5⟩ := hab
      simp only [List.take_succ_cons, List.flatMap_cons, ih n, unsetCoeffs, h1, h2, h3, h4, h5]

theorem Pushed.unsetPath {P : Params} {hsm : HeadShadow} {p p' : Path} (h : Pushed p p') :
    unsetPath P hsm p' = unsetPath P hsm p := by
  cases hsm with
  | none => rfl
  | firstOrderShaper => simp only [Machine.unsetPath, unsetShaper, h.lp, h.hp, h.fg, h.clamp]
  | biquadCascade => exact unsetSections_sameCoeffs h.coeffs

/-- A sample reads the same Unset registers as the one before it. -/
theorem Sampled.unsetSample {P : Params} {x x' : Canceller} (h : Sampled x x') : unsetSample P x' = unsetSample P x := by
  have hB : (if x.phantom then [] else unsetPath P x.hsm x'.pathB) = if x.phantom then [] else unsetPath P x.hsm x.pathB := by
    rcases h.pathB with ⟨-, hb⟩ | ⟨-, hb⟩
    · rw [hb]
    · rw [hb.unsetPath]
  have e := h.rest
  have hA := h.pathA.unsetPath (P := P) (hsm := x.hsm)
  rw [e] at hA hB ⊢
  simp only [Machine.unsetSample] at hA hB ⊢
  rw [hA, hB]

/-- In Ready a sample reads no Unset register (rule R256: "`XTC_RECONFIGURE` has configured and tuned everything that the
selected model reads"). -/
theorem ReadyOk.unsetSample {P : Params} {x : Canceller} (h : ReadyOk P x) : unsetSample P x = [] := by
  obtain ⟨h1, h2, h3⟩ := h.gains
  have path : ∀ p, ModelTuned P x.hsm p → unsetPath P x.hsm p = [] := fun p hp => by
    cases hm : x.hsm with
    | none => rfl
    | firstOrderShaper => rw [hm] at hp; exact ShaperTuned.unsetShaper hp
    | biquadCascade => rw [hm] at hp; exact unsetSections_eq_nil.mpr hp.2
  have gains : unsetOf ([(.xtcDecayGain, x.decayGain)] ++
      (if x.cen && !x.phantom then [(.xtcCenterGain, x.centerGain), (.xtcGainComp, x.gainComp)] else [])) = [] := by
    rw [unsetOf_eq_nil]
    split <;> simp [h1, h2, h3]
  simp only [Machine.unsetSample, gains, path _ h.modelA, path _ h.modelB, ite_self, List.append_nil]

/-! Reconfigure (rules R252, R253). -/

theorem checkModel_cases (P : Params) (hsm : HeadShadow) {rate : F32} (hf : isFinite rate = true) (hr : 0 < scaled rate) :
    (checkModel P hsm rate = .ok ⟨⟩ ∧ ValidModel P hsm rate) ∨
    ((∃ x, checkModel P hsm rate = .error (.config .xtcReconfigure x)) ∧ ¬ValidModel P hsm rate) := by
  cases hsm with
  | none => exact .inl ⟨rfl, trivial⟩
  | firstOrderShaper =>
    refine .inl ⟨?_, validModel_shaper P rate⟩
    simp only [checkModel, checkShaperParams, fLp, fHp, limitDb, isPositive_forcePositive, isFinite_forceFinite,
      require_true, ok_bind]
  | biquadCascade => exact checkTable_cases P _ hf hr

/-- The checks of `XTC_RECONFIGURE`: all pass, with the request, exactly on a valid configuration within `DL_MAX`. -/
theorem checkConfig_cases (P : Params) (hsm : HeadShadow) (interp : Bool) (rate delayUs decayDb centerDb : F32) :
    let r := delayRequest (delaySamplesOf delayUs rate) interp
    (ValidConfig P hsm rate delayUs decayDb centerDb ∧ r.len ≤ dlMax P ∧
      checkConfig P hsm interp rate delayUs decayDb centerDb = .ok r) ∨
    (ValidConfig P hsm rate delayUs decayDb centerDb ∧ dlMax P < r.len ∧
      checkConfig P hsm interp rate delayUs decayDb centerDb = .error (.capacity r.len)) ∨
    (¬ValidConfig P hsm rate delayUs decayDb centerDb ∧
      ∃ x, checkConfig P hsm interp rate delayUs decayDb centerDb = .error (.config .xtcReconfigure x)) := by
  intro r
  unfold checkConfig
  rcases requireFinite_cases .xtcReconfigure
    [(.rate, rate), (.delayUs, delayUs), (.decayDb, decayDb), (.centerDb, centerDb)] with ⟨hk, hf⟩ | ⟨⟨x, hk⟩, e, he, hn⟩
  · have f1 : isFinite rate = true := hf (.rate, rate) (by simp)
    have f2 : isFinite delayUs = true := hf (.delayUs, delayUs) (by simp)
    have f3 : isFinite decayDb = true := hf (.decayDb, decayDb) (by simp)
    have f4 : isFinite centerDb = true := hf (.centerDb, centerDb) (by simp)
    rw [hk, ok_bind]
    by_cases hr : 0 < scaled rate
    · rw [(isPositive_iff _).mpr ⟨f1, hr⟩, require_true, ok_bind]
      by_cases hd : 0 ≤ scaled delayUs
      · rw [decide_eq_true hd, require_true, ok_bind]
        by_cases hv : ValidDelay delayUs rate
        · rw [delayLen_ok hv, ok_bind]
          rcases checkModel_cases P hsm f1 hr with ⟨hm, vm⟩ | ⟨⟨x, hm⟩, vm⟩
          · rw [hm, ok_bind]
            have hvalid : ValidConfig P hsm rate delayUs decayDb centerDb := ⟨⟨f1, hr⟩, ⟨f2, hd⟩, hv, f3, f4, vm⟩
            by_cases hl : r.len ≤ dlMax P
            · exact .inl ⟨hvalid, hl, by rw [checkCapacity_ok hl]; rfl⟩
            · have hl := Nat.not_le.mp hl
              exact .inr (.inl ⟨hvalid, hl, by rw [checkCapacity_error hl]; rfl⟩)
          · exact .inr (.inr ⟨fun h => vm h.2.2.2.2.2, x, by rw [hm]; rfl⟩)
        · exact .inr (.inr ⟨fun h => hv h.2.2.1, _, by rw [delayLen_error hv]; rfl⟩)
      · exact .inr (.inr ⟨fun h => hd h.2.1.2, _, by rw [decide_eq_false hd]; rfl⟩)
    · have hp : isPositive rate = false := Bool.eq_false_iff.mpr fun h => hr ((isPositive_iff _).mp h).2
      exact .inr (.inr ⟨fun h => hr h.1.2, _, by rw [hp]; rfl⟩)
  · refine .inr (.inr ⟨fun h => ?_, x, by rw [hk]; rfl⟩)
    simp only [List.mem_cons, List.not_mem_nil, or_false] at he
    rcases he with rfl | rfl | rfl | rfl
    · rw [h.1.1] at hn; cases hn
    · rw [h.2.1.1] at hn; cases hn
    · rw [h.2.2.2.1] at hn; cases hn
    · rw [h.2.2.2.2.1] at hn; cases hn

/-- What `XTC_RECONFIGURE` does to the block where it succeeds. -/
theorem reconfigure_spec {P : Params} {phantom : Bool} {hsm : HeadShadow} {interp cen : Bool}
    {rate delayUs decayDb centerDb : F32} {x x' : Canceller}
    (h : reconfigure P phantom hsm interp cen rate delayUs decayDb centerDb x = .ok x') :
    let r := delayRequest (delaySamplesOf delayUs rate) interp
    ValidConfig P hsm rate delayUs decayDb centerDb ∧ r.len ≤ dlMax P ∧
    x' = applyConfig P phantom hsm interp cen rate delayUs decayDb centerDb r x := by
  intro r
  unfold reconfigure at h
  rcases checkConfig_cases P hsm interp rate delayUs decayDb centerDb with ⟨hv, hl, hc⟩ | ⟨-, -, hc⟩ | ⟨-, y, hc⟩
  · rw [hc, ok_bind] at h
    exact ⟨hv, hl, (pure_ok h).symm⟩
  · rw [hc] at h; cases h
  · rw [hc] at h; cases h

theorem reconfigure_ok {P : Params} {hsm : HeadShadow} {interp : Bool} {rate delayUs decayDb centerDb : F32}
    (hv : ValidConfig P hsm rate delayUs decayDb centerDb)
    (hl : (delayRequest (delaySamplesOf delayUs rate) interp).len ≤ dlMax P) (phantom cen : Bool) (x : Canceller) :
    reconfigure P phantom hsm interp cen rate delayUs decayDb centerDb x =
      .ok (applyConfig P phantom hsm interp cen rate delayUs decayDb centerDb
        (delayRequest (delaySamplesOf delayUs rate) interp) x) := by
  unfold reconfigure
  rcases checkConfig_cases P hsm interp rate delayUs decayDb centerDb with ⟨-, -, hc⟩ | ⟨-, hn, -⟩ | ⟨hn, -⟩
  · rw [hc]; rfl
  · exact absurd hl (Nat.not_le.mpr hn)
  · exact absurd hv hn

end Sys2Proof.Machine
end

