-- ==== Sys2Proof/Laws/Encoding.lean ====
section
/-! SUPPORT. The fields of an encoded header (rules R91 to R97), and a block's words read back (rule R95). -/

namespace Sys2Proof

@[simp] theorem headerOp_encodeHeader (i : Instr) : headerOp (encodeHeader i) = opcode i.op := by
  apply BitVec.eq_of_getLsbD_eq
  intro k hk
  simp only [headerOp, encodeHeader, BitVec.getLsbD_extractLsb', BitVec.getLsbD_append, hk, decide_true, Bool.true_and]
  rw [if_neg (by omega)]
  congr 1
  omega

@[simp] theorem headerArg_encodeHeader (i : Instr) : headerArg (encodeHeader i) = encodeArg i := by
  apply BitVec.eq_of_getLsbD_eq
  intro k hk
  simp only [headerArg, encodeHeader, BitVec.getLsbD_extractLsb', BitVec.getLsbD_append, hk, decide_true, Bool.true_and]
  rw [if_pos (by omega)]
  congr 1
  omega

/-- The opcode map is one to one. -/
@[simp] theorem opOf_opcode (o : Op) : opOf (opcode o) = some o := by cases o <;> decide

/-- A byte that the map knows is the opcode of its operation. -/
theorem opcode_of_opOf {b : BitVec 8} {o : Op} (h : opOf b = some o) : opcode o = b := by
  simpa using List.find?_some h

/-- A one-bit flag in bit 0 of `arg` (rule R97). -/
theorem flagArg_fields (b : Bool) : (0#23 ++ bit b) &&& 0xFFFFFE = 0 ∧ (0#23 ++ bit b).getLsbD 0 = b := by
  cases b <;> decide

/-- The fields of `XTC_RECONFIGURE`'s `arg` (rule R94). -/
theorem reconfigureArg_fields (phantom interp cen : Bool) (hsm : HeadShadow) :
    let arg := 0#19 ++ bit cen ++ bit interp ++ headShadowCode hsm ++ bit phantom
    arg &&& 0xFFFFE0 = 0 ∧ arg.getLsbD 0 = phantom ∧ arg.getLsbD 3 = interp ∧ arg.getLsbD 4 = cen ∧
    headShadowOf (arg.extractLsb' 1 2) = some hsm := by
  cases phantom <;> cases interp <;> cases cen <;> cases hsm <;> decide

/-- The words of a block read back as its pairs (rule R95). -/
theorem takePairs_flatMap : ∀ (ps : List (F32 × F32)) (rest : List Word),
    takePairs ps.length ((ps.flatMap fun p => [p.1, p.2]) ++ rest) = some (ps, rest)
  | [], _ => rfl
  | p :: ps, rest => by
    simp only [List.length_cons, List.flatMap_cons, List.cons_append, List.nil_append, takePairs, takePairs_flatMap ps rest]
    rfl

/-- A header whose operation, must-be-zero bits and (for `XTC_RECONFIGURE`) head-shadow model are right decodes on its
unit's port (rules R103, R104). -/
theorem decodeHeader_of_fields {h : Word} {o : Op} (h1 : opOf (headerOp h) = some o) (h2 : headerArg h &&& reservedMask o = 0)
    (h3 : o = .xtcReconfigure → headerHsm h ≠ none) : decodeHeader o.port h = .ok o := by
  unfold decodeHeader
  rw [h1]
  dsimp only
  rw [if_neg (not_not.mpr h2), if_neg fun h => h3 h.1 h.2, if_neg (not_not.mpr rfl)]

end Sys2Proof
end

