-- ==== Sys2Proof/Laws/Lines.lean ====
section
/-! SUPPORT. A delay line seen as the queue of its samples, the one under the cursor first (rules R183, R184, R186). -/

namespace Sys2Proof.Machine

/-- `dl` holds the samples `q`, the one under the cursor first. -/
structure Holds (q : List F32) (dl : DelayLine) : Prop where
  cap : dl.cap = q.length
  index : dl.index < dl.cap
  wf : dl.data.wf = true
  slot : ∀ j (h : j < q.length), dl.data.read ((dl.index + j) % dl.cap) = q[j]

/-- A freshly resized line holds silence. -/
theorem FreshLine.holds {D : Nat} {dl : DelayLine} (h : FreshLine D dl) (hD : 1 ≤ D) :
    Holds (List.replicate D posZero) dl := by
  obtain ⟨h1, h2, h3, h4⟩ := h
  refine ⟨by simp [h1], by omega, h3, fun j hj => ?_⟩
  rw [List.getElem_replicate]
  exact h4 _ (by rw [h1]; exact Nat.mod_lt _ (by omega))

theorem Holds.cap_ne {a : F32} {q : List F32} {dl : DelayLine} (h : Holds (a :: q) dl) : dl.cap ≠ 0 := by
  rw [h.cap]; simp

/-- A put takes the oldest sample off the queue and adds the new one. -/
theorem Holds.push {a x : F32} {q : List F32} {dl : DelayLine} (h : Holds (a :: q) dl) :
    Holds (q ++ [x]) (pushSample x dl) := by
  have hc : dl.cap = q.length + 1 := by rw [h.cap, List.length_cons]
  have hi := h.index
  have hlt : nextIndex dl < dl.cap := Nat.mod_lt _ (by omega)
  refine ⟨by simp [hc], hlt, Memory.wf_write _ _ h.wf, fun j hj => ?_⟩
  simp only [List.length_append, List.length_cons, List.length_nil] at hj
  have hidx : (nextIndex dl + j) % dl.cap = (dl.index + (j + 1)) % dl.cap := by
    rw [nextIndex, Nat.mod_add_mod]; congr 1; omega
  rw [pushSample_index, pushSample_cap, pushSample_data, hidx, Memory.read_write h.wf]
  rcases Nat.lt_or_ge j q.length with hq | hq
  · have hne : (dl.index + (j + 1)) % dl.cap ≠ dl.index := by
      rcases Nat.lt_or_ge (dl.index + (j + 1)) dl.cap with hs | hs
      · rw [Nat.mod_eq_of_lt hs]; omega
      · rw [Nat.mod_eq_sub_mod hs, Nat.mod_eq_of_lt (by omega)]; omega
    rw [if_neg hne, h.slot (j + 1) (by simp; omega), List.getElem_append_left hq, List.getElem_cons_succ]
  · obtain rfl : j = q.length := by omega
    rw [← hc, Nat.add_mod_right, Nat.mod_eq_of_lt hi, if_pos rfl]
    simp

/-- A whole-sample line reads the oldest sample. -/
theorem Holds.read_whole {a : F32} {q : List F32} {dl : DelayLine} (h : Holds (a :: q) dl) (hi : dl.interp = false) :
    readSample dl = a := by
  have := h.slot 0 (by simp)
  rw [Nat.add_zero, Nat.mod_eq_of_lt h.index] at this
  simpa [readSample, hi] using this

/-- A fractional line blends the two oldest samples. -/
theorem Holds.read_frac {a b : F32} {q : List F32} {dl : DelayLine} (h : Holds (a :: b :: q) dl) (hi : dl.interp = true) :
    readSample dl = fadd (fmul a (fsub one dl.frac)) (fmul b dl.frac) := by
  have h0 := h.slot 0 (by simp)
  have h1 := h.slot 1 (by simp)
  rw [Nat.add_zero, Nat.mod_eq_of_lt h.index] at h0
  simp only [List.getElem_cons_zero, List.getElem_cons_succ] at h0 h1
  simp only [readSample, hi, if_true, nextIndex, h0, h1]

end Sys2Proof.Machine
end

