-- ==== Sys2Proof/Laws/PerInstr.lean ====
section
/-! SUPPORT. Statements about every command, one lemma per constructor. -/

namespace Sys2Proof.Laws

namespace LegalHeader

/-- The header of a command is legal on the port of its unit and names its operation (rules R91, R103, R104). -/
def Statement (i : Instr) : Prop := decodeHeader i.port (encodeHeader i) = .ok i.op

theorem of_arg (i : Instr) (ha : encodeArg i &&& reservedMask i.op = 0) (hn : i.op ≠ .xtcReconfigure) : Statement i :=
  decodeHeader_of_fields (by simp) (by simpa using ha) fun h => absurd h hn

theorem xtcReconfigure (phantom : Bool) (hsm : HeadShadow) (interp cen : Bool) (rate delayUs decayDb centerDb : F32) :
    Statement (.xtcReconfigure phantom hsm interp cen rate delayUs decayDb centerDb) := by
  have hf := reconfigureArg_fields phantom interp cen hsm
  refine decodeHeader_of_fields (by simp) ((congrArg (· &&& _) (headerArg_encodeHeader _)).trans hf.1) fun _ => ?_
  rw [headerHsm, headerArg_encodeHeader]
  exact fun h => absurd (hf.2.2.2.2.symm.trans h) (by simp)

theorem xtcProcess (pairs : List (F32 × F32)) : Statement (.xtcProcess pairs) :=
  of_arg _ BitVec.and_zero (by simp [Instr.op])
theorem xtcSetBypass (b : Bool) : Statement (.xtcSetBypass b) := of_arg _ (flagArg_fields b).1 (by simp [Instr.op])
theorem xtcGetLatency : Statement .xtcGetLatency := of_arg _ (by decide) (by decide)
theorem bqSetLowpass (freq rate q : F32) : Statement (.bqSetLowpass freq rate q) := of_arg _ BitVec.zero_and (by simp [Instr.op])
theorem bqSetHighpass (freq rate q : F32) : Statement (.bqSetHighpass freq rate q) := of_arg _ BitVec.zero_and (by simp [Instr.op])
theorem bqSetPeaking (freq rate q gainDb : F32) : Statement (.bqSetPeaking freq rate q gainDb) := of_arg _ BitVec.zero_and (by simp [Instr.op])
theorem bqSetShelf (freq rate q gainDb : F32) : Statement (.bqSetShelf freq rate q gainDb) := of_arg _ BitVec.zero_and (by simp [Instr.op])
theorem bqSetAllpass (freq rate q : F32) : Statement (.bqSetAllpass freq rate q) := of_arg _ BitVec.zero_and (by simp [Instr.op])
theorem bqProcess (x : F32) : Statement (.bqProcess x) := of_arg _ BitVec.zero_and (by simp [Instr.op])
theorem dlConfigure (len : BitVec 24) : Statement (.dlConfigure len) := of_arg _ BitVec.and_zero (by simp [Instr.op])
theorem dlConfigureFrac (delaySamples : F32) : Statement (.dlConfigureFrac delaySamples) := of_arg _ BitVec.zero_and (by simp [Instr.op])
theorem dlPut (x : F32) : Statement (.dlPut x) := of_arg _ BitVec.zero_and (by simp [Instr.op])
theorem dlGet : Statement .dlGet := of_arg _ (by decide) (by decide)
theorem cfbConfigure (interp : Bool) (delayUs rate : F32) : Statement (.cfbConfigure interp delayUs rate) :=
  of_arg _ (flagArg_fields interp).1 (by simp [Instr.op])
theorem cfbPut (x : F32) : Statement (.cfbPut x) := of_arg _ BitVec.zero_and (by simp [Instr.op])
theorem cfbGet : Statement .cfbGet := of_arg _ (by decide) (by decide)
theorem fosConfigure (clampEn : Bool) (rate : F32) : Statement (.fosConfigure clampEn rate) :=
  of_arg _ (flagArg_fields clampEn).1 (by simp [Instr.op])
theorem fosProcess (x : F32) : Statement (.fosProcess x) := of_arg _ BitVec.zero_and (by simp [Instr.op])

end LegalHeader

end Sys2Proof.Laws
end

