-- ==== Sys2Proof/Machine/Assembly.lean ====
section
/-! DEFINITION. The assembly syntax of rule R106: one command per line, read and written. It is a notation for the words of
`Decode.lean`; no step reads it. -/

namespace Sys2Proof.Machine

/-- The mnemonic of an operation (rule R93). -/
def mnemonic : Op → String
  | .xtcReconfigure => "XTC_RECONFIGURE"
  | .xtcProcess => "XTC_PROCESS"
  | .xtcSetBypass => "XTC_SET_BYPASS"
  | .xtcGetLatency => "XTC_GET_LATENCY"
  | .bqSetLowpass => "BQ_SET_LOWPASS"
  | .bqSetHighpass => "BQ_SET_HIGHPASS"
  | .bqSetPeaking => "BQ_SET_PEAKING"
  | .bqSetShelf => "BQ_SET_SHELF"
  | .bqSetAllpass => "BQ_SET_ALLPASS"
  | .bqProcess => "BQ_PROCESS"
  | .dlConfigure => "DL_CONFIGURE"
  | .dlConfigureFrac => "DL_CONFIGURE_FRAC"
  | .dlPut => "DL_PUT"
  | .dlGet => "DL_GET"
  | .cfbConfigure => "CFB_CONFIGURE"
  | .cfbPut => "CFB_PUT"
  | .cfbGet => "CFB_GET"
  | .fosConfigure => "FOS_CONFIGURE"
  | .fosProcess => "FOS_PROCESS"

/-- The `arg` fields of an operation in the order they are written (rules R94 to R97, R106): name, lowest bit, width. -/
def argFields : Op → List (String × Nat × Nat)
  | .xtcReconfigure => [("phantom", 0, 1), ("hsm", 1, 2), ("interp", 3, 1), ("cen", 4, 1)]
  | .xtcProcess => [("n", 0, 24)]
  | .xtcSetBypass => [("b", 0, 1)]
  | .dlConfigure => [("len", 0, 24)]
  | .cfbConfigure => [("interp", 0, 1)]
  | .fosConfigure => [("clamp_en", 0, 1)]
  | .xtcGetLatency | .bqSetLowpass | .bqSetHighpass | .bqSetPeaking | .bqSetShelf | .bqSetAllpass | .bqProcess
  | .dlConfigureFrac | .dlPut | .dlGet | .cfbPut | .cfbGet | .fosProcess => []

/-! Writing. -/

/-- A word as its `0x` bit pattern of eight hexadecimal digits (rules R7, R106). -/
def wordText (w : Word) : String :=
  let digits := Nat.toDigits 16 w.toNat
  "0x" ++ String.ofList (List.replicate (8 - digits.length) '0' ++ digits)

/-- Words separated by commas. -/
def wordsText : List Word → String
  | [] => ""
  | [w] => wordText w
  | w :: rest => wordText w ++ ", " ++ wordsText rest

/-- The `arg` fields as `name=value`, each after a space. -/
def fieldsText (arg : BitVec 24) : List (String × Nat × Nat) → String
  | [] => ""
  | (name, low, width) :: rest =>
    " " ++ name ++ "=" ++ toString (arg.toNat / 2 ^ low % 2 ^ width) ++ fieldsText arg rest

/-- A command as a line (rule R106), every payload operand as its bit pattern. -/
def commandText (i : Instr) : String :=
  let fields := argFields i.op
  let payload := encodePayload i
  mnemonic i.op ++ fieldsText (encodeArg i) fields ++
    (if payload.isEmpty then "" else (if fields.isEmpty then " " else ", ") ++ wordsText payload)

/-! Reading. -/

/-- The pieces of a text between the characters `c`; never empty. -/
def splitAt (c : Char) : List Char → List (List Char)
  | [] => [[]]
  | d :: rest =>
    match splitAt c rest with
    | [] => [[d]]
    | piece :: pieces => if d = c then [] :: piece :: pieces else (d :: piece) :: pieces

/-- The words of a text between spaces. -/
def tokens (cs : List Char) : List (List Char) := (splitAt ' ' cs).filter fun t => !t.isEmpty

/-- A digit of a base up to 16. -/
def digitValue (base : Nat) (c : Char) : Option Nat :=
  let v :=
    if '0' ≤ c ∧ c ≤ '9' then c.toNat - '0'.toNat
    else if 'a' ≤ c ∧ c ≤ 'f' then c.toNat - 'a'.toNat + 10
    else if 'A' ≤ c ∧ c ≤ 'F' then c.toNat - 'A'.toNat + 10
    else 16
  if v < base then some v else none

/-- The number written by digits, after the digits already read as `acc`. -/
def readDigits (base : Nat) : Nat → List Char → Option Nat
  | acc, [] => some acc
  | acc, c :: rest => (digitValue base c).bind fun d => readDigits base (acc * base + d) rest

/-- A natural number in decimal, at least one digit. -/
def readNat (cs : List Char) : Option Nat := if cs.isEmpty then none else readDigits 10 0 cs

/-- The binary32 value nearest to `digits / 10^places`, ties to even (rules R7, R106). Where "nearest" does not decide, a zero
takes the sign the numeral has (`-0.0` is `0x80000000`) and a numeral beyond the largest finite datum is the infinity of its sign
(DESIGN CHOICE, log 20). -/
def decimalValue (neg : Bool) (digits places : Nat) : F32 := roundPack neg (digits * unitScale) (10 ^ places)

/-- A decimal numeral without its sign: digits, and after a point more digits (rule R106). -/
def readDecimal (neg : Bool) (cs : List Char) : Option F32 :=
  match splitAt '.' cs with
  | [whole] => (readNat whole).map fun n => decimalValue neg n 0
  | [whole, decimals] =>
    if decimals.isEmpty then none
    else (readNat whole).bind fun n => (readDigits 10 n decimals).map fun m => decimalValue neg m decimals.length
  | _ => none

/-- A payload operand: a decimal numeral or a `0x` bit pattern of up to eight digits (rule R106). -/
def readOperand : List Char → Option F32
  | '0' :: 'x' :: rest =>
    if rest.isEmpty || decide (8 < rest.length) then none else (readDigits 16 0 rest).map (BitVec.ofNat 32)
  | '-' :: rest => readDecimal true rest
  | cs => readDecimal false cs

/-- Operands between commas, one in each piece. -/
def readOperands : List (List Char) → Option (List F32)
  | [] => some []
  | piece :: rest =>
    match tokens piece with
    | [t] => (readOperand t).bind fun w => (readOperands rest).map (w :: ·)
    | _ => none

/-- The `arg` fields as `name=value`, all of them and in their order; what they put into `arg`, and the words left. -/
def readFields : List (String × Nat × Nat) → List (List Char) → Option (Nat × List (List Char))
  | [], ts => some (0, ts)
  | _ :: _, [] => none
  | (name, low, width) :: fields, t :: ts =>
    match splitAt '=' t with
    | [n, v] =>
      (readNat v).bind fun k =>
        if n = name.toList ∧ k < 2 ^ width then (readFields fields ts).map fun r => (k * 2 ^ low + r.1, r.2) else none
    | _ => none

/-- Every operation, in the order of rule R93. -/
def allOps : List Op :=
  [.xtcReconfigure, .xtcProcess, .xtcSetBypass, .xtcGetLatency, .bqSetLowpass, .bqSetHighpass, .bqSetPeaking, .bqSetShelf,
   .bqSetAllpass, .bqProcess, .dlConfigure, .dlConfigureFrac, .dlPut, .dlGet, .cfbConfigure, .cfbPut, .cfbGet,
   .fosConfigure, .fosProcess]

/-- The command part of a line: mnemonic, fields, payload. The payload's first operand stands after a comma where there are
fields, after a space where there are none. What the words decode to is the command (rules R91 to R97). -/
def readCommand (cs : List Char) : Option Instr :=
  match splitAt ',' cs with
  | [] => none
  | first :: pieces =>
    match tokens first with
    | [] => none
    | m :: ts =>
      (allOps.find? fun o => m = (mnemonic o).toList).bind fun o =>
        (readFields (argFields o) ts).bind fun (arg, left) =>
          let operands :=
            if left.isEmpty then readOperands pieces
            else if (argFields o).isEmpty then
              match left with
              | [t] => readOperands (t :: pieces)
              | _ => none
            else none
          operands.bind fun ws =>
            match decode o.port ((opcode o ++ BitVec.ofNat 24 arg) :: ws) with
            | .command i [] => some i
            | _ => none

/-- A text before and after its first `->`. -/
def splitArrow : List Char → List Char × Option (List Char)
  | [] => ([], none)
  | '-' :: '>' :: rest => ([], some rest)
  | c :: rest => let r := splitArrow rest; (c :: r.1, r.2)

/-- A line of the syntax: a command, and the response written after `->` where there is one (rule R106). -/
structure AssemblyLine where
  command : Instr
  response : Option (List Word)
deriving DecidableEq, Repr

/-- A line read (rule R106): "Comments start with `;`". Nothing where it is no line of the syntax. -/
def readLine (cs : List Char) : Option AssemblyLine :=
  let r := splitArrow (cs.takeWhile fun c => c != ';')
  (readCommand r.1).bind fun i =>
    match r.2 with
    | none => some { command := i, response := none }
    | some text => (readOperands (splitAt ',' text)).map fun ws => { command := i, response := some ws }

end Sys2Proof.Machine
end

