-- ==== Sys2Proof/Tests/Slice0.lean ====
section
/-! SUPPORT. Tests: vectors of `95_test_vectors.md` one step at a time (T-names are that file's), and for every statement with
hypotheses a concrete state and operands that meet them. -/

namespace Sys2Proof.Machine.Test

/-! Well-formedness. -/

/-- A block of `2^24` pairs has no encoding (rule R95). -/
theorem test_wellFormed_refuses_long_block :
    (Instr.xtcProcess (List.replicate (2 ^ 24) (posZero, posZero))).wellFormed = false := by
  simp only [Instr.wellFormed, List.length_replicate]
  decide
theorem test_wellFormed_longest_block :
    (Instr.xtcProcess (List.replicate (2 ^ 24 - 1) (posZero, posZero))).wellFormed = true := by
  simp only [Instr.wellFormed, List.length_replicate]
  decide

/-! Decoding: headers written out from rule R93 and vector T-ENC1. -/

/-- `00000001 0000000000000000000 1 1 10 1`: cen, interp, hsm = 2, phantom (rule R94). -/
theorem test_decode_xtcReconfigure :
    decode .xtc [0b00000001000000000000000000011101, 10, 11, 12, 13] =
      .command (.xtcReconfigure true .biquadCascade true true 10 11 12 13) [] := by decide
theorem test_decode_xtcReconfigure_shaper :
    decode .xtc [0x01000002, 10, 11, 12, 13] =
      .command (.xtcReconfigure false .firstOrderShaper false false 10 11 12 13) [] := by decide
theorem test_decode_xtcProcess :
    decode .xtc [0b00000010000000000000000000000010, 10, 11, 12, 13, 14] =
      .command (.xtcProcess [(10, 11), (12, 13)]) [14] := by decide
theorem test_decode_xtcSetBypass :
    decode .xtc [0b00000011000000000000000000000001] = .command (.xtcSetBypass true) [] := by decide
theorem test_decode_xtcGetLatency : decode .xtc [0b00000100000000000000000000000000] = .command .xtcGetLatency [] := by decide
theorem test_decode_bqSetLowpass : decode .bq [0b00010001 <<< 24, 10, 11, 12] = .command (.bqSetLowpass 10 11 12) [] := by decide
theorem test_decode_bqSetHighpass : decode .bq [0b00010010 <<< 24, 10, 11, 12] = .command (.bqSetHighpass 10 11 12) [] := by decide
theorem test_decode_bqSetPeaking : decode .bq [0x13000000, 10, 11, 12, 13] = .command (.bqSetPeaking 10 11 12 13) [] := by decide
theorem test_decode_bqSetShelf : decode .bq [0x14000000, 10, 11, 12, 13] = .command (.bqSetShelf 10 11 12 13) [] := by decide
theorem test_decode_bqSetAllpass : decode .bq [0b00010101 <<< 24, 10, 11, 12] = .command (.bqSetAllpass 10 11 12) [] := by decide
theorem test_decode_bqProcess : decode .bq [0x16000000, 10] = .command (.bqProcess 10) [] := by decide
theorem test_decode_dlConfigure : decode .dl [0x21000003] = .command (.dlConfigure 3) [] := by decide
theorem test_decode_dlConfigureFrac : decode .dl [0x22000000, 10] = .command (.dlConfigureFrac 10) [] := by decide
theorem test_decode_dlPut : decode .dl [0b00100011 <<< 24, 10] = .command (.dlPut 10) [] := by decide
theorem test_decode_dlGet : decode .dl [0x24000000] = .command .dlGet [] := by decide
theorem test_decode_cfbConfigure : decode .cfb [0x31000001, 10, 11] = .command (.cfbConfigure true 10 11) [] := by decide
theorem test_decode_cfbPut : decode .cfb [0b00110010 <<< 24, 10] = .command (.cfbPut 10) [] := by decide
theorem test_decode_cfbGet : decode .cfb [0b00110011 <<< 24] = .command .cfbGet [] := by decide
theorem test_decode_fosConfigure : decode .fos [0x41000001, 10] = .command (.fosConfigure true 10) [] := by decide
theorem test_decode_fosProcess : decode .fos [0x42000000, 10] = .command (.fosProcess 10) [] := by decide

/-- Why a port turns a header away, if it does. -/
def illegalOf (p : PortId) (h : Word) : Option IllegalHeader :=
  match decodeHeader p h with
  | .ok _ => none
  | .error why => some why

/-- T-ENC2, (a): not one of the 19 opcodes. -/
theorem test_illegal_opcodes :
    [0x00000000, 0xFFFFFFFF, 0x05000000, 0x10000000, 0x17000000, 0x25000000, 0x34000000, 0x43000000, 0x50000000].map
      (illegalOf .bq) = List.replicate 9 (some .unknownOp) := by decide
/-- T-ENC2, (b): a must-be-zero bit set. -/
theorem test_illegal_reserved_bits :
    [0x01000020, 0x01800000, 0x03000002, 0x04000001].map (illegalOf .xtc) = List.replicate 4 (some .reservedBit) ∧
    illegalOf .bq 0x16000001 = some .reservedBit ∧ illegalOf .dl 0x23000001 = some .reservedBit ∧
    [0x32800000, 0x31000002].map (illegalOf .cfb) = List.replicate 2 (some .reservedBit) ∧
    illegalOf .fos 0x41000002 = some .reservedBit := by decide
/-- T-ENC2, (c) and (d). -/
theorem test_illegal_hsm_and_unit :
    illegalOf .xtc 0x01000006 = some .reservedHsm ∧ illegalOf .xtc 0x01000007 = some .reservedHsm ∧
    illegalOf .xtc 0x16000000 = some .wrongUnit ∧ illegalOf .bq 0x01000000 = some .wrongUnit := by decide

/-! Arithmetic. -/

/-- T-NUM4: ties to even, subnormals kept. -/
theorem test_num4 :
    fmul half 0x00000001 = 0x00000000 ∧ fmul half 0x00000002 = 0x00000001 ∧ fmul half 0x00000003 = 0x00000002 ∧
    fmul half 0x00000005 = 0x00000002 ∧ fmul 0x3DCCCCCD 0x3DCCCCCD = 0x3C23D70B := by decide
/-- Rule R121: overflow to the infinity; rule R124: division by zero; rule R126: signs of zero. -/
theorem test_specials :
    fadd maxFinite maxFinite = 0x7F800000 ∧ fdiv 0xBF800000 posZero = 0xFF800000 ∧ fadd 0x80000000 0x80000000 = 0x80000000 ∧
    fsub one one = 0x00000000 ∧ fmul 0x80000000 one = 0x80000000 ∧ fsqrt 0x40000000 = 0x3FB504F3 := by decide
/-- T-NUM2. -/
theorem test_num2 :
    [0x3F000000, 0x3FC00000, 0x40200000, 0x3EFFFFFF, 0x40000000].map roundHaz = [1, 2, 3, 0, 2] ∧
    [0x40000000, 0x40100000, 0x00000000, 0x0DA24260].map ceilF = [2, 3, 0, 1] := by decide
/-- T-NUM1, the rows 250.0 at 44100.0, 52.083332, 5.0 and 0.0 at 48000.0. -/
theorem test_num1 :
    delaySamplesOf 0x437A0000 0x472C4400 = 0x41306667 ∧
    delayRequest 0x41306667 true = { len := 12, d := 0x41306667, frac := 0x3F799990 } ∧
    delayRequest 0x40200000 false = { len := 3, d := 0x40200000, frac := posZero } ∧
    delayRequest 0x3E75C28F true = { len := 1, d := 0x3E75C28F, frac := 0x3F428F5C } ∧
    delayRequest posZero true = { len := 1, d := posZero, frac := posZero } := by decide

/-! States. -/

/-- Parameters of the tests: a coefficient function that shows its operands, sine 1 and cosine 0 for the cookbook rows at a
quarter of the sample rate, `DL_MAX = 100`, `NSEC = 5`. -/
def params : Params :=
  { (default : Params) with
    bqCoefRaw := fun k _ f r q g =>
      { a1 := f, a2 := r, b0 := q, b1 := g, b2 := match k with | .lp => 1 | .hp => 2 | .pk => 3 | .sh => 4 | .ap => 5 }
    sinRaw := fun _ => one
    cosRaw := fun _ => posZero
    dlMaxRaw := 99 }

/-- The same, with the recommended cookbook and a shelf of either kind. -/
def cookbook (kind : ShelfKind) : Params := { params with cookbook := true, shelfKind := kind }

/-- A section with coefficients and a history. -/
def biquad (a1 a2 b0 b1 b2 x1 x2 y1 y2 : F32) : Biquad :=
  { a1 := .val a1, a2 := .val a2, b0 := .val b0, b1 := .val b1, b2 := .val b2, x1 := x1, x2 := x2, y1 := y1, y2 := y2 }

/-- A section that passes its input on. -/
def through : Biquad := biquad 0 0 one 0 0 0 0 0 0

/-- A whole-sample line. -/
def line (cap index : Nat) (data : Memory) : DelayLine :=
  { cap := cap, index := index, data := data, interp := false, delaySamples := .unset, frac := posZero }

/-- A shaper with both coefficients and the floor gain set. -/
def shaper (clampEn : Bool) (lpState hpState : F32) : Shaper :=
  { lpState := lpState, hpState := hpState, lpCoeff := .val half, hpCoeff := .val half, floorGain := .val 0x3E800000
    clampEn := clampEn }

/-- A path with everything tuned. -/
def path (dl : DelayLine) : Path := { cfb := { sec := List.replicate 7 through, dl := dl }, fos := shaper false 0 0 }

/-- A block in Ready with unit gains. -/
def block (phantom : Bool) (hsm : HeadShadow) (cen : Bool) (dlA dlB : DelayLine) : Canceller :=
  { resetCanceller with
    sampleRate := .val 0x473B8000, delayUs := .val 0x4226AAAB, decayDb := .val posZero, centerDb := .val posZero
    phantom := phantom, hsm := hsm, cen := cen, decayGain := .val one, centerGain := .val one, gainComp := .val half
    phase := .ready, pathA := path dlA, pathB := path dlB }

/-- Every unit tuned and configured, the block in Ready, every line of one slot. -/
def tuned (phantom : Bool) (hsm : HeadShadow) (cen : Bool) : State :=
  { State.reset with
    xtc := block phantom hsm cen (line 1 0 []) (line 1 0 []), bq := through, dl := line 1 0 []
    cfb := { sec := List.replicate 7 through, dl := line 1 0 [] }, fos := shaper true 0 0 }

/-- `s` with words on a port and that port the next to be served. -/
def sent (s : State) (p : PortId) (ws : List Word) : State := (s.consume p ws).setInputs [.command p]

/-- The response words of a port after a step. -/
def rspOf (p : PortId) (o : Host.Outcome State Fault Refusal) : List Word :=
  match o with
  | .next t => (t.port p).rsp
  | _ => []

/-- The fault of a step. -/
def faultOf (o : Host.Outcome State Fault Refusal) : Option Fault :=
  match o with
  | .fault f => some f
  | _ => none

/-- Whether a step's next state passes a check. -/
def after (o : Host.Outcome State Fault Refusal) (check : State → Bool) : Bool :=
  match o with
  | .next t => check t
  | _ => false

/-- Whether a unit's operation succeeds with a result that passes a check. -/
def gives {α : Type} (r : Except Fault α) (check : α → Bool) : Bool :=
  match r with
  | .ok a => check a
  | .error _ => false

/-! One step of each command. -/

/-- Start state of T-XTC1: both lines of capacity 2, unit gains. -/
theorem test_xtcReconfigure :
    gives (reconfigure params false .none false false 0x473B8000 0x4226AAAB posZero posZero resetCanceller) (fun x =>
      x.pathA.cfb.dl = line 2 0 [] && x.pathB.cfb.dl = line 2 0 [] && x.decayGain = .val 0x3F800000 &&
      x.centerGain = .val 0x3F800000 && x.gainComp = .val 0x3F000000 && x.phase = .ready) = true := by decide
/-- T-XTC7: a sample rate of 0. -/
theorem test_xtcReconfigure_rate :
    faultOf (step (sent State.reset .xtc [0x01000000, 0x00000000, 0x43505555, 0, 0])) =
      some (.config .xtcReconfigure .rate) := by decide
/-- T-XTC6 (rule R256). -/
theorem test_xtcProcess_general :
    let s := { State.reset with xtc := block false .none false (line 2 1 [(1, 0x3E800000)]) (line 2 1 [(1, 0x3F000000)]) }
    after (step (sent s .xtc [0x02000001, one, one])) (fun t =>
      t.xtcPort.rsp = [0x3F000000, 0x3F400000] && t.xtc.pathA.cfb.dl = line 2 0 [(1, 0x3F000000)] &&
      t.xtc.pathB.cfb.dl = line 2 0 [(1, 0x3F400000)]) = true := by decide
/-- T-XTC6 (rule R259). -/
theorem test_xtcProcess_phantom :
    let s := { State.reset with xtc := block true .none false (line 2 0 [(0, 0x3F000000)]) (line 2 0 []) }
    after (step (sent s .xtc [0x02000001, one, half])) (fun t =>
      t.xtcPort.rsp = [0x3F400000, 0x3E800000] && t.xtc.pathA.cfb.dl = line 2 1 [(0, one)] &&
      t.xtc.pathB.cfb.dl = line 2 0 []) = true := by decide
/-- T-XTC7: bypass is legal in every state. -/
theorem test_xtcSetBypass :
    after (step (sent State.reset .xtc [0x03000001])) (fun t => t.xtc.bypass && t.xtc.phase = .unconfigured) = true := by
  decide
/-- T-XTC7: a bypassed block is copied bit for bit. -/
theorem test_xtcProcess_bypass :
    let s := { State.reset with xtc := { resetCanceller with bypass := true } }
    rspOf .xtc (step (sent s .xtc [0x02000001, 0x7FA00001, 0x80000000])) = [0x7FA00001, 0x80000000] := by decide
/-- T-XTC7: the latency of an unconfigured block. -/
theorem test_xtcGetLatency : rspOf .xtc (step (State.reset.withFetchWord 32 0x04000000)) = [0x00000000] := by decide

/-- Rules R153 to R157: each command hands its kind and its operands to `bq_coef` (kinds numbered 1 to 5 by `params`). -/
theorem test_bqSet_operands :
    gives (setLowpass params 0x447A0000 0x473B8000 half through) (· = biquad 0x447A0000 0x473B8000 half 0 1 0 0 0 0) = true ∧
    gives (setHighpass params 0x447A0000 0x473B8000 half through) (· = biquad 0x447A0000 0x473B8000 half 0 2 0 0 0 0) = true ∧
    gives (setPeaking params 0x447A0000 0x473B8000 half two through) (· = biquad 0x447A0000 0x473B8000 half two 3 0 0 0 0) = true ∧
    gives (setShelf params 0x447A0000 0x473B8000 half two through) (· = biquad 0x447A0000 0x473B8000 half two 4 0 0 0 0) = true ∧
    gives (setAllpass params 0x447A0000 0x473B8000 half through) (· = biquad 0x447A0000 0x473B8000 half 0 5 0 0 0 0) = true := by
  decide
/-- T-BQ7, the rows at 12000.0 of 48000.0 with Q 0.5, and rule R154's example. -/
theorem test_cookbook_quarter :
    let c (k : Kind) := cookbookCoef (cookbook .low) k 0x463B8000 0x473B8000 half posZero
    (c .lp).b0 = 0x3E800000 ∧ (c .lp).b1 = 0x3F000000 ∧ (c .lp).b2 = 0x3E800000 ∧ (c .lp).a2 = 0x00000000 ∧
    (c .hp).b0 = 0x3E800000 ∧ (c .hp).b1 = 0xBF000000 ∧ (c .hp).b2 = 0x3E800000 ∧
    (c .ap).b0 = 0x00000000 ∧ (c .ap).b2 = 0x3F800000 := by decide
/-- Rules R155, R156: at 0 dB a peaking or shelf section has equal numerator and denominator (cosine 0.5 here). -/
theorem test_cookbook_zero_gain :
    ∀ k ∈ [ShelfKind.low, .high], ∀ kind ∈ [Kind.pk, .sh],
      let c := cookbookCoef { cookbook k with cosRaw := fun _ => half } kind 0x463B8000 0x473B8000 half posZero
      c.b0 = one ∧ c.b1 = c.a1 ∧ c.b2 = c.a2 := by decide +kernel
/-- T-BQ5: a frequency of half the rate, a rate of 0, a Q of 0, a NaN gain. -/
theorem test_bqSet_faults :
    faultOf (step (sent State.reset .bq [0x11000000, 0x46BB8000, 0x473B8000, 0x3F333333])) = some (.config .bqSetLowpass .freq) ∧
    faultOf (step (sent State.reset .bq [0x12000000, 0x447A0000, 0x00000000, 0x3F333333])) = some (.config .bqSetHighpass .rate) ∧
    faultOf (step (sent State.reset .bq [0x15000000, 0x447A0000, 0x473B8000, 0x00000000])) = some (.config .bqSetAllpass .q) ∧
    faultOf (step (sent State.reset .bq [0x13000000, 0x447A0000, 0x473B8000, 0x3F333333, 0x7FC00000])) =
      some (.config .bqSetPeaking .gainDb) := by decide
/-- T-BQ2, step 2: the order of the five terms shows. -/
theorem test_bqProcess_order :
    let s := { State.reset with
      bq := biquad 0x3DCCCCCD 0x3E4CCCCD 0x3E99999A 0x3ECCCCCD 0x3F000000 one one 0x3F2B8520 0x3E99999A }
    after (step (sent s .bq [0x16000000, one])) (fun t =>
      t.bqPort.rsp = [0x3F895810] && t.bq.y1 = 0x3F895810 && t.bq.y2 = 0x3F2B8520 && t.bq.x2 = one) = true := by decide
/-- T-BQ5: from reset. The run is marked with the coefficients in the order the rule reads them; the value +0.0 is log 2's. -/
theorem test_bqProcess_unset :
    after (step (sent State.reset .bq [0x16000000, one])) (fun t =>
      t.bqPort.rsp = [0x00000000] && t.bq.x1 = one && t.bqPort.unsetReads = [.bqB0, .bqB1, .bqB2, .bqA1, .bqA2] && t.marked) =
      true := by decide

/-- T-DL6: another length clears the line, the same length keeps it. -/
theorem test_dlConfigure :
    gives (configureWhole params 4 (line 3 2 [(0, one), (1, two)])) (· = line 4 0 []) = true ∧
    gives (configureWhole params 3 (line 3 2 [(0, one), (1, two)])) (· = line 3 2 [(0, one), (1, two)]) = true := by decide
/-- T-DL7: length 0, length `DL_MAX + 1`. -/
theorem test_dlConfigure_faults :
    faultOf (step (sent State.reset .dl [0x21000000])) = some (.zeroLength 0) ∧
    gives (configureWhole params 101 resetDelayLine) (fun _ => true) = false := by decide
/-- T-DL5: 2.3 samples. -/
theorem test_dlConfigureFrac :
    gives (configureFrac params 0x40133333 resetDelayLine) (fun d =>
      d.cap = 3 && d.frac = 0x3F333334 && d.interp && d.delaySamples = .val 0x40133333) = true := by decide
/-- T-DL7: -1.5 and +inf. -/
theorem test_dlConfigureFrac_faults :
    faultOf (step (sent State.reset .dl [0x22000000, 0xBFC00000])) = some (.zeroLength (-1)) ∧
    faultOf (step (sent State.reset .dl [0x22000000, 0x7F800000])) = some (.config .dlConfigureFrac .delaySamples) := by decide
/-- T-DL8: a signalling NaN pattern is stored unchanged, and the cursor of a one-slot line stays. -/
theorem test_dlPut :
    after (step (sent (tuned false .none false) .dl [0x23000000, 0x7FA00001])) (fun t => t.dl = line 1 0 [(0, 0x7FA00001)]) =
      true := by decide
/-- T-DL4, step 2: the blend of the slot under the cursor and the next one, across the end of the line. -/
theorem test_dlGet :
    let s := { State.reset with
      dl := { line 3 2 [(0, two), (1, 0x40800000)] with interp := true, frac := half, delaySamples := .val 0x40200000 } }
    rspOf .dl (step (sent s .dl [0x24000000])) = [0x3F800000] := by decide

/-- T-CFB1: 208.33333 us at 48000.0; each section gets its own entry of the table. -/
theorem test_cfbConfigure :
    gives (configureBank params false 0x43505555 0x473B8000 resetFilterBank) (fun c =>
      c.dl = line 10 0 [] && (c.sec.take 6).map Biquad.b2 = [.val 2, .val 1, .val 3, .val 3, .val 3, .unset]) = true := by decide
/-- T-CFB1: a delay below 0. -/
theorem test_cfbConfigure_delay :
    faultOf (step (sent State.reset .cfb [0x31000000, 0xBF800000, 0x473B8000])) = some (.config .cfbConfigure .delaySamples) := by
  decide
/-- T-CFB2, step 0: 0.25 goes into the line; the histories of the first and the last section. -/
theorem test_cfbPut :
    let secs := [biquad 0 0 half 0xBF000000 0 0 0 0 0, through, through, through, biquad 0 0 half half 0 0 0 0 0, through, through]
    gives (putBank params .cfbPut one { sec := secs, dl := line 2 0 [] }) (fun c =>
      c.dl = line 2 1 [(0, 0x3E800000)] && c.sec[0]? = some (biquad 0 0 half 0xBF000000 0 one 0 half 0) &&
      c.sec[4]? = some (biquad 0 0 half half 0 half 0 0x3E800000 0) && c.sec[5]? = some through) = true := by decide +kernel
/-- T-CFB3: both faults hold, the line's is reported. -/
theorem test_cfbPut_order : faultOf (step (sent State.reset .cfb [0x32000000, one])) = some (.unconfigured .cfbPut) := by decide
/-- T-CFB2, step 2. -/
theorem test_cfbGet :
    let s := { State.reset with cfb := { resetFilterBank with dl := line 2 0 [(0, 0x3E800000)] } }
    rspOf .cfb (step (sent s .cfb [0x33000000])) = [0x3E800000] := by decide

/-- T-FOS3: a limit of 0 dB gives a floor gain of 1.0; the flag is the command's. -/
theorem test_fosConfigure :
    gives (configureShaper params true 0x473B8000 resetShaper) (fun f => f.floorGain = .val 0x3F800000 && f.clampEn) = true := by
  decide
/-- T-FOS3: rates 0.0 and -48000.0. -/
theorem test_fosConfigure_rate :
    faultOf (step (sent State.reset .fos [0x41000000, 0x00000000])) = some (.config .fosConfigure .rate) ∧
    faultOf (step (sent State.reset .fos [0x41000000, 0xC73B8000])) = some (.config .fosConfigure .rate) := by decide
/-- T-FOS1, row 2. -/
theorem test_fosProcess :
    after (step (sent { State.reset with fos := shaper false half 0x3E800000 } .fos [0x42000000, one])) (fun t =>
      t.fosPort.rsp = [0x3E800000] && t.fos = shaper false 0x3F400000 0x3F000000) = true := by decide
/-- T-FOS2, row 1. -/
theorem test_fosProcess_clamp :
    after (step (sent { State.reset with fos := shaper true 0 0 } .fos [0x42000000, one])) (fun t =>
      t.fosPort.rsp = [0x3EA00000] && t.fos = shaper true 0x3F000000 0x3EA00000) = true := by decide

/-- T-ENC2: an illegal header is consumed alone and sets `ill`; the next word is still to be decoded. -/
theorem test_step_illegal :
    after (step (sent State.reset .xtc [0x05000000, 0x04000000])) (fun t =>
      t.xtcPort = { cmd := [0x04000000], rsp := [], ill := true, illHeaders := [0x05000000], unsetReads := [] } &&
      t.marked) = true := by decide
/-- Rules R301, R305, R306: after an illegal header the run is over; a reset is still taken and clears `ill`. -/
theorem test_step_after_illegal :
    let s := State.reset.takeIllegal .xtc 0x05000000 [0x04000000]
    faultOf (step (s.setInputs [.command .xtc])) = some (.illegal [0x05000000]) ∧
    faultOf (step (s.setInputs [.command .dl])) = some (.illegal [0x05000000]) ∧
    after (step (s.setInputs [.reset .xtc])) (fun t => !t.xtcPort.ill && t.marked) = true := by decide
/-- Rule R330: a reset discards a partial command and restores the unit. -/
theorem test_step_reset :
    after (step { sent (tuned false .none false) .fos [0x42000000] with inputs := [.reset .fos] }) (fun t =>
      t.fos = resetShaper && t.fosPort = resetPort && t.bq = through) = true := by decide
/-- The table's row of `CFB_PUT` as one number, its payload zero. -/
theorem test_decodeTableWord : decodeTableWord 64 0x32000000 = some (.cfbPut 0) := by decide

/-! Witnesses: for each statement with hypotheses (its name after `witness_`), a state and operands that meet them all
together; one conjunct or one theorem for each clause. `Config.params` is opaque, so where it stands the lemmas on every choice
of the parameters show the hypothesis. -/

theorem through_tuned : Tuned through := ⟨rfl, rfl, rfl, rfl, rfl⟩
theorem bank_tuned (P : Params) : BankTuned P (List.replicate 7 through) := by
  refine ⟨by rw [List.length_replicate]; exact nsec_le P, fun b hb => ?_⟩
  rw [List.eq_of_mem_replicate (List.mem_of_mem_take hb)]
  exact through_tuned
theorem line_ok (P : Params) : LineOk P (line 1 0 []) :=
  ⟨dlMax_pos P, fun _ => Nat.one_pos, nofun, rfl, rfl, nofun, fun _ => rfl⟩
theorem bank_ok (P : Params) : BankOk P { sec := List.replicate 7 through, dl := line 1 0 [] } :=
  ⟨rfl, fun b hb => .inl (by rw [List.eq_of_mem_replicate hb]; exact through_tuned), line_ok P⟩
theorem model_tuned (P : Params) (hsm : HeadShadow) (dl : DelayLine) : ModelTuned P hsm (path dl) := by
  cases hsm with
  | none => trivial
  | firstOrderShaper => exact ⟨rfl, rfl, rfl⟩
  | biquadCascade => exact bank_tuned P

/-- A Ready state with everything tuned meets the invariant, in every mode. -/
theorem tuned_ok (phantom : Bool) (hsm : HeadShadow) (cen : Bool) : StateOk Config.params (tuned phantom hsm cen) where
  xtc := ⟨bank_ok _, bank_ok _, .inl ⟨rfl, rfl, rfl⟩, .inl ⟨rfl, rfl, rfl⟩, nofun, nofun,
    fun _ => ⟨Nat.one_pos, rfl, ⟨rfl, rfl, rfl, rfl⟩, ⟨rfl, rfl, rfl⟩, model_tuned _ _ _, model_tuned _ _ _⟩⟩
  bq := .inl through_tuned
  dl := line_ok _
  cfb := bank_ok _
  cfbTuned := fun _ => bank_tuned _
  fos := .inl ⟨rfl, rfl, rfl⟩
  ports := fun p => by cases p <;> exact nofun
  unset := fun p _ _ => by cases p <;> rfl

/-- 1000.0 Hz of 48000.0 Hz, Q 0.5. -/
theorem tuning_valid : ValidTuning 0x447A0000 0x473B8000 half := by unfold ValidTuning; decide
/-- A frequency of half the rate is outside the invariant. -/
theorem tuning_invalid : ¬ValidTuning 0x46BB8000 0x473B8000 half := by unfold ValidTuning; decide
theorem delay_valid : ValidDelay posZero maxFinite := by unfold ValidDelay; decide
theorem config_valid (hsm : HeadShadow) : ValidConfig Config.params hsm maxFinite posZero posZero posZero :=
  ⟨by decide, by decide, delay_valid, by decide, by decide, by
    cases hsm with
    | none => trivial
    | firstOrderShaper => exact validModel_shaper _ _
    | biquadCascade => exact validTable_maxFinite _⟩
theorem one_slot (interp : Bool) : (delayRequest (samplesOf posZero maxFinite) interp).len ≤ dlMax Config.params :=
  le_trans (by cases interp <;> decide) (dlMax_pos _)

theorem witness_EncodedCommandDecodesToItself :
    (Instr.xtcProcess []).wellFormed = true ∧ (Instr.cfbPut 7).wellFormed = true := by decide
theorem witness_DecodedCommandIsWhatItsWordsEncode : decode .cfb [0x32000000, 7, 8] = .command (.cfbPut 7) [8] := by decide
theorem witness_StepRunsTheDecodedCommand :
    let s := sent State.reset .cfb [0x32000000, 7, 8]
    (∀ q, (s.port q).ill = false) ∧ s.inputs = [.command .cfb] ∧ decode .cfb (s.port .cfb).cmd = .command (.cfbPut 7) [8] :=
  ⟨fun q => by cases q <;> rfl, by decide, by decide⟩
/-- A header that sets `ill`, with no reset next; and a state whose `ill` is up, with a command next and with nothing next. -/
theorem witness_IllegalHeaderSetsIllAndEndsTheRun :
    (let s := sent State.reset .xtc [0x05000000, 0x04000000]
    (∀ q, (s.port q).ill = false) ∧ s.inputs = [.command .xtc] ∧ (s.port .xtc).cmd = [0x05000000, 0x04000000] ∧
      decodeHeader .xtc 0x05000000 = .error .unknownOp ∧ ∀ (q : PortId) (l : List Input), [] ≠ .reset q :: l) ∧
    (let s := State.reset.takeIllegal .fos 0x05000000 []
    (s.port .fos).ill = true ∧ (∀ q l, (s.setInputs [.command .dl]).inputs ≠ .reset q :: l) ∧ ∀ q l, s.inputs ≠ .reset q :: l) :=
  ⟨⟨fun q => by cases q <;> rfl, rfl, rfl, rfl, nofun⟩, rfl, nofun, nofun⟩
theorem witness_PortWaitsForACompleteCommand :
    (∀ q, ((sent State.reset .fos [0x42000000]).port q).ill = false) ∧ (∀ q, ((sent State.reset .fos []).port q).ill = false) ∧
    (let s := sent State.reset .fos [0x42000000]; s.inputs = [.command .fos] ∧ decode .fos (s.port .fos).cmd = .incomplete) ∧
    (let s := sent State.reset .fos []; s.inputs = [.command .fos] ∧ (s.port .fos).cmd = []) :=
  ⟨fun q => by cases q <;> rfl, fun q => by cases q <;> rfl, by decide, by decide⟩
theorem witness_ResetInputRestoresTheInstance :
    let s := { sent (tuned false .none false) .fos [0x42000000] with inputs := [.reset .fos] }
    s.inputs = [.reset .fos] ∧ decode .fos (s.port .fos).cmd = .incomplete := by decide
/-- For the statements about any command that answers a next state. -/
theorem witness_exec_next :
    let s := tuned false .none false
    exec .dlGet s = .next (s.emit .dl [posZero]) := rfl
theorem witness_CommandTouchesOnlyItsInstance : ∃ t, exec .dlGet (tuned false .none false) = .next t := ⟨_, witness_exec_next⟩
theorem witness_CommandLengthsAreThoseOfTheTable : ∃ t, exec .dlGet (tuned false .none false) = .next t := ⟨_, witness_exec_next⟩
theorem witness_HistoriesArePersistent : ∃ t, exec .dlGet (tuned false .none false) = .next t ∧
    Instr.dlGet.op ≠ .bqProcess ∧ Instr.dlGet.op ≠ .cfbPut ∧ Instr.dlGet.op ≠ .xtcProcess :=
  ⟨_, witness_exec_next, by decide, by decide, by decide⟩
theorem witness_ShaperStatesArePersistent : ∃ t, exec .dlGet (tuned false .none false) = .next t ∧
    Instr.dlGet.op ≠ .fosProcess ∧ Instr.dlGet.op ≠ .xtcProcess := ⟨_, witness_exec_next, by decide, by decide⟩
theorem witness_ThreeOperandTuningWritesCoefficients : ValidTuning 0x447A0000 0x473B8000 half := tuning_valid
theorem witness_FourOperandTuningWritesCoefficients :
    ValidTuning 0x447A0000 0x473B8000 half ∧ isFinite (0xC0C00000 : F32) = true := ⟨tuning_valid, by decide⟩
theorem witness_TuningOutsideTheInvariantFaults :
    ¬ValidTuning 0x46BB8000 0x473B8000 half ∧
    ¬(ValidTuning 0x447A0000 0x473B8000 half ∧ isFinite (0x7FC00000 : F32) = true) :=
  ⟨tuning_invalid, fun h => absurd h.2 (by decide)⟩
theorem witness_BqProcessComputesTheDifferenceEquation :
    let s := tuned false .none false
    s.bq.a1 = .val 0 ∧ s.bq.a2 = .val 0 ∧ s.bq.b0 = .val one ∧ s.bq.b1 = .val 0 ∧ s.bq.b2 = .val 0 := by decide
theorem witness_BqProcessOnAnUntunedSectionMarksTheRun : ¬Tuned State.reset.bq := fun h => absurd h.1 (by decide)
theorem witness_RetuningKeepsTheHistoryInPlace :
    (∃ t, exec (.bqSetShelf 0x447A0000 0x473B8000 half posZero) (tuned false .none false) = .next t) ∧
    ∃ t, exec (.bqProcess one) (tuned false .none false) = .next t := by
  refine ⟨?_, _, rfl⟩
  simp only [exec, execBqSetShelf, setShelf, checkTuning_ok tuning_valid (gains := [(.gainDb, posZero)]) (by simp), ok_bind]
  exact ⟨_, rfl⟩
theorem witness_NaNInY1MakesTheNextOutputNaN :
    isNaN ({ State.reset with bq := biquad 0 0 one 0 0 0 0 0x7FC00000 0 } : State).bq.y1 = true := by decide

theorem witness_DlConfigureSetsAWholeSampleLine :
    1 ≤ (1 : BitVec 24).toNat ∧ (1 : BitVec 24).toNat ≤ dlMax Config.params := ⟨by decide, dlMax_pos _⟩
/-- The capacity clause depends on `DL_MAX`; with `DL_MAX = 100` it is met by 101 (`test_dlConfigure_faults`). -/
theorem witness_DlConfigureRejectsZeroAndTooLong :
    ((0 : BitVec 24).toNat = 0 ∨ dlMax Config.params < (0 : BitVec 24).toNat) ∧ dlMax params < (101 : BitVec 24).toNat := by
  refine ⟨.inl rfl, by decide⟩
theorem witness_DlConfigureFracSetsAFractionalLine :
    isFinite half = true ∧ 1 ≤ 1 ∧ 1 ≤ dlMax Config.params ∧ (((1 : Nat) : Int) - 1) * unitScale < scaled half ∧
    scaled half ≤ (1 : Nat) * unitScale := ⟨by decide, le_rfl, dlMax_pos _, by decide, by decide⟩
/-- An infinity; a ceiling of 0, of -1 (the request -1.5), and of `2^24`, above every `DL_MAX`. -/
theorem witness_DlConfigureFracRejects :
    isFinite (0x7F800000 : F32) = false ∧
    (((0 : Int) - 1) * unitScale < scaled posZero ∧ scaled posZero ≤ 0 * unitScale) ∧
    (((-1 : Int) - 1) * unitScale < scaled 0xBFC00000 ∧ scaled 0xBFC00000 ≤ (-1) * unitScale) ∧
    (isFinite (0x4B800000 : F32) = true ∧ ((2 : Int) ^ 24 - 1) * unitScale < scaled 0x4B800000 ∧
      scaled 0x4B800000 ≤ 2 ^ 24 * unitScale ∧ (dlMax Config.params : Int) < 2 ^ 24) :=
  ⟨by decide, by decide, by decide, by decide, by decide, by decide, by have := dlMax_lt Config.params; omega⟩
theorem witness_DlPutStoresOneSlotAndAdvances :
    ((tuned false .none false).dl.cap ≠ 0 ∧ (tuned false .none false).dl.data.wf = true) ∧ State.reset.dl.cap = 0 := by decide
theorem witness_DlGetIsAPureRead :
    ((tuned false .none false).dl.cap ≠ 0 ∧ (tuned false .none false).dl.interp = false) ∧
    (let d := { line 3 2 [(0, two)] with interp := true, frac := half }; d.cap ≠ 0 ∧ d.interp = true) ∧ State.reset.dl.cap = 0 := by decide
theorem witness_OnlyAConfigureCommandConfiguresALine :
    (State.reset.dl.cap = 0 ∧ State.reset.cfb.dl.cap = 0) ∧
    ∃ t, exec (.dlConfigure 1) State.reset = .next t ∧ t.dl.cap ≠ 0 := by
  refine ⟨by decide, State.reset.setDl (line 1 0 []), ?_, by decide⟩
  have h : checkCapacity Config.params (1 : BitVec 24).toNat = .ok ⟨⟩ := checkCapacity_ok (dlMax_pos _)
  simp only [exec, execDlConfigure, configureWhole, h]
  rfl
theorem witness_WholeSampleLineDelaysByItsCapacity :
    FreshLine 3 (line 3 0 []) ∧ (line 3 0 []).interp = false := ⟨⟨rfl, rfl, rfl, fun _ _ => rfl⟩, rfl⟩
theorem witness_FractionalLineBlendsTwoNeighbours :
    FreshLine 3 { line 3 0 [] with interp := true, frac := half } := ⟨rfl, rfl, rfl, fun _ _ => rfl⟩

theorem witness_CfbConfigureSetsTheLineAndTunesTheSections (interp : Bool) :
    isFinite posZero = true ∧ isFinite maxFinite = true ∧ 0 < scaled maxFinite ∧ ValidDelay posZero maxFinite ∧
    ValidTable Config.params maxFinite ∧ (delayRequest (samplesOf posZero maxFinite) interp).len ≤ dlMax Config.params :=
  ⟨by decide, by decide, by decide, delay_valid, validTable_maxFinite _, one_slot interp⟩
/-- A rate of 0; a delay of 1 us at the largest rate, longer than every `DL_MAX`. -/
theorem witness_CfbConfigureRejects :
    ¬0 < scaled posZero ∧
    (isFinite one = true ∧ isFinite maxFinite = true ∧ 0 < scaled maxFinite ∧ ValidDelay one maxFinite ∧
      ValidTable Config.params maxFinite ∧ dlMax Config.params < (delayRequest (samplesOf one maxFinite) false).len) :=
  ⟨by decide, by decide, by decide, by decide, by unfold ValidDelay; decide, validTable_maxFinite _,
    lt_of_lt_of_le (dlMax_lt _) (by decide)⟩
theorem witness_CfbPutRunsTheCascadeIntoTheLine :
    let s := tuned false .none false
    s.cfb.dl.cap ≠ 0 ∧ s.cfb.dl.data.wf = true ∧ BankTuned Config.params s.cfb.sec := ⟨by decide, rfl, bank_tuned _⟩
theorem witness_CfbPutBeforeConfigurationOrTuning :
    State.reset.cfb.dl.cap = 0 ∧
    (let s := { State.reset with cfb := { resetFilterBank with dl := line 1 0 [] } }
    s.cfb.dl.cap ≠ 0 ∧ s.cfb.dl.data.wf = true ∧ ∃ b ∈ s.cfb.sec.take (nsec Config.params), ¬Tuned b) := by
  refine ⟨rfl, by decide, rfl, resetBiquad, ?_, fun h => absurd h.1 (by decide)⟩
  have h := nsec_ge Config.params
  rw [show nsec Config.params = nsec Config.params - 1 + 1 by omega]
  exact List.mem_cons_self
theorem witness_CfbGetReadsTheDelayLine :
    ((tuned false .none false).cfb.dl.cap ≠ 0 ∧ (tuned false .none false).cfb.dl.interp = false) ∧
    (let d := { line 3 2 [(0, two)] with interp := true, frac := half }; d.cap ≠ 0 ∧ d.interp = true) ∧ State.reset.cfb.dl.cap = 0 := by decide
theorem witness_BankDelaysTheCascadeOutput :
    let c : FilterBank := { sec := List.replicate 7 through, dl := line 3 0 [] }
    FreshLine 3 c.dl ∧ c.dl.interp = false := ⟨⟨rfl, rfl, rfl, fun _ _ => rfl⟩, rfl⟩

theorem witness_FosConfigureWritesTheCoefficients :
    (isFinite (0x473B8000 : F32) = true ∧ 0 < scaled 0x473B8000) ∧ (isFinite (0x7FC00000 : F32) = false) ∧ scaled posZero ≤ 0 := by
  decide
theorem witness_FosProcessShapesTheSample :
    let f := (tuned false .none false).fos
    f.lpCoeff = .val half ∧ f.hpCoeff = .val half ∧ (f.clampEn = true → f.floorGain = .val 0x3E800000) := by decide
/-- Each of the three: both coefficients at reset; only the floor gain, with the clamp on. -/
theorem witness_FosProcessBeforeConfigureMarksTheRun :
    State.reset.fos.lpCoeff.written = false ∧ State.reset.fos.hpCoeff.written = false ∧
    (let f := { shaper true 0 0 with floorGain := .unset }
    f.clampEn = true ∧ f.floorGain.written = false ∧ f.lpCoeff.written = true ∧ f.hpCoeff.written = true) := by decide

theorem witness_ReconfigureAppliesTheConfiguration (hsm : HeadShadow) (interp : Bool) :
    ValidConfig Config.params hsm maxFinite posZero posZero posZero ∧
    (delayRequest (samplesOf posZero maxFinite) interp).len ≤ dlMax Config.params := ⟨config_valid hsm, one_slot interp⟩
/-- A rate of 0; 1 us at the largest rate. -/
theorem witness_ReconfigureRejects :
    ¬ValidConfig Config.params .none posZero posZero posZero posZero ∧
    (ValidConfig Config.params .none maxFinite one posZero posZero ∧
      dlMax Config.params < (delayRequest (samplesOf one maxFinite) false).len) :=
  ⟨fun h => absurd h.1.2 (by decide),
    ⟨by decide, by decide, by unfold ValidDelay; decide, by decide, by decide, trivial⟩, lt_of_lt_of_le (dlMax_lt _) (by decide)⟩
theorem reconfigure_completes (phantom : Bool) (hsm : HeadShadow) (interp cen : Bool) :
    ∃ t, exec (.xtcReconfigure phantom hsm interp cen maxFinite posZero posZero posZero) State.reset = .next t := by
  simp only [exec, execXtcReconfigure, reconfigure_ok (config_valid hsm) (one_slot interp)]
  exact ⟨_, rfl⟩
theorem witness_ReconfigureIsIdempotent :
    ∃ t, exec (.xtcReconfigure true .biquadCascade true true maxFinite posZero posZero posZero) State.reset = .next t :=
  reconfigure_completes ..
theorem witness_ZeroDecibelsGiveUnitGains :
    (∃ t, exec (.xtcReconfigure false .none false true maxFinite posZero posZero posZero) State.reset = .next t) ∧
    isZero posZero = true ∧ isZero (0x80000000 : F32) = true := ⟨reconfigure_completes .., by decide, by decide⟩
theorem witness_BypassIsAPureCopy : ({ State.reset with xtc := { resetCanceller with bypass := true } } : State).xtc.bypass = true :=
  rfl
theorem witness_ProcessBeforeReconfigureFaults :
    State.reset.xtc.bypass = false ∧ State.reset.xtc.phase = .unconfigured := by decide
theorem witness_ProcessNeverFaultsInReady :
    StateOk Config.params (tuned true .biquadCascade true) ∧ (tuned true .biquadCascade true).xtc.phase = .ready :=
  ⟨tuned_ok _ _ _, rfl⟩
theorem witness_GeneralSampleCancelsTheOppositeChannel (hsm : HeadShadow) (cen : Bool) :
    let x := (tuned false hsm cen).xtc
    x.bypass = false ∧ x.phase ≠ .unconfigured ∧ x.phantom = false ∧ ModelTuned Config.params x.hsm x.pathA ∧
    ModelTuned Config.params x.hsm x.pathB ∧ x.pathA.cfb.dl.cap ≠ 0 ∧ x.pathB.cfb.dl.cap ≠ 0 ∧
    x.pathA.cfb.dl.data.wf = true ∧ x.pathB.cfb.dl.data.wf = true ∧ x.decayGain = .val one ∧
    (x.cen = true → x.centerGain = .val one ∧ x.gainComp = .val half) :=
  ⟨rfl, nofun, rfl, model_tuned _ _ _, model_tuned _ _ _, nofun, nofun, rfl, rfl, rfl,
    fun _ => ⟨rfl, rfl⟩⟩
theorem witness_PhantomSampleCancelsTheMidSignal (hsm : HeadShadow) :
    let x := (tuned true hsm false).xtc
    x.bypass = false ∧ x.phase ≠ .unconfigured ∧ x.phantom = true ∧ ModelTuned Config.params x.hsm x.pathA ∧
    x.pathA.cfb.dl.cap ≠ 0 ∧ x.pathA.cfb.dl.data.wf = true ∧ x.decayGain = .val one :=
  ⟨rfl, nofun, rfl, model_tuned _ _ _, nofun, rfl, rfl⟩
theorem witness_BlocksMayBeCutAnywhere :
    (tuned false .none false).xtc.bypass = false ∧ (tuned false .none false).xtc.phase ≠ .unconfigured := by decide
/-- Reconfigure, an unbypassed block, a bypassed block, and another command, each with a next state. -/
theorem witness_CommandsMoveTheStateMachineAsTheTableSays :
    (∃ t, exec (.xtcReconfigure false .none false false maxFinite posZero posZero posZero) State.reset = .next t) ∧
    (∃ t, exec (.xtcProcess []) (tuned false .none false) = .next t) ∧
    (∃ t, exec (.xtcProcess []) { State.reset with xtc := { resetCanceller with bypass := true } } = .next t) ∧
    ∃ t, exec .dlGet (tuned false .none false) = .next t :=
  ⟨reconfigure_completes .., ⟨_, rfl⟩, ⟨_, rfl⟩, _, witness_exec_next⟩
theorem witness_SilentLinesPassTheSampleExactly (hsm : HeadShadow) :
    let s := tuned false hsm false
    StateOk Config.params s ∧ s.xtc.bypass = false ∧ s.xtc.phase = .ready ∧ s.xtc.phantom = false ∧ s.xtc.cen = false ∧
    s.xtc.decayGain = .val one ∧ isFinite one = true ∧ signBit one = false ∧ lineOutput s.xtc.pathA.cfb.dl = posZero ∧
    lineOutput s.xtc.pathB.cfb.dl = posZero ∧ isNaN half = false ∧ isNaN (0x80000000 : F32) = false :=
  ⟨tuned_ok _ _ _, rfl, rfl, rfl, rfl, rfl, by decide, by decide, rfl, rfl, by decide, by decide⟩
theorem witness_ImpulseAppearsNegatedOnTheRightAfterTheDelay :
    let x := block false .none false (line 3 0 []) (line 3 0 [])
    x.bypass = false ∧ x.phase = .ready ∧ x.phantom = false ∧ x.cen = false ∧ x.hsm = .none ∧ x.decayGain = .val one ∧
    isFinite one = true ∧ 0 < scaled one ∧ FreshLine 3 x.pathA.cfb.dl ∧ FreshLine 3 x.pathB.cfb.dl ∧
    x.pathA.cfb.dl.interp = false ∧ x.pathB.cfb.dl.interp = false :=
  ⟨rfl, rfl, rfl, rfl, rfl, rfl, by decide, by decide, ⟨rfl, rfl, rfl, fun _ _ => rfl⟩, ⟨rfl, rfl, rfl, fun _ _ => rfl⟩, rfl, rfl⟩

/-- A command, an illegal header and a reset, each from a state that meets the invariant. -/
theorem witness_EveryStepKeepsTheInvariant :
    let s := tuned false .none false
    ∀ input ∈ [([0x04000000], Input.command .xtc), ([0x05000000], .command .xtc), ([], .reset .cfb)],
      let u := (s.consume .xtc input.1).setInputs [input.2]
      StateOk Config.params u ∧ ∃ t, step u = .next t := by
  intro s input hi u
  have h := tuned_ok false .none false
  refine ⟨⟨h.xtc, h.bq, h.dl, h.cfb, h.cfbTuned, h.fos, fun p => by cases p <;> exact nofun,
    fun p _ _ => by cases p <;> rfl⟩, ?_⟩
  simp only [List.mem_cons, List.not_mem_nil, or_false] at hi
  rcases hi with rfl | rfl | rfl <;> exact ⟨_, rfl⟩
/-- Finite operands with a result below and above the overflow threshold, a divisor that is not zero, and sums and differences
that are exactly zero, of both signs. -/
theorem witness_ArithmeticIsRoundedOnce :
    isFinite maxFinite = true ∧ isFinite half = true ∧ isZero half = false ∧
    (scaled maxFinite + scaled half).natAbs < overflowAt * 1 ∧ overflowAt * 1 ≤ (scaled maxFinite + scaled maxFinite).natAbs ∧
    scaled half + scaled 0xBF000000 = 0 ∧ scaled 0x80000000 + scaled 0x80000000 = 0 ∧ scaled half - scaled half = 0 ∧
    scaled 0x80000000 - scaled posZero = 0 := by
  decide
/-- For each clause an operand pair: a NaN; two infinities of different and of equal sign; an infinity with a zero and with a
finite number; a finite number and a zero over a zero. -/
theorem witness_InfinitiesAndInvalidOperationsFollowIeee :
    isNaN (0x7FA00001 : F32) = true ∧
    (isInf (0x7F800000 : F32) = true ∧ isInf (0xFF800000 : F32) = true ∧
      (signBit (0x7F800000 : F32) != signBit (0xFF800000 : F32)) = true ∧
      (signBit (0x7F800000 : F32) != signBit (0x7F800000 : F32)) = false) ∧
    (isFinite half = true ∧ isZero half = false ∧ isFinite (0x80000000 : F32) = true ∧ isZero (0x80000000 : F32) = true ∧
      isZero posZero = true) := by decide
theorem witness_SmallIntegersConvertExactly : 2 ^ 24 - 1 < 2 ^ 24 := by decide
/-- 0.5 (the tie), 0.25, 0, and a request whose fraction is taken. -/
theorem witness_CapacityRequestRoundsAndClamps :
    (isFinite half = true ∧ (unitScale : Int) ≤ 2 * scaled half ∧ 0 < scaled half ∧ (delayRequest half true).len < 2 ^ 24) ∧
    (isFinite (0x3E800000 : F32) = true ∧ 2 * scaled 0x3E800000 < unitScale) ∧ (isFinite posZero = true ∧ scaled posZero = 0) := by
  decide

/-! Assembly text: lines of rule R106. -/

theorem test_assembly_response : readLine "BQ_PROCESS 1.0                             -> 0.25".toList =
    some { command := .bqProcess 0x3F800000, response := some [0x3E800000] } := by decide
theorem test_assembly_fields : readLine "CFB_CONFIGURE interp=0, 208.33333, 48000.0".toList =
    some { command := .cfbConfigure false 0x43505555 0x473B8000, response := none } := by decide
theorem test_assembly_count : readLine "XTC_PROCESS n=2, 1.0, 0.0 ; two words missing".toList = none := by decide

end Sys2Proof.Machine.Test
end

section
/-! Scope: small integers convert exactly (rules R9, R126), and one step performs one command (rules R5, R68, R91). -/

namespace Sys2Proof.Machine

/-! What is exact: a 24-bit significand at an exponent in range. -/

/-- Every 24-bit significand times a power of two in range is a finite datum's magnitude: a significand of fewer than 24 bits
is doubled and the exponent lowered, until the form is normal or the exponent is that of the subnormals. -/
theorem exists_magBits_eq_mul_two_pow {k s : Nat} (hk : k < 2 ^ 24) (hs : s ≤ 253) :
    ∃ b < infBits, magBits b = k * 2 ^ s := by
  induction s generalizing k with
  | zero => exact ⟨k, by rw [infBits]; omega, by simpa using magBits_norm (s := 0) hk.le (.inl rfl)⟩
  | succ s ih =>
    rcases Nat.lt_or_ge k (2 ^ 23) with hsmall | hnormal
    · obtain ⟨b, hb, hm⟩ := ih (k := 2 * k) (by omega) (by omega)
      exact ⟨b, hb, by rw [hm, pow_succ]; ring⟩
    · exact ⟨(s + 1) * 2 ^ 23 + k, by rw [infBits]; omega, magBits_norm hk.le (.inr hnormal)⟩

/-- A magnitude that is a finite datum's is not changed by rounding. -/
theorem roundPack_magBits (neg : Bool) {b : Nat} (hb : b < infBits) : roundPack neg (magBits b) 1 = pack neg b := by
  have hexact : roundBits (magBits b) 1 = b := by simpa using roundBits_exact b Nat.one_pos
  rw [roundPack, hexact, Nat.min_eq_left hb.le]

theorem isFinite_pack (neg : Bool) {b : Nat} (hb : b < infBits) : isFinite (pack neg b) = true := by
  rw [isFinite_iff, lowBits_pack neg (hb.trans (by decide))]
  exact hb

/-- Rounding a 24-bit significand at an exponent in range gives a finite datum of exactly that value (rule R126). -/
theorem roundPack_mul_two_pow (neg : Bool) {k s : Nat} (hk : k < 2 ^ 24) (hs : s ≤ 253) :
    isFinite (roundPack neg (k * 2 ^ s) 1) = true ∧
    scaled (roundPack neg (k * 2 ^ s) 1) = if neg then -((k * 2 ^ s : Nat) : Int) else (k * 2 ^ s : Nat) := by
  obtain ⟨b, hb, hm⟩ := exists_magBits_eq_mul_two_pow hk hs
  rw [← hm, roundPack_magBits neg hb]
  exact ⟨isFinite_pack neg hb, scaled_pack neg (hb.trans (by decide))⟩

/-- Settles O59: `n` is the significand and `1.0`, `2^149` units, the power of two. -/
theorem smallIntegersConvertExactly : Obligations.SmallIntegersConvertExactly := by
  intro n hn
  obtain ⟨hfinite, hvalue⟩ := roundPack_mul_two_pow false hn (s := 149) (by decide)
  exact ⟨hfinite, hvalue.trans (Nat.cast_mul n unitScale)⟩

/-! What a step does with the next input, and what serving a port does with the words waiting there. -/

/-- While no `ill` flag is up, a step whose next input is a command serves that port. -/
theorem step_command {s : State} {p : PortId} {rest : List Input} (hill : ∀ q, (s.port q).ill = false)
    (hin : s.inputs = .command p :: rest) : step s = serve p (s.setInputs rest) := by
  rw [step, takeInput, hin, State.overBy_none hill]

@[simp] theorem State.fetch_setInputs (s : State) (l : List Input) (p : PortId) : (s.setInputs l).fetch p = s.fetch p := by
  rw [State.fetch, State.setInputs_port, State.fetch]

/-- A whole command waiting on the port is performed, its words taken from the port. -/
theorem serve_of_fetch_command {s : State} {p : PortId} {i : Instr} {ws : List Word} (h : s.fetch p = .command i ws) :
    serve p s = exec i (s.consume p ws) := by
  rw [serve, h]

/-- Settles O5: with the run not over the input reaches the port, and the whole command there is performed. -/
theorem stepRunsTheDecodedCommand : Obligations.StepRunsTheDecodedCommand := by
  intro s p rest i ws hill hin hdec
  have hfetch : (s.setInputs rest).fetch p = .command i ws := (s.fetch_setInputs rest p).trans hdec
  rw [step_command hill hin, serve_of_fetch_command hfetch]

end Sys2Proof.Machine
end

section
/-! State: what a command that completes has done to the state, said once for all commands (rules R5, R39). -/

namespace Sys2Proof.Machine

/-- A delay request that passed its checks (rules R63, R131, R181, R182): within `DL_MAX`, and with no fraction where the line is
not to interpolate. -/
structure SoundRequest (r : DelayRequest) (interp : Bool) : Prop where
  len_pos : 1 ≤ r.len
  len_le : r.len ≤ dlMax Config.params
  whole_frac : interp = false → r.frac = posZero

/-- The request of rule R131 is sound once its capacity is within `DL_MAX`. -/
theorem soundRequest_delayRequest {d : F32} {interp : Bool} (h : (delayRequest d interp).len ≤ dlMax Config.params) :
    SoundRequest (delayRequest d interp) interp :=
  ⟨delayRequest_len_pos d interp, h, fun hi => by rw [hi, delayRequest_whole_frac]⟩

/-- The five tuning operations of a section (rules R153 to R157). -/
def tuningOps : List Op := [.bqSetLowpass, .bqSetHighpass, .bqSetPeaking, .bqSetShelf, .bqSetAllpass]

/-- The operations that only answer (rules R184, R214, R262). -/
def answeringOps : List Op := [.dlGet, .cfbGet, .xtcGetLatency]

/-- What a completed command of an operation has made of the state `s`, and what its checks have established: one case for the
operations that write alike. -/
inductive Completed (s : State) : Op → State → Prop where
  | tuned {o : Op} (ho : o ∈ tuningOps) (c : Coeffs) : Completed s o (s.setBq (setCoeffs s.bq c))
  | sectionFed (x : F32) :
    Completed s .bqProcess
      (((s.setBq (processBiquad x s.bq).1).noteUnset .bq (unsetCoeffs s.bq)).emit .bq [(processBiquad x s.bq).2])
  | lineSet {o : Op} (ho : o ∈ [Op.dlConfigure, .dlConfigureFrac]) {r : DelayRequest} {interp : Bool}
    (hr : SoundRequest r interp) : Completed s o (s.setDl (dlSet r interp s.dl))
  | linePut (x : F32) (hc : s.dl.cap ≠ 0) : Completed s .dlPut (s.setDl (pushSample x s.dl))
  | answered {o : Op} (ho : o ∈ answeringOps) (ws : List Word) : Completed s o (s.emit o.port ws)
  | bankSet {r : DelayRequest} {interp : Bool} (hr : SoundRequest r interp) (rate : F32) :
    Completed s .cfbConfigure
      (s.setCfb { sec := tuneSections Config.params rate (hsTable Config.params) s.cfb.sec, dl := dlSet r interp s.cfb.dl })
  | bankPut (x : F32) (hc : s.cfb.dl.cap ≠ 0) :
    Completed s .cfbPut
      ((s.setCfb { sec := (cascade (nsec Config.params) x s.cfb.sec).1
                   dl := pushSample (cascade (nsec Config.params) x s.cfb.sec).2 s.cfb.dl }).noteUnset
        .cfb (unsetSections Config.params s.cfb.sec))
  | shaperSet (clampEn : Bool) (rate : F32) :
    Completed s .fosConfigure (s.setFos (tuneShaper Config.params clampEn rate s.fos))
  | shaperFed (x : F32) :
    Completed s .fosProcess
      (((s.setFos (processShaper x s.fos).1).noteUnset .fos (unsetShaper s.fos)).emit .fos [(processShaper x s.fos).2])
  | reconfigured {r : DelayRequest} {interp : Bool} (hr : SoundRequest r interp) (phantom : Bool) (hsm : HeadShadow)
    (cen : Bool) (rate delayUs decayDb centerDb : F32) :
    Completed s .xtcReconfigure
      (s.setXtc (applyConfig Config.params phantom hsm interp cen rate delayUs decayDb centerDb r s.xtc))
  | processed {pairs : List (F32 × F32)} {x : Canceller} {ws : List Word}
    (h : processBlock Config.params Config.fbTap pairs s.xtc = .ok (x, ws)) :
    Completed s .xtcProcess
      (((s.setXtc x).noteUnset .xtc (unsetBlock Config.params pairs s.xtc)).emit .xtc ws)
  | bypassSet (b : Bool) : Completed s .xtcSetBypass (s.setXtc { s.xtc with bypass := b })

/-- A tuning operation that completes has passed its check and written the five coefficients. -/
theorem completed_of_checked_tuning {s t : State} {o : Op} {c : Coeffs} {check : Except Fault Unit} (ho : o ∈ tuningOps)
    (h : finish (check >>= fun _ => pure (setCoeffs s.bq c)) s.setBq = .next t) : Completed s o t := by
  obtain ⟨b, hb, rfl⟩ := finish_next h
  obtain ⟨-, -, hb⟩ := bind_ok hb
  obtain rfl := pure_ok hb
  exact .tuned ho c

/-- A read of a line that completes has answered one word and written nothing. -/
theorem completed_of_get {s t : State} {o : Op} {dl : DelayLine} (ho : o ∈ answeringOps)
    (h : finish (getSample o dl) (fun y => s.emit o.port [y]) = .next t) : Completed s o t := by
  obtain ⟨y, -, rfl⟩ := finish_next h
  exact .answered ho [y]

/-- What `CFB_CONFIGURE` does to a bank where it succeeds (rule R212). -/
theorem configureBank_spec {interp : Bool} {delayUs rate : F32} {c c' : FilterBank}
    (h : configureBank Config.params interp delayUs rate c = .ok c') :
    ∃ r, SoundRequest r interp ∧
      c' = { sec := tuneSections Config.params rate (hsTable Config.params) c.sec, dl := dlSet r interp c.dl } := by
  obtain ⟨-, -, h⟩ := bind_ok h
  obtain ⟨-, -, h⟩ := bind_ok h
  obtain ⟨r, hr, h⟩ := bind_ok h
  obtain ⟨-, -, h⟩ := bind_ok h
  obtain ⟨_, hcap, h⟩ := bind_ok h
  have hreq : r = delayRequest (delaySamplesOf delayUs rate) interp := by
    obtain ⟨-, -, hr⟩ := bind_ok hr
    exact (pure_ok hr).symm
  subst hreq
  exact ⟨_, soundRequest_delayRequest (checkCapacity_passed hcap), (pure_ok h).symm⟩

/-- What `FOS_CONFIGURE` does to a shaper where it succeeds (rule R232). -/
theorem configureShaper_spec {P : Params} {clampEn : Bool} {rate : F32} {f f' : Shaper}
    (h : configureShaper P clampEn rate f = .ok f') : f' = tuneShaper P clampEn rate f := by
  obtain ⟨-, -, h⟩ := bind_ok h
  obtain ⟨-, -, h⟩ := bind_ok h
  exact (pure_ok h).symm

/-- A command that answers a next state has completed: every arm of `exec` is one of the cases of `Completed`. -/
theorem completed_of_exec {i : Instr} {s t : State} (h : exec i s = .next t) : Completed s i.op t := by
  cases i with
  | xtcReconfigure phantom hsm interp cen rate delayUs decayDb centerDb =>
    obtain ⟨x, hx, rfl⟩ := finish_next h
    obtain ⟨-, hlen, rfl⟩ := reconfigure_spec hx
    exact .reconfigured (soundRequest_delayRequest hlen) ..
  | xtcProcess pairs =>
    obtain ⟨⟨x, ws⟩, hx, rfl⟩ := finish_next h
    exact .processed hx
  | xtcSetBypass b => cases h; exact .bypassSet b
  | xtcGetLatency => cases h; exact .answered (by decide) _
  | bqSetLowpass => exact completed_of_checked_tuning (o := .bqSetLowpass) (by decide) h
  | bqSetHighpass => exact completed_of_checked_tuning (o := .bqSetHighpass) (by decide) h
  | bqSetPeaking => exact completed_of_checked_tuning (o := .bqSetPeaking) (by decide) h
  | bqSetShelf => exact completed_of_checked_tuning (o := .bqSetShelf) (by decide) h
  | bqSetAllpass => exact completed_of_checked_tuning (o := .bqSetAllpass) (by decide) h
  | bqProcess x => cases h; exact .sectionFed x
  | dlConfigure len =>
    obtain ⟨dl, hdl, rfl⟩ := finish_next h
    obtain ⟨hpos, hle, rfl⟩ := configureWhole_spec hdl
    exact .lineSet (o := .dlConfigure) (by decide) ⟨hpos, hle, fun _ => rfl⟩
  | dlConfigureFrac d =>
    obtain ⟨dl, hdl, rfl⟩ := finish_next h
    obtain ⟨hpos, hle, rfl⟩ := configureFrac_spec hdl
    exact .lineSet (o := .dlConfigureFrac) (by decide) ⟨by dsimp only; omega, hle, nofun⟩
  | dlPut x =>
    obtain ⟨dl, hdl, rfl⟩ := finish_next h
    obtain ⟨hc, rfl⟩ := putSample_spec hdl
    exact .linePut x hc
  | dlGet => exact completed_of_get (by decide) h
  | cfbConfigure interp delayUs rate =>
    obtain ⟨c, hc, rfl⟩ := finish_next h
    obtain ⟨r, hr, rfl⟩ := configureBank_spec hc
    exact .bankSet hr rate
  | cfbPut x =>
    obtain ⟨c, hc, rfl⟩ := finish_next h
    obtain ⟨hcap, rfl⟩ := putBank_spec hc
    exact .bankPut x hcap
  | cfbGet => exact completed_of_get (by decide) h
  | fosConfigure clampEn rate =>
    obtain ⟨f, hf, rfl⟩ := finish_next h
    obtain rfl := configureShaper_spec hf
    exact .shaperSet clampEn rate
  | fosProcess x => cases h; exact .shaperFed x

end Sys2Proof.Machine
end

section
/-! State: the frame of every command (rules R23, R30, R34, R39, R104, R159, R308). -/

namespace Sys2Proof.Machine

/-! One unit and its port only. -/

theorem SameUnit.trans {p : PortId} {s t u : State} (hst : SameUnit p s t) (htu : SameUnit p t u) : SameUnit p s u := by
  cases p <;> exact Eq.trans htu hst

/-- From `s` to `t` the unit of port `p` is all that may have changed, and of its port only the answers and the record of Unset
reads, which grows at its end. -/
structure OnlyInstance (p : PortId) (s t : State) : Prop where
  others : ∀ q, q ≠ p → SameUnit q s t ∧ t.port q = s.port q
  cmd : (t.port p).cmd = (s.port p).cmd
  ill : (t.port p).ill = (s.port p).ill
  illHeaders : (t.port p).illHeaders = (s.port p).illHeaders
  inputs : t.inputs = s.inputs
  record : ∃ l, (t.port p).unsetReads = (s.port p).unsetReads ++ l

theorem OnlyInstance.trans {p : PortId} {s t u : State} (hst : OnlyInstance p s t) (htu : OnlyInstance p t u) :
    OnlyInstance p s u := by
  obtain ⟨l, hl⟩ := hst.record
  obtain ⟨m, hm⟩ := htu.record
  refine ⟨fun q hq => ?_, htu.cmd.trans hst.cmd, htu.ill.trans hst.ill, htu.illHeaders.trans hst.illHeaders,
    htu.inputs.trans hst.inputs, l ++ m, by rw [hm, hl, List.append_assoc]⟩
  obtain ⟨hu, hp⟩ := hst.others q hq
  obtain ⟨hu', hp'⟩ := htu.others q hq
  exact ⟨hu.trans hu', hp'.trans hp⟩

/-- A change of the unit that leaves the ports and the inputs. -/
theorem onlyInstance_of_ports {p : PortId} {s t : State} (hunits : ∀ q, q ≠ p → SameUnit q s t)
    (hports : ∀ q, t.port q = s.port q) (hinputs : t.inputs = s.inputs) : OnlyInstance p s t :=
  ⟨fun q hq => ⟨hunits q hq, hports q⟩, by rw [hports], by rw [hports], by rw [hports], hinputs, [], by
    rw [hports, List.append_nil]⟩

theorem onlyInstance_setXtc (s : State) (x : Canceller) : OnlyInstance .xtc s (s.setXtc x) :=
  onlyInstance_of_ports (fun q hq => by
    cases q with
    | xtc => exact absurd rfl hq
    | _ => rfl) (s.setXtc_port x) rfl
theorem onlyInstance_setBq (s : State) (b : Biquad) : OnlyInstance .bq s (s.setBq b) :=
  onlyInstance_of_ports (fun q hq => by
    cases q with
    | bq => exact absurd rfl hq
    | _ => rfl) (s.setBq_port b) rfl
theorem onlyInstance_setDl (s : State) (d : DelayLine) : OnlyInstance .dl s (s.setDl d) :=
  onlyInstance_of_ports (fun q hq => by
    cases q with
    | dl => exact absurd rfl hq
    | _ => rfl) (s.setDl_port d) rfl
theorem onlyInstance_setCfb (s : State) (c : FilterBank) : OnlyInstance .cfb s (s.setCfb c) :=
  onlyInstance_of_ports (fun q hq => by
    cases q with
    | cfb => exact absurd rfl hq
    | _ => rfl) (s.setCfb_port c) rfl
theorem onlyInstance_setFos (s : State) (f : Shaper) : OnlyInstance .fos s (s.setFos f) :=
  onlyInstance_of_ports (fun q hq => by
    cases q with
    | fos => exact absurd rfl hq
    | _ => rfl) (s.setFos_port f) rfl

theorem sameUnit_setPort (q p : PortId) (s : State) (r : Port) : SameUnit q s (s.setPort p r) := by
  cases q <;> simp [SameUnit]

theorem onlyInstance_emit (s : State) (p : PortId) (ws : List Word) : OnlyInstance p s (s.emit p ws) :=
  ⟨fun q hq => ⟨sameUnit_setPort q p s _, s.emit_port_ne p ws q hq⟩, by simp, by simp, by simp, by simp, [], by simp⟩

theorem onlyInstance_noteUnset (s : State) (p : PortId) (names : List RegName) : OnlyInstance p s (s.noteUnset p names) :=
  ⟨fun q hq => ⟨sameUnit_setPort q p s _, s.noteUnset_port_ne p names q hq⟩, by simp, by simp, by simp, by simp, _, by
    rw [State.noteUnset_port]⟩

/-- A completed command has touched its own unit and port only. -/
theorem Completed.onlyInstance {s t : State} {o : Op} (h : Completed s o t) : OnlyInstance o.port s t := by
  cases h with
  | tuned ho c =>
    have hport : o.port = .bq := by
      simp only [tuningOps, List.mem_cons, List.not_mem_nil, or_false] at ho
      rcases ho with rfl | rfl | rfl | rfl | rfl <;> rfl
    rw [hport]
    exact onlyInstance_setBq ..
  | sectionFed x => exact (onlyInstance_setBq ..).trans <| (onlyInstance_noteUnset ..).trans (onlyInstance_emit ..)
  | lineSet ho hr =>
    have hport : o.port = .dl := by
      simp only [List.mem_cons, List.not_mem_nil, or_false] at ho
      rcases ho with rfl | rfl <;> rfl
    rw [hport]
    exact onlyInstance_setDl ..
  | linePut x hc => exact onlyInstance_setDl ..
  | answered ho ws => exact onlyInstance_emit ..
  | bankSet hr rate => exact onlyInstance_setCfb ..
  | bankPut x hc => exact (onlyInstance_setCfb ..).trans (onlyInstance_noteUnset ..)
  | shaperSet clampEn rate => exact onlyInstance_setFos ..
  | shaperFed x => exact (onlyInstance_setFos ..).trans <| (onlyInstance_noteUnset ..).trans (onlyInstance_emit ..)
  | reconfigured => exact onlyInstance_setXtc ..
  | processed hblock => exact (onlyInstance_setXtc ..).trans <| (onlyInstance_noteUnset ..).trans (onlyInstance_emit ..)
  | bypassSet b => exact onlyInstance_setXtc ..

/-- Only the four processing operations record Unset reads (log 2). -/
theorem Completed.record_kept {s t : State} {o : Op} (h : Completed s o t)
    (ho : o ∉ [Op.bqProcess, .cfbPut, .fosProcess, .xtcProcess]) (p : PortId) :
    (t.port p).unsetReads = (s.port p).unsetReads := by
  cases h with
  | sectionFed | bankPut | shaperFed | processed => exact absurd (by decide) ho
  | answered _ ws =>
    by_cases hp : p = o.port
    · rw [hp, State.emit_port]
    · rw [s.emit_port_ne _ ws p hp]
  | tuned | lineSet | linePut | bankSet | shaperSet | reconfigured | bypassSet => simp

/-- Settles O10: the case of `Completed` says which unit was written, and what was appended to its port. -/
theorem commandTouchesOnlyItsInstance : Obligations.CommandTouchesOnlyItsInstance := by
  intro i s t h
  have hc := completed_of_exec h
  have hinst := hc.onlyInstance
  exact ⟨hinst.others, hinst.cmd, hinst.ill, hinst.illHeaders, hinst.inputs, hinst.record,
    fun ho => hc.record_kept ho i.port⟩

/-! Histories and shaper states. -/

theorem sameHistory_refl (b : Biquad) : SameHistory b b := ⟨rfl, rfl, rfl, rfl⟩
theorem sameHistories_refl (bs : List Biquad) : SameHistories bs bs := List.forall₂_same.mpr fun b _ => sameHistory_refl b
theorem sameShaperState_refl (f : Shaper) : SameShaperState f f := ⟨rfl, rfl⟩
theorem sameHistory_setCoeffs (b : Biquad) (c : Coeffs) : SameHistory b (setCoeffs b c) := ⟨rfl, rfl, rfl, rfl⟩
theorem sameShaperState_tuneShaper (P : Params) (clampEn : Bool) (rate : F32) (f : Shaper) :
    SameShaperState f (tuneShaper P clampEn rate f) := ⟨rfl, rfl⟩

/-- A reconfigure keeps the histories of a path, in every head-shadow model (rule R23). -/
theorem sameHistories_setPath (P : Params) (hsm : HeadShadow) (interp : Bool) (rate : F32) (r : DelayRequest) (p : Path) :
    SameHistories p.cfb.sec (setPath P hsm interp rate r p).cfb.sec := by
  rw [setPath_sec]
  split
  · exact tuneSections_histories ..
  · exact sameHistories_refl _

/-- A reconfigure keeps the shaper states of a path, in every head-shadow model (rule R30). -/
theorem sameShaperState_setPath (P : Params) (hsm : HeadShadow) (interp : Bool) (rate : F32) (r : DelayRequest) (p : Path) :
    SameShaperState p.fos (setPath P hsm interp rate r p).fos := by
  rw [setPath_fos]
  split
  · exact sameShaperState_tuneShaper ..
  · exact sameShaperState_refl _

/-- Every section of the machine has in `t` the history it had in `s`. -/
def HistoriesKept (s t : State) : Prop :=
  SameHistory s.bq t.bq ∧ SameHistories s.cfb.sec t.cfb.sec ∧
  SameHistories s.xtc.pathA.cfb.sec t.xtc.pathA.cfb.sec ∧ SameHistories s.xtc.pathB.cfb.sec t.xtc.pathB.cfb.sec

theorem historiesKept_of_eq {s t : State} (hbq : t.bq = s.bq) (hcfb : t.cfb = s.cfb) (hA : t.xtc.pathA = s.xtc.pathA)
    (hB : t.xtc.pathB = s.xtc.pathB) : HistoriesKept s t := by
  rw [HistoriesKept, hbq, hcfb, hA, hB]
  exact ⟨sameHistory_refl _, sameHistories_refl _, sameHistories_refl _, sameHistories_refl _⟩

/-- Every shaper of the machine has in `t` the states it had in `s`. -/
def ShaperStatesKept (s t : State) : Prop :=
  SameShaperState s.fos t.fos ∧ SameShaperState s.xtc.pathA.fos t.xtc.pathA.fos ∧
  SameShaperState s.xtc.pathB.fos t.xtc.pathB.fos

theorem shaperStatesKept_of_eq {s t : State} (hfos : t.fos = s.fos) (hA : t.xtc.pathA = s.xtc.pathA)
    (hB : t.xtc.pathB = s.xtc.pathB) : ShaperStatesKept s t := by
  rw [ShaperStatesKept, hfos, hA, hB]
  exact ⟨sameShaperState_refl _, sameShaperState_refl _, sameShaperState_refl _⟩

/-- A completed command that performs no `BQ_PROCESS` has written no history. -/
theorem Completed.historiesKept {s t : State} {o : Op} (h : Completed s o t) (hbq : o ≠ .bqProcess) (hcfb : o ≠ .cfbPut)
    (hxtc : o ≠ .xtcProcess) : HistoriesKept s t := by
  cases h with
  | sectionFed => exact absurd rfl hbq
  | bankPut => exact absurd rfl hcfb
  | processed => exact absurd rfl hxtc
  | tuned ho c =>
    exact ⟨sameHistory_setCoeffs s.bq c, sameHistories_refl _, sameHistories_refl _, sameHistories_refl _⟩
  | bankSet hr rate =>
    exact ⟨sameHistory_refl _, tuneSections_histories .., sameHistories_refl _, sameHistories_refl _⟩
  | reconfigured =>
    exact ⟨sameHistory_refl _, sameHistories_refl _, sameHistories_setPath .., sameHistories_setPath ..⟩
  | lineSet | linePut | answered | shaperSet | shaperFed | bypassSet => apply historiesKept_of_eq <;> simp

/-- Settles O12. -/
theorem historiesArePersistent : Obligations.HistoriesArePersistent :=
  fun _ _ _ h hbq hcfb hxtc => (completed_of_exec h).historiesKept hbq hcfb hxtc

/-- A completed command that performs no `FOS_PROCESS` has written no shaper state. -/
theorem Completed.shaperStatesKept {s t : State} {o : Op} (h : Completed s o t) (hfos : o ≠ .fosProcess)
    (hxtc : o ≠ .xtcProcess) : ShaperStatesKept s t := by
  cases h with
  | shaperFed => exact absurd rfl hfos
  | processed => exact absurd rfl hxtc
  | shaperSet clampEn rate =>
    exact ⟨sameShaperState_tuneShaper .., sameShaperState_refl _, sameShaperState_refl _⟩
  | reconfigured => exact ⟨sameShaperState_refl _, sameShaperState_setPath .., sameShaperState_setPath ..⟩
  | tuned | sectionFed | lineSet | linePut | answered | bankSet | bankPut | bypassSet =>
    apply shaperStatesKept_of_eq <;> simp

/-- Settles O13. -/
theorem shaperStatesArePersistent : Obligations.ShaperStatesArePersistent :=
  fun _ _ _ h hfos hxtc => (completed_of_exec h).shaperStatesKept hfos hxtc

/-! Re-tuning (rule R159). -/

/-- `BQ_PROCESS` on a tuned section reads no Unset register: it shifts the history and answers the output (rule R158). -/
theorem exec_bqProcess_of_tuned {s : State} (h : Tuned s.bq) (x : F32) :
    exec (.bqProcess x) s = .next ((s.setBq (processBiquad x s.bq).1).emit .bq [(processBiquad x s.bq).2]) := by
  simp only [exec, execBqProcess, unsetCoeffs_eq_nil.mpr h, State.noteUnset_nil]

/-- A tuning operation that completes has written five coefficients of the section, and nothing else. -/
theorem Completed.setCoeffs_of_tuning {s t : State} {o : Op} (h : Completed s o t) (ho : o ∈ tuningOps) :
    ∃ c, t = s.setBq (setCoeffs s.bq c) := by
  cases h with
  | tuned _ c => exact ⟨c, rfl⟩
  | lineSet hl =>
    simp only [List.mem_cons, List.not_mem_nil, or_false] at hl
    rcases hl with rfl | rfl <;> exact absurd ho (by decide)
  | answered ha =>
    simp only [answeringOps, List.mem_cons, List.not_mem_nil, or_false] at ha
    rcases ha with rfl | rfl | rfl <;> exact absurd ho (by decide)
  | sectionFed | linePut | bankSet | bankPut | shaperSet | shaperFed | reconfigured | processed | bypassSet =>
    exact absurd ho (by decide)

/-- Settles O19: the section after the tuning is tuned and has the old history, so the next `BQ_PROCESS` reads no Unset
register and computes from the new coefficients and that history. -/
theorem retuningKeepsTheHistoryInPlace : Obligations.RetuningKeepsTheHistoryInPlace := by
  refine ⟨fun i s t hi h => ?_, fun x s t h => ?_⟩
  · obtain ⟨c, rfl⟩ := (completed_of_exec h).setCoeffs_of_tuning hi
    exact ⟨sameHistory_setCoeffs s.bq c, c, rfl, exec_bqProcess_of_tuned (tuned_setCoeffs s.bq c)⟩
  · cases h
    simp [processBiquad]

/-! The state machine (rules R34, R251). -/

theorem Sampled.bypass {x x' : Canceller} (h : Sampled x x') : x'.bypass = x.bypass := by rw [h.rest]

/-- `XTC_PROCESS` never writes `bypass`. -/
theorem processBlock_bypass {P : Params} {tap : FbTap} {ps : List (F32 × F32)} {x x' : Canceller} {ws : List Word}
    (h : processBlock P tap ps x = .ok (x', ws)) : x'.bypass = x.bypass :=
  processBlock_rel (fun x x' => x'.bypass = x.bypass) (fun _ => rfl) (fun hs hr => hr.trans hs.bypass) (fun _ _ hr => hr) h

/-- What `XTC_PROCESS` does to the state machine: in bypass nothing; else it starts outside Unconfigured and ends in Ready. -/
theorem processBlock_phase {P : Params} {tap : FbTap} {ps : List (F32 × F32)} {x x' : Canceller} {ws : List Word}
    (h : processBlock P tap ps x = .ok (x', ws)) :
    (x.bypass = true ∧ x'.phase = x.phase) ∨ (x.bypass = false ∧ x.phase ≠ .unconfigured ∧ x'.phase = .ready) := by
  rcases processBlock_spec h with ⟨hb, rfl, -⟩ | ⟨hb, hphase, _, -, rfl⟩
  · exact .inl ⟨hb, rfl⟩
  · exact .inr ⟨hb, hphase, rfl⟩

theorem Completed.phase_reconfigured {s t : State} (h : Completed s .xtcReconfigure t) : t.xtc.phase = .ready := by
  cases h with
  | reconfigured => rfl
  | tuned ho | lineSet ho | answered ho => exact absurd ho (by decide)

theorem Completed.phase_processed {s t : State} (h : Completed s .xtcProcess t) :
    (s.xtc.bypass = true ∧ t.xtc.phase = s.xtc.phase) ∨
    (s.xtc.bypass = false ∧ s.xtc.phase ≠ .unconfigured ∧ t.xtc.phase = .ready) := by
  cases h with
  | processed hblock => simpa using processBlock_phase hblock
  | tuned ho | lineSet ho | answered ho => exact absurd ho (by decide)

/-- A completed command other than the two that move the state machine leaves it. -/
theorem Completed.phase_kept {s t : State} {o : Op} (h : Completed s o t) (hr : o ≠ .xtcReconfigure) (hp : o ≠ .xtcProcess) :
    t.xtc.phase = s.xtc.phase := by
  cases h with
  | reconfigured => exact absurd rfl hr
  | processed => exact absurd rfl hp
  | bypassSet b => rfl
  | tuned | sectionFed | lineSet | linePut | answered | bankSet | bankPut | shaperSet | shaperFed => simp

/-- A completed command other than `XTC_SET_BYPASS` leaves `bypass`. -/
theorem Completed.bypass_kept {s t : State} {o : Op} (h : Completed s o t) (hb : o ≠ .xtcSetBypass) :
    t.xtc.bypass = s.xtc.bypass := by
  cases h with
  | bypassSet => exact absurd rfl hb
  | reconfigured => rfl
  | processed hblock => simpa using processBlock_bypass hblock
  | tuned | sectionFed | lineSet | linePut | answered | bankSet | bankPut | shaperSet | shaperFed => simp

/-- Settles O52. -/
theorem commandsMoveTheStateMachineAsTheTableSays : Obligations.CommandsMoveTheStateMachineAsTheTableSays := by
  intro i s t h
  have hc := completed_of_exec h
  refine ⟨fun ho => ?_, fun ho hb => ?_, fun ho hb => ?_, hc.phase_kept, hc.bypass_kept⟩
  · rw [ho] at hc
    exact hc.phase_reconfigured
  · rw [ho] at hc
    rcases hc.phase_processed with ⟨hb', -⟩ | ⟨-, hphase⟩
    · exact absurd (hb.symm.trans hb') Bool.false_ne_true
    · exact hphase
  · rw [ho] at hc
    rcases hc.phase_processed with ⟨-, hphase⟩ | ⟨hb', -⟩
    · exact hphase
    · exact absurd (hb'.symm.trans hb) Bool.false_ne_true

end Sys2Proof.Machine
end

section
/-! State: the invariant of every unit, at reset and kept by each of its operations (rules R21, R25 to R28, R50, R60 to R62,
R252). -/

namespace Sys2Proof.Machine

/-! Delay lines. -/

theorem lineOk_reset (P : Params) : LineOk P resetDelayLine :=
  ⟨Nat.zero_le _, nofun, fun _ => rfl, rfl, rfl, nofun, fun _ => rfl⟩

/-- A sound request makes a sound line of a sound line (rule R185). -/
theorem LineOk.dlSet {dl : DelayLine} {r : DelayRequest} {interp : Bool} (h : LineOk Config.params dl)
    (hr : SoundRequest r interp) : LineOk Config.params (dlSet r interp dl) := by
  have hpos := hr.len_pos
  refine ⟨hr.len_le, fun _ => ?_, fun h0 => ?_, ?_, ?_, fun hi => ?_, hr.whole_frac⟩
  · rw [dlSet_index, dlSet_cap]
    split
    case isTrue hsame => exact hsame ▸ h.index_lt (by omega)
    case isFalse => exact hpos
  · rw [dlSet_cap] at h0
    omega
  · rw [dlSet_data]
    split
    · exact h.wf
    · exact Memory.wf_zeroFilled
  · rw [dlSet_data, dlSet_cap]
    split
    case isTrue hsame => exact hsame ▸ h.below
    case isFalse => exact Memory.below_zeroFilled _
  · rw [dlSet_interp] at hi
    rw [dlSet_delaySamples, if_pos hi, Reg.val_written]

/-- A put into a configured line keeps it sound (rule R183). -/
theorem LineOk.pushSample {P : Params} {dl : DelayLine} (x : F32) (h : LineOk P dl) (hc : dl.cap ≠ 0) :
    LineOk P (pushSample x dl) :=
  have hpos : 0 < dl.cap := Nat.pos_of_ne_zero hc
  ⟨h.cap_le, fun _ => Nat.mod_lt _ hpos, fun h0 => absurd h0 hc, Memory.wf_write _ _ h.wf,
    Memory.below_write _ (h.index_lt hpos) h.below, h.interp_set, h.whole_frac⟩

/-! Sections. -/

theorem coeffsTogether_reset : CoeffsTogether resetBiquad := .inr ⟨rfl, rfl, rfl, rfl, rfl⟩

theorem coeffsTogether_processBiquad {b : Biquad} (x : F32) (h : CoeffsTogether b) :
    CoeffsTogether (processBiquad x b).1 := h

/-- A tuning from a table keeps every section whole: each is tuned or as before. -/
theorem coeffsTogether_tuneSections (P : Params) (rate : F32) : ∀ (es : List Entry) {bs : List Biquad},
    (∀ b ∈ bs, CoeffsTogether b) → ∀ b ∈ tuneSections P rate es bs, CoeffsTogether b
  | [], _, h => h
  | _ :: _, [], h => h
  | e :: es, b :: bs, h => by
    obtain ⟨-, hbs⟩ := List.forall_mem_cons.mp h
    exact List.forall_mem_cons.mpr ⟨.inl (tuned_tune ..), coeffsTogether_tuneSections P rate es hbs⟩

/-- As many sections as the table has entries are tuned. -/
theorem tuned_tuneSections (P : Params) (rate : F32) : ∀ (es : List Entry) (bs : List Biquad),
    ∀ b ∈ (tuneSections P rate es bs).take es.length, Tuned b
  | [], _ => by simp
  | _ :: _, [] => by simp [tuneSections]
  | _ :: es, _ :: bs => List.forall_mem_cons.mpr ⟨tuned_tune .., tuned_tuneSections P rate es bs⟩

/-- The sections that exist are tuned after a tuning from `HS_TABLE` (rule R212). -/
theorem bankTuned_tuneSections (P : Params) (rate : F32) {secs : List Biquad} (h : secs.length = maxSections) :
    BankTuned P (tuneSections P rate (hsTable P) secs) := by
  obtain ⟨hlength, -⟩ := tuneSections_spec P rate (hsTable P) secs
  refine ⟨by rw [hlength, h]; exact nsec_le_maxSections P, ?_⟩
  rw [← length_hsTable P]
  exact tuned_tuneSections P rate (hsTable P) secs

/-! Banks. -/

theorem eq_of_mem_resetFilterBank {b : Biquad} (h : b ∈ resetFilterBank.sec) : b = resetBiquad := List.eq_of_mem_replicate h

theorem bankOk_reset (P : Params) : BankOk P resetFilterBank :=
  ⟨rfl, fun _ hb => eq_of_mem_resetFilterBank hb ▸ coeffsTogether_reset, lineOk_reset P⟩

/-- A bank with its sections tuned from `HS_TABLE` and its line set is sound (rule R212). -/
theorem BankOk.configured {c : FilterBank} {r : DelayRequest} {interp : Bool} (h : BankOk Config.params c)
    (hr : SoundRequest r interp) (rate : F32) :
    BankOk Config.params
      { sec := tuneSections Config.params rate (hsTable Config.params) c.sec, dl := Machine.dlSet r interp c.dl } :=
  ⟨(tuneSections_spec ..).1.trans h.sections, coeffsTogether_tuneSections _ rate _ h.together, h.line.dlSet hr⟩

/-- A bank with one sample pushed into its configured line and the same coefficients is sound (rule R213). -/
theorem BankOk.pushed {P : Params} {c c' : FilterBank} {x : F32} (h : BankOk P c) (hc : c.dl.cap ≠ 0)
    (hcoeffs : List.Forall₂ SameCoeffs c.sec c'.sec) (hline : c'.dl = Machine.pushSample x c.dl) : BankOk P c' :=
  ⟨hcoeffs.length_eq ▸ h.sections, together_sameCoeffs hcoeffs h.together, hline ▸ h.line.pushSample x hc⟩

/-! Shapers. -/

theorem shaperTogether_reset : ShaperTogether resetShaper := .inr ⟨rfl, rfl, rfl⟩

theorem shaperTuned_tuneShaper (P : Params) (clampEn : Bool) (rate : F32) (f : Shaper) :
    ShaperTuned (tuneShaper P clampEn rate f) := ⟨rfl, rfl, rfl⟩

theorem shaperTogether_processShaper {f : Shaper} (x : F32) (h : ShaperTogether f) :
    ShaperTogether (processShaper x f).1 := h

/-! Paths. -/

/-- What the invariant asks of one correction path, whatever the state machine says. -/
structure PathOk (P : Params) (p : Path) : Prop where
  bank : BankOk P p.cfb
  shaper : ShaperTogether p.fos

/-- A `path_put` into a configured line keeps the path sound (rule R254). -/
theorem PathOk.pushed {P : Params} {p p' : Path} (h : PathOk P p) (hc : p.cfb.dl.cap ≠ 0) (hp : Pushed p p') : PathOk P p' := by
  obtain ⟨x, hline⟩ := hp.line
  refine ⟨h.bank.pushed hc hp.coeffs hline, ?_⟩
  simpa only [ShaperTogether, ShaperTuned, hp.lp, hp.hp, hp.fg] using h.shaper

/-- A reconfigure keeps the path sound, in every head-shadow model (rule R252). -/
theorem PathOk.setPath {p : Path} {r : DelayRequest} {interp : Bool} (h : PathOk Config.params p)
    (hr : SoundRequest r interp) (hsm : HeadShadow) (rate : F32) :
    PathOk Config.params (setPath Config.params hsm interp rate r p) := by
  cases hsm with
  | none => exact ⟨⟨h.bank.sections, h.bank.together, h.bank.line.dlSet hr⟩, h.shaper⟩
  | firstOrderShaper =>
    exact ⟨⟨h.bank.sections, h.bank.together, h.bank.line.dlSet hr⟩, .inl (shaperTuned_tuneShaper ..)⟩
  | biquadCascade => exact ⟨h.bank.configured hr rate, h.shaper⟩

/-- A reconfigure tunes the selected head-shadow model (rule R252). -/
theorem PathOk.modelTuned_setPath {P : Params} {p : Path} (h : PathOk P p) (hsm : HeadShadow) (interp : Bool) (rate : F32)
    (r : DelayRequest) : ModelTuned P hsm (Machine.setPath P hsm interp rate r p) := by
  cases hsm with
  | none => trivial
  | firstOrderShaper => exact shaperTuned_tuneShaper ..
  | biquadCascade => exact bankTuned_tuneSections P rate h.bank.sections

/-! The top-level block. -/

theorem blockOk_reset (P : Params) : BlockOk P resetCanceller :=
  ⟨bankOk_reset P, bankOk_reset P, shaperTogether_reset, shaperTogether_reset, nofun, fun _ => rfl, nofun⟩

/-- What a running block keeps from sample to sample, whatever the state machine says. -/
structure RunningOk (P : Params) (x : Canceller) : Prop where
  pathA : PathOk P x.pathA
  pathB : PathOk P x.pathB
  ready : ReadyOk P x

/-- A sample keeps the block sound. -/
theorem RunningOk.sampled {P : Params} {x x' : Canceller} (h : RunningOk P x) (hs : Sampled x x') : RunningOk P x' := by
  have hcapA : x.pathA.cfb.dl.cap ≠ 0 := Nat.ne_of_gt h.ready.capA
  have hcapB : x.pathB.cfb.dl.cap ≠ 0 := h.ready.capB ▸ hcapA
  refine ⟨h.pathA.pushed hcapA hs.pathA, ?_, hs.readyOk h.ready⟩
  rcases hs.pathB with ⟨-, hB⟩ | ⟨-, hB⟩
  · exact hB ▸ h.pathB
  · exact h.pathB.pushed hcapB hB

/-- Nothing of it looks at the state machine. -/
theorem RunningOk.setPhase {P : Params} {x : Canceller} (h : RunningOk P x) (f : Phase) : RunningOk P { x with phase := f } :=
  ⟨h.pathA, h.pathB, ⟨h.ready.capA, h.ready.capB, h.ready.config, h.ready.gains, h.ready.modelA, h.ready.modelB⟩⟩

/-- A running block in Ready meets the invariant. -/
theorem RunningOk.blockOk {P : Params} {x : Canceller} (h : RunningOk P x) (hphase : x.phase = .ready) : BlockOk P x :=
  ⟨h.pathA.bank, h.pathB.bank, h.pathA.shaper, h.pathB.shaper, by rw [hphase]; nofun, by rw [hphase]; nofun, fun _ => h.ready⟩

/-- Between two commands a block that is not Unconfigured is in Ready. -/
theorem BlockOk.phase_ready {P : Params} {x : Canceller} (h : BlockOk P x) (hphase : x.phase ≠ .unconfigured) :
    x.phase = .ready := by
  cases hp : x.phase with
  | unconfigured => exact absurd hp hphase
  | ready => rfl
  | processing => exact absurd hp h.idle

theorem BlockOk.runningOk {P : Params} {x : Canceller} (h : BlockOk P x) (hphase : x.phase ≠ .unconfigured) : RunningOk P x :=
  ⟨⟨h.bankA, h.fosA⟩, ⟨h.bankB, h.fosB⟩, h.ready (h.phase_ready hphase)⟩

/-- A reconfigure ends in a sound block, whatever the state machine was in (rule R252). -/
theorem BlockOk.applyConfig {x : Canceller} {r : DelayRequest} {interp : Bool} (h : BlockOk Config.params x)
    (hr : SoundRequest r interp) (phantom : Bool) (hsm : HeadShadow) (cen : Bool) (rate delayUs decayDb centerDb : F32) :
    BlockOk Config.params (applyConfig Config.params phantom hsm interp cen rate delayUs decayDb centerDb r x) := by
  have hA : PathOk Config.params x.pathA := ⟨h.bankA, h.fosA⟩
  have hB : PathOk Config.params x.pathB := ⟨h.bankB, h.fosB⟩
  refine RunningOk.blockOk ⟨hA.setPath hr hsm rate, hB.setPath hr hsm rate, ?_⟩ rfl
  refine ⟨?_, ?_, ⟨rfl, rfl, rfl, rfl⟩, ⟨rfl, rfl, rfl⟩, hA.modelTuned_setPath .., hB.modelTuned_setPath ..⟩
  · simp only [Machine.applyConfig, setPath_dl, dlSet_cap]
    exact hr.len_pos
  · simp only [Machine.applyConfig, setPath_dl, dlSet_cap]

/-- `XTC_PROCESS` keeps the block sound: in bypass it writes nothing, else it runs from Ready to Ready (rule R255). -/
theorem BlockOk.processBlock {P : Params} {tap : FbTap} {pairs : List (F32 × F32)} {x x' : Canceller} {ws : List Word}
    (h : BlockOk P x) (hx : processBlock P tap pairs x = .ok (x', ws)) : BlockOk P x' := by
  rcases processBlock_spec hx with ⟨-, rfl, -⟩ | ⟨-, hphase, x1, hrun, rfl⟩
  · exact h
  · have hkeeps : RunningOk P { x with phase := .processing } → RunningOk P x1 :=
      processPairs_rel (fun x x' => RunningOk P x → RunningOk P x') (fun _ => id) (fun hs hrest h => hrest (h.sampled hs)) hrun
    exact ((hkeeps ((h.runningOk hphase).setPhase _)).setPhase _).blockOk rfl

/-- The block never reads an Unset register (rule R256, log 2). -/
theorem BlockOk.unsetBlock {P : Params} {tap : FbTap} {pairs : List (F32 × F32)} {x x' : Canceller} {ws : List Word}
    (h : BlockOk P x) (hx : Machine.processBlock P tap pairs x = .ok (x', ws)) : unsetBlock P pairs x = [] := by
  rw [Machine.unsetBlock]
  rcases processBlock_spec hx with ⟨hbypass, -⟩ | ⟨-, hphase, -⟩
  · rw [hbypass, Bool.true_or, if_pos rfl]
  · rw [(h.runningOk hphase).ready.unsetSample, ite_self]

/-- `XTC_SET_BYPASS` keeps the block sound: no clause of the invariant looks at `bypass` (rule R261). -/
theorem BlockOk.setBypass {P : Params} {x : Canceller} (h : BlockOk P x) (b : Bool) : BlockOk P { x with bypass := b } :=
  ⟨h.bankA, h.bankB, h.fosA, h.fosB, h.idle, h.fresh, fun hphase =>
    have hr := h.ready hphase
    ⟨hr.capA, hr.capB, hr.config, hr.gains, hr.modelA, hr.modelB⟩⟩

end Sys2Proof.Machine
end

section
/-! State: the reset values, and the invariant of the whole state at reset and along every step (rules R50, R68, R103, R330). -/

namespace Sys2Proof.Machine

/-! The reset state (rule R50). -/

/-- Settles O9: every row by evaluation; of a bank's sections each is the reset section. -/
theorem resetValuesAreThoseOfTheTable : Obligations.ResetValuesAreThoseOfTheTable := by
  refine ⟨rfl, rfl, fun p => by cases p <;> rfl, rfl, rfl, rfl, rfl, rfl, rfl, rfl, rfl, rfl, rfl, rfl, ?_, ?_, ?_⟩
  · intro b hb
    have hreset : b = resetBiquad := by
      simp only [List.cons_append, List.mem_cons, List.mem_append] at hb
      rcases hb with rfl | (hb | hb) | hb
      · rfl
      · exact eq_of_mem_resetFilterBank hb
      · exact eq_of_mem_resetFilterBank hb
      · exact eq_of_mem_resetFilterBank hb
    subst hreset
    exact ⟨rfl, rfl, rfl, rfl, rfl, rfl, rfl, rfl, rfl⟩
  · intro d hd
    have hreset : d = resetDelayLine := by simpa [State.reset, resetCanceller, resetPath, resetFilterBank] using hd
    subst hreset
    exact ⟨rfl, rfl, rfl, rfl, rfl, rfl⟩
  · intro f hf
    have hreset : f = resetShaper := by simpa [State.reset, resetCanceller, resetPath] using hf
    subst hreset
    exact ⟨rfl, rfl, rfl, rfl, rfl, rfl⟩

/-- Every port is empty at reset. -/
theorem port_reset (p : PortId) : State.reset.port p = resetPort := by cases p <;> rfl

/-- The reset state meets the invariant, for every choice of the parameters. -/
theorem stateOk_reset (P : Params) : StateOk P State.reset where
  xtc := blockOk_reset P
  bq := coeffsTogether_reset
  dl := lineOk_reset P
  cfb := bankOk_reset P
  cfbTuned := nofun
  fos := shaperTogether_reset
  ports := fun p => by rw [port_reset]; nofun
  unset := fun p _ _ => by rw [port_reset]; rfl

/-- Settles O55. -/
theorem resetMeetsTheInvariant : Obligations.ResetMeetsTheInvariant := stateOk_reset Config.params

/-! The invariant after each update of the state. -/

section
variable {P : Params} {s : State}

theorem StateOk.setInputs (h : StateOk P s) (l : List Input) : StateOk P (s.setInputs l) :=
  { h with ports := by simpa using h.ports, unset := by simpa using h.unset }

theorem StateOk.setXtc {x : Canceller} (h : StateOk P s) (hx : BlockOk P x) : StateOk P (s.setXtc x) :=
  { h with xtc := hx, ports := by simpa using h.ports, unset := by simpa using h.unset }

theorem StateOk.setBq {b : Biquad} (h : StateOk P s) (hb : CoeffsTogether b) : StateOk P (s.setBq b) :=
  { h with bq := hb, ports := by simpa using h.ports, unset := by simpa using h.unset }

theorem StateOk.setDl {d : DelayLine} (h : StateOk P s) (hd : LineOk P d) : StateOk P (s.setDl d) :=
  { h with dl := hd, ports := by simpa using h.ports, unset := by simpa using h.unset }

theorem StateOk.setCfb {c : FilterBank} (h : StateOk P s) (hc : BankOk P c) (ht : 0 < c.dl.cap → BankTuned P c.sec) :
    StateOk P (s.setCfb c) :=
  { h with cfb := hc, cfbTuned := ht, ports := by simpa using h.ports, unset := by simpa using h.unset }

theorem StateOk.setFos {f : Shaper} (h : StateOk P s) (hf : ShaperTogether f) : StateOk P (s.setFos f) :=
  { h with fos := hf, ports := by simpa using h.ports, unset := by simpa using h.unset }

/-- A port may be replaced by one whose `ill` flag is up only with a header recorded, and which records no Unset read unless it
is a stand-alone BQ's or FOS's. -/
theorem StateOk.setPort {p : PortId} {q : Port} (h : StateOk P s) (hq : PortOk q)
    (hu : p ≠ .bq → p ≠ .fos → q.unsetReads = []) : StateOk P (s.setPort p q) where
  xtc := by simpa using h.xtc
  bq := by simpa using h.bq
  dl := by simpa using h.dl
  cfb := by simpa using h.cfb
  cfbTuned := by simpa using h.cfbTuned
  fos := by simpa using h.fos
  ports := fun o => by
    rw [State.setPort_port_eq]
    split
    · exact hq
    · exact h.ports o
  unset := fun o hbq hfos => by
    rw [State.setPort_port_eq]
    split
    case isTrue ho => exact hu (ho ▸ hbq) (ho ▸ hfos)
    case isFalse => exact h.unset o hbq hfos

theorem StateOk.emit (h : StateOk P s) (p : PortId) (ws : List Word) : StateOk P (s.emit p ws) :=
  h.setPort (h.ports p) (h.unset p)

theorem StateOk.consume (h : StateOk P s) (p : PortId) (ws : List Word) : StateOk P (s.consume p ws) :=
  h.setPort (h.ports p) (h.unset p)

/-- Only a stand-alone BQ or FOS records Unset reads. -/
theorem StateOk.noteUnset (h : StateOk P s) {p : PortId} (hp : p = .bq ∨ p = .fos) (names : List RegName) :
    StateOk P (s.noteUnset p names) :=
  h.setPort (h.ports p) fun hbq hfos => by
    rcases hp with hp | hp
    · exact absurd hp hbq
    · exact absurd hp hfos

/-- An illegal header puts the flag up and is recorded (rule R103). -/
theorem StateOk.takeIllegal (h : StateOk P s) (p : PortId) (header : Word) (rest : List Word) :
    StateOk P (s.takeIllegal p header rest) :=
  h.setPort (fun _ => List.append_ne_nil_of_right_ne_nil _ (List.cons_ne_nil _ _)) (h.unset p)

/-- A unit may be put back into its reset values (rule R330). -/
theorem StateOk.resetUnit (h : StateOk P s) (p : PortId) : StateOk P (s.resetUnit p) := by
  cases p with
  | xtc => exact h.setXtc (blockOk_reset P)
  | bq => exact h.setBq coeffsTogether_reset
  | dl => exact h.setDl (lineOk_reset P)
  | cfb => exact h.setCfb (bankOk_reset P) nofun
  | fos => exact h.setFos shaperTogether_reset

theorem StateOk.resetInstance (h : StateOk P s) (p : PortId) : StateOk P (s.resetInstance p) :=
  (h.resetUnit p).setPort nofun (h.unset p)

end

/-! The invariant along every step. -/

/-- A completed command keeps the invariant: each writes a sound unit, and on the block's and the bank's port the record of
Unset reads stays empty, because what they read has been tuned. -/
theorem StateOk.completed {s t : State} {o : Op} (h : StateOk Config.params s) (hc : Completed s o t) :
    StateOk Config.params t := by
  cases hc with
  | tuned ho c => exact h.setBq (.inl (tuned_setCoeffs s.bq c))
  | sectionFed x => exact ((h.setBq (coeffsTogether_processBiquad x h.bq)).noteUnset (.inl rfl) _).emit _ _
  | lineSet ho hr => exact h.setDl (h.dl.dlSet hr)
  | linePut x hcap => exact h.setDl (h.dl.pushSample x hcap)
  | answered ho ws => exact h.emit _ ws
  | bankSet hr rate => exact h.setCfb (h.cfb.configured hr rate) fun _ => bankTuned_tuneSections _ rate h.cfb.sections
  | bankPut x hcap =>
    have htuned : BankTuned Config.params s.cfb.sec := h.cfbTuned (Nat.pos_of_ne_zero hcap)
    have hcoeffs := cascade_sameCoeffs (nsec Config.params) x s.cfb.sec
    rw [unsetSections_eq_nil.mpr htuned.2, State.noteUnset_nil]
    exact h.setCfb (h.cfb.pushed hcap hcoeffs rfl) fun _ => bankTuned_sameCoeffs hcoeffs htuned
  | shaperSet clampEn rate => exact h.setFos (.inl (shaperTuned_tuneShaper ..))
  | shaperFed x => exact ((h.setFos (shaperTogether_processShaper x h.fos)).noteUnset (.inr rfl) _).emit _ _
  | reconfigured hr => exact h.setXtc (h.xtc.applyConfig hr ..)
  | processed hblock =>
    rw [h.xtc.unsetBlock hblock, State.noteUnset_nil]
    exact (h.setXtc (h.xtc.processBlock hblock)).emit _ _
  | bypassSet b => exact h.setXtc (h.xtc.setBypass b)

/-- What serving a port can do where it answers a next state (rules R68, R103): wait, take an illegal header, or perform a
command. -/
theorem serve_next {p : PortId} {s t : State} (h : serve p s = .next t) :
    t = s ∨ (∃ header rest, t = s.takeIllegal p header rest) ∨ ∃ i rest, exec i (s.consume p rest) = .next t := by
  rw [serve] at h
  cases hf : s.fetch p with
  | idle => rw [hf] at h; cases h; exact .inl rfl
  | incomplete => rw [hf] at h; cases h; exact .inl rfl
  | illegal header why rest => rw [hf] at h; cases h; exact .inr (.inl ⟨header, rest, rfl⟩)
  | command i rest => rw [hf] at h; exact .inr (.inr ⟨i, rest, h⟩)

/-- What a step can do where it answers a next state: wait for an input, reset a unit, or serve a port. -/
theorem step_next {s t : State} (h : step s = .next t) :
    t = s ∨ (∃ p rest, t = (s.setInputs rest).resetInstance p) ∨ ∃ p rest, serve p (s.setInputs rest) = .next t := by
  rw [step, takeInput] at h
  split at h
  next p rest _ => cases h; exact .inr (.inl ⟨p, rest, rfl⟩)
  next => cases h
  next => cases h; exact .inl rfl
  next p rest _ _ => exact .inr (.inr ⟨p, rest, h⟩)

theorem StateOk.serve {p : PortId} {s t : State} (h : StateOk Config.params s) (hs : serve p s = .next t) :
    StateOk Config.params t := by
  rcases serve_next hs with rfl | ⟨header, rest, rfl⟩ | ⟨i, rest, hexec⟩
  · exact h
  · exact h.takeIllegal p header rest
  · exact (h.consume p rest).completed (completed_of_exec hexec)

/-- Settles O56: by what a step can do, and then by what the command it performs has made of the state. -/
theorem everyStepKeepsTheInvariant : Obligations.EveryStepKeepsTheInvariant := by
  intro s t h hstep
  rcases step_next hstep with rfl | ⟨p, rest, rfl⟩ | ⟨p, rest, hserve⟩
  · exact h
  · exact (h.setInputs rest).resetInstance p
  · exact (h.setInputs rest).serve hserve

end Sys2Proof.Machine
end

section
/-! A port without a complete command waits (rule R71, log 4). -/

namespace Sys2Proof.Machine

/-- A port with no word waiting has nothing to fetch. -/
theorem State.fetch_of_cmd_nil {s : State} {p : PortId} (h : (s.port p).cmd = []) : s.fetch p = .idle := by
  rw [State.fetch, h, decode]

/-- Serving a port changes nothing while no word waits there. -/
theorem serve_of_fetch_idle {s : State} {p : PortId} (h : s.fetch p = .idle) : serve p s = .next s := by
  rw [serve, h]

/-- Serving a port changes nothing while the payload of its command is not complete. -/
theorem serve_of_fetch_incomplete {s : State} {p : PortId} (h : s.fetch p = .incomplete) : serve p s = .next s := by
  rw [serve, h]

/-- Settles O7: with the run not over the input reaches the port, which in both cases has no whole command to perform. -/
theorem portWaitsForACompleteCommand : Obligations.PortWaitsForACompleteCommand := by
  intro s p rest hill hin hwait
  rw [step_command hill hin]
  rcases hwait with hincomplete | hnone
  · exact serve_of_fetch_incomplete ((s.fetch_setInputs rest p).trans hincomplete)
  · exact serve_of_fetch_idle ((s.fetch_setInputs rest p).trans (State.fetch_of_cmd_nil hnone))

end Sys2Proof.Machine
end

section
/-! Encoding: which headers are legal, and what a header's fields say of it (rules R91 to R97, R103, R104). -/

namespace Sys2Proof

/-! The opcode map and the head-shadow field. -/

/-- The opcode map read in both directions (rule R93). -/
theorem opOf_eq_some_iff {b : BitVec 8} {o : Op} : opOf b = some o ↔ opcode o = b :=
  ⟨opcode_of_opOf, fun h => h ▸ opOf_opcode o⟩

/-- Only the code 3 is no head-shadow model (rule R94). -/
theorem headShadowOf_eq_none_iff {f : BitVec 2} : headShadowOf f = none ↔ f = 3 := by
  revert f; decide

/-- The two-bit codes of the head-shadow models, read in both directions (rule R94). -/
theorem headShadowOf_eq_some_iff {f : BitVec 2} {m : HeadShadow} : headShadowOf f = some m ↔ headShadowCode m = f := by
  revert f; cases m <;> decide

/-- The field `hsm` is bits 2:1 of the header itself. -/
theorem headerHsm_eq_none_iff {h : Word} : headerHsm h = none ↔ h.extractLsb' 1 2 = 3 := by
  have hfield : (headerArg h).extractLsb' 1 2 = h.extractLsb' 1 2 := by
    apply BitVec.eq_of_getLsbD_eq
    intro k hk
    simp only [headerArg, BitVec.getLsbD_extractLsb', Nat.zero_add, show 1 + k < 24 by omega, decide_true, Bool.true_and]
  rw [headerHsm, headShadowOf_eq_none_iff, hfield]

/-- A header is its `op` field followed by its `arg` field (rule R91). -/
theorem headerOp_append_headerArg (h : Word) : headerOp h ++ headerArg h = h := by
  apply BitVec.eq_of_getLsbD_eq
  intro k hk
  simp only [headerOp, headerArg, BitVec.getLsbD_append, BitVec.getLsbD_extractLsb']
  split
  next hlow => simp [hlow]
  next hhigh => simp [show k - 24 < 8 by omega, show 24 + (k - 24) = k by omega]

/-! Legal headers. -/

/-- What makes a header legal on a port, and which operation it then names (rules R93, R103, R104). -/
theorem decodeHeader_ok_iff {p : PortId} {h : Word} {o : Op} :
    decodeHeader p h = .ok o ↔
      opcode o = headerOp h ∧ headerArg h &&& reservedMask o = 0 ∧ (o = .xtcReconfigure → headerHsm h ≠ none) ∧
        o.port = p := by
  constructor
  · intro hdec
    rw [decodeHeader] at hdec
    split at hdec
    next => cases hdec
    next o' hop =>
      split at hdec
      next => cases hdec
      next hmask =>
        split at hdec
        next => cases hdec
        next hhsm =>
          split at hdec
          next => cases hdec
          next hport =>
            cases hdec
            exact ⟨opcode_of_opOf hop, not_not.mp hmask, fun ho hn => hhsm ⟨ho, hn⟩, not_not.mp hport⟩
  · rintro ⟨hop, hmask, hhsm, rfl⟩
    exact decodeHeader_of_fields (opOf_eq_some_iff.mpr hop) hmask hhsm

/-- A port either turns a header away or reads an operation from it. -/
theorem decodeHeader_error_iff {p : PortId} {h : Word} :
    (∃ why, decodeHeader p h = .error why) ↔ ∀ o, decodeHeader p h ≠ .ok o := by
  cases decodeHeader p h <;> simp

/-- Settles O3: a header that is legal for no operation either has none with its opcode or fails one of that operation's
three conditions; the opcode map is one to one, so no other operation can make it legal. -/
theorem illegalHeadersAreTheFourCases : Obligations.IllegalHeadersAreTheFourCases := by
  intro p h
  rw [decodeHeader_error_iff]
  simp only [ne_eq, decodeHeader_ok_iff, headerHsm_eq_none_iff]
  constructor
  · intro hillegal
    by_cases hop : ∃ o, opcode o = headerOp h
    case neg => exact .inl (not_exists.mp hop)
    obtain ⟨o, ho⟩ := hop
    refine .inr ⟨o, ho, ?_⟩
    by_contra hlegal
    obtain ⟨hmask, hhsm, hport⟩ : headerArg h &&& reservedMask o = 0 ∧
        ¬(o = .xtcReconfigure ∧ h.extractLsb' 1 2 = 3) ∧ o.port = p := by
      simpa only [headerArg, not_or, ne_eq, not_not] using hlegal
    exact hillegal o ⟨ho, hmask, fun hr h3 => hhsm ⟨hr, h3⟩, hport⟩
  · rintro (hunknown | ⟨o, ho, hcase⟩) o' ⟨hop, hmask, hhsm, hport⟩
    · exact hunknown o' hop
    · obtain rfl : o = o' := Option.some.inj <| (opOf_eq_some_iff.mpr ho).symm.trans (opOf_eq_some_iff.mpr hop)
      rcases hcase with hbit | ⟨hr, h3⟩ | hunit
      · exact hbit hmask
      · exact hhsm hr h3
      · exact hunit hport

end Sys2Proof
end

section
/-! Encoding: decoder and encoder undo each other (rules R91 to R97, R103 to R105). -/

namespace Sys2Proof

/-! The decoder on a legal header. -/

/-- What decodes to a command: a legal header and the words its payload is taken from. -/
theorem decode_command_iff {p : PortId} {ws : List Word} {i : Instr} {rest : List Word} :
    decode p ws = .command i rest ↔
      ∃ h tail o, ws = h :: tail ∧ decodeHeader p h = .ok o ∧ assemble o h tail = some (i, rest) := by
  constructor
  · intro hdec
    cases ws with
    | nil => cases hdec
    | cons h tail =>
      rw [decode] at hdec
      split at hdec
      next => cases hdec
      next o hheader =>
        split at hdec
        next => cases hdec
        next t hassemble =>
          obtain ⟨rfl, rfl⟩ := Fetch.command.inj hdec
          exact ⟨h, tail, o, rfl, hheader, hassemble⟩
  · rintro ⟨h, tail, o, rfl, hheader, hassemble⟩
    simp only [decode, hheader, hassemble]

/-! From a command to its words and back. -/

/-- The header of every command is legal on its own port and names its operation (rules R91, R103, R104). -/
theorem decodeHeader_encodeHeader (i : Instr) : decodeHeader i.port (encodeHeader i) = .ok i.op := by
  cases i with
  | xtcReconfigure => exact Laws.LegalHeader.xtcReconfigure ..
  | xtcProcess => exact Laws.LegalHeader.xtcProcess _
  | xtcSetBypass => exact Laws.LegalHeader.xtcSetBypass _
  | xtcGetLatency => exact Laws.LegalHeader.xtcGetLatency
  | bqSetLowpass => exact Laws.LegalHeader.bqSetLowpass ..
  | bqSetHighpass => exact Laws.LegalHeader.bqSetHighpass ..
  | bqSetPeaking => exact Laws.LegalHeader.bqSetPeaking ..
  | bqSetShelf => exact Laws.LegalHeader.bqSetShelf ..
  | bqSetAllpass => exact Laws.LegalHeader.bqSetAllpass ..
  | bqProcess => exact Laws.LegalHeader.bqProcess _
  | dlConfigure => exact Laws.LegalHeader.dlConfigure _
  | dlConfigureFrac => exact Laws.LegalHeader.dlConfigureFrac _
  | dlPut => exact Laws.LegalHeader.dlPut _
  | dlGet => exact Laws.LegalHeader.dlGet
  | cfbConfigure => exact Laws.LegalHeader.cfbConfigure ..
  | cfbPut => exact Laws.LegalHeader.cfbPut _
  | cfbGet => exact Laws.LegalHeader.cfbGet
  | fosConfigure => exact Laws.LegalHeader.fosConfigure ..
  | fosProcess => exact Laws.LegalHeader.fosProcess _

/-- The header and the payload of a well-formed command carry all of it (rules R93 to R97, R105). -/
theorem assemble_encode {i : Instr} (hwf : i.wellFormed = true) (rest : List Word) :
    assemble i.op (encodeHeader i) (encodePayload i ++ rest) = some (i, rest) := by
  cases i with
  | xtcReconfigure phantom hsm interp cen rate delayUs decayDb centerDb =>
    obtain ⟨-, hphantom, hinterp, hcen, hhsm⟩ := reconfigureArg_fields phantom interp cen hsm
    simp only [Instr.op, encodePayload, List.cons_append, List.nil_append, assemble, argBit, headerHsm, headerArg_encodeHeader,
      encodeArg, hphantom, hinterp, hcen, hhsm, Option.map_some]
  | xtcProcess pairs =>
    have hcount : (headerArg (encodeHeader (.xtcProcess pairs))).toNat = pairs.length := by
      rw [headerArg_encodeHeader]
      exact (BitVec.toNat_ofNat ..).trans (Nat.mod_eq_of_lt (of_decide_eq_true hwf))
    simp only [Instr.op, encodePayload, assemble, hcount, takePairs_flatMap, Option.map_some]
  | xtcSetBypass b =>
    simp only [Instr.op, encodePayload, List.nil_append, assemble, argBit, headerArg_encodeHeader, encodeArg,
      flagArg_fields]
  | dlConfigure len => simp [Instr.op, encodePayload, assemble, encodeArg]
  | cfbConfigure interp delayUs rate =>
    simp only [Instr.op, encodePayload, List.cons_append, List.nil_append, assemble, argBit, headerArg_encodeHeader, encodeArg,
      flagArg_fields]
  | fosConfigure clampEn rate =>
    simp only [Instr.op, encodePayload, List.cons_append, List.nil_append, assemble, argBit, headerArg_encodeHeader, encodeArg,
      flagArg_fields]
  | xtcGetLatency | bqSetLowpass | bqSetHighpass | bqSetPeaking | bqSetShelf | bqSetAllpass | bqProcess | dlConfigureFrac | dlPut
  | dlGet | cfbPut | cfbGet | fosProcess => rfl

/-- Settles O1: the header is legal, and it and the payload give every operand back. -/
theorem encodedCommandDecodesToItself : Obligations.EncodedCommandDecodesToItself := fun i rest hwf =>
  decode_command_iff.mpr ⟨_, _, i.op, rfl, decodeHeader_encodeHeader i, assemble_encode hwf rest⟩

/-! From words to a command and back: the payload. -/

/-- The pairs taken from a word sequence are as many as asked for, and their words are the ones taken (rule R95). -/
theorem takePairs_eq_some : ∀ {n : Nat} {ws : List Word} {ps : List (F32 × F32)} {rest : List Word},
    takePairs n ws = some (ps, rest) → ps.length = n ∧ ws = (ps.flatMap fun p => [p.1, p.2]) ++ rest
  | 0, ws, ps, rest, h => by
    obtain ⟨rfl, rfl⟩ := Prod.mk.inj (Option.some.inj h)
    exact ⟨rfl, rfl⟩
  | n + 1, l :: r :: ws, ps, rest, h => by
    obtain ⟨⟨ps', rest'⟩, htake, heq⟩ := Option.map_eq_some_iff.mp h
    obtain ⟨rfl, rfl⟩ := Prod.mk.inj heq
    obtain ⟨hlen, rfl⟩ := takePairs_eq_some htake
    exact ⟨congrArg (· + 1) hlen, rfl⟩

/-! From words to a command and back: the `arg` field. -/

/-- With every bit from `n` up zero, `arg` is a number below `2^n` (rule R103 (b)). -/
theorem toNat_lt_of_reserved {arg : BitVec 24} (n : Nat) (h : arg &&& (BitVec.allOnes 24 <<< n) = 0) : arg.toNat < 2 ^ n := by
  refine Nat.lt_pow_two_of_testBit _ fun k hk => ?_
  rw [BitVec.testBit_toNat]
  by_cases hwidth : k < 24
  · have hbit : (arg &&& (BitVec.allOnes 24 <<< n)).getLsbD k = false := by rw [h]; exact BitVec.getLsbD_zero
    have hmask : (BitVec.allOnes 24 <<< n).getLsbD k = true := by
      rw [BitVec.getLsbD_shiftLeft, BitVec.getLsbD_allOnes]
      simp [hwidth, Nat.not_lt.mpr hk, show k - n < 24 by omega]
    rwa [BitVec.getLsbD_and, hmask, Bool.and_true] at hbit
  · exact BitVec.getLsbD_of_ge _ _ (Nat.le_of_not_lt hwidth)

/-- A command without flags has a zero `arg`. -/
theorem eq_zero_of_reserved {arg : BitVec 24} (h : arg &&& 0xFFFFFF = 0) : arg = 0 :=
  BitVec.eq_of_toNat_eq (Nat.lt_one_iff.mp (toNat_lt_of_reserved 0 h))

/-- A command with one flag has nothing else in its `arg` (rule R97). -/
theorem flagArg_of_reserved {arg : BitVec 24} (h : arg &&& 0xFFFFFE = 0) : 0#23 ++ bit (arg.getLsbD 0) = arg := by
  have hfinite : ∀ k < 2 ^ 1, 0#23 ++ bit ((BitVec.ofNat 24 k).getLsbD 0) = BitVec.ofNat 24 k := by decide
  simpa using hfinite arg.toNat (toNat_lt_of_reserved 1 h)

/-- The `arg` of `XTC_RECONFIGURE` is its four flags (rule R94). -/
theorem reconfigureArg_of_reserved {arg : BitVec 24} (h : arg &&& 0xFFFFE0 = 0) :
    0#19 ++ bit (arg.getLsbD 4) ++ bit (arg.getLsbD 3) ++ arg.extractLsb' 1 2 ++ bit (arg.getLsbD 0) = arg := by
  have hfinite : ∀ k < 2 ^ 5, 0#19 ++ bit ((BitVec.ofNat 24 k).getLsbD 4) ++ bit ((BitVec.ofNat 24 k).getLsbD 3) ++
      (BitVec.ofNat 24 k).extractLsb' 1 2 ++ bit ((BitVec.ofNat 24 k).getLsbD 0) = BitVec.ofNat 24 k := by decide
  simpa using hfinite arg.toNat (toNat_lt_of_reserved 5 h)

/-- What a header and the words after it are read as is a well-formed command of the header's operation, whose `arg` and payload
are those read (rules R93 to R97, R105). -/
theorem assemble_eq_some {o : Op} {h : Word} {tail : List Word} {i : Instr} {rest : List Word}
    (hreserved : headerArg h &&& reservedMask o = 0) (hsome : assemble o h tail = some (i, rest)) :
    i.op = o ∧ i.wellFormed = true ∧ encodeArg i = headerArg h ∧ tail = encodePayload i ++ rest := by
  cases o with
  | xtcReconfigure =>
    match tail, hsome with
    | rate :: delayUs :: decayDb :: centerDb :: _, hsome =>
      obtain ⟨m, hm, heq⟩ := Option.map_eq_some_iff.mp hsome
      cases heq
      have hcode : headShadowCode m = (headerArg h).extractLsb' 1 2 := headShadowOf_eq_some_iff.mp hm
      refine ⟨rfl, rfl, ?_, rfl⟩
      rw [encodeArg, hcode]
      exact reconfigureArg_of_reserved hreserved
  | xtcProcess =>
    obtain ⟨⟨ps, ws⟩, htake, heq⟩ : ∃ t, takePairs (headerArg h).toNat tail = some t ∧ (.xtcProcess t.1, t.2) = (i, rest) :=
      Option.map_eq_some_iff.mp hsome
    cases heq
    obtain ⟨hlen, rfl⟩ := takePairs_eq_some htake
    refine ⟨rfl, ?_, ?_, rfl⟩
    · rw [Instr.wellFormed, hlen]
      exact decide_eq_true (headerArg h).isLt
    · rw [encodeArg, hlen, BitVec.ofNat_toNat, BitVec.setWidth_eq]
  | dlConfigure => cases hsome; exact ⟨rfl, rfl, rfl, rfl⟩
  | xtcSetBypass => cases hsome; exact ⟨rfl, rfl, flagArg_of_reserved hreserved, rfl⟩
  | fosConfigure =>
    match tail, hsome with
    | _ :: _, rfl => exact ⟨rfl, rfl, flagArg_of_reserved hreserved, rfl⟩
  | cfbConfigure =>
    match tail, hsome with
    | _ :: _ :: _, rfl => exact ⟨rfl, rfl, flagArg_of_reserved hreserved, rfl⟩
  | xtcGetLatency | dlGet | cfbGet => cases hsome; exact ⟨rfl, rfl, (eq_zero_of_reserved hreserved).symm, rfl⟩
  | bqProcess | dlConfigureFrac | dlPut | cfbPut | fosProcess =>
    match tail, hsome with
    | _ :: _, rfl => exact ⟨rfl, rfl, (eq_zero_of_reserved hreserved).symm, rfl⟩
  | bqSetLowpass | bqSetHighpass | bqSetAllpass =>
    match tail, hsome with
    | _ :: _ :: _ :: _, rfl => exact ⟨rfl, rfl, (eq_zero_of_reserved hreserved).symm, rfl⟩
  | bqSetPeaking | bqSetShelf =>
    match tail, hsome with
    | _ :: _ :: _ :: _ :: _, rfl => exact ⟨rfl, rfl, (eq_zero_of_reserved hreserved).symm, rfl⟩

/-- Settles O2: the header is legal, so its `op` and `arg` are those of the command read from it, and the payload is the words
that follow. -/
theorem decodedCommandIsWhatItsWordsEncode : Obligations.DecodedCommandIsWhatItsWordsEncode := by
  intro p ws i rest hdec
  obtain ⟨h, tail, o, rfl, hheader, hassemble⟩ := decode_command_iff.mp hdec
  obtain ⟨hop, hreserved, -, hport⟩ := decodeHeader_ok_iff.mp hheader
  obtain ⟨rfl, hwf, harg, rfl⟩ := assemble_eq_some hreserved hassemble
  have hencoded : encodeHeader i = h := by rw [encodeHeader, hop, harg, headerOp_append_headerArg]
  exact ⟨hwf, hport, by rw [encode, hencoded, List.cons_append]⟩

end Sys2Proof
end

section
/-! Encoding: the header words of the vectors (rule R93, vector T-ENC1). -/

namespace Sys2Proof

/-- A command's words as the opcode and the `arg` of its header, then its payload: they decode to it (rules R91, R93). -/
theorem decode_of_fields (i : Instr) (o : Op) (arg : BitVec 24) (hop : i.op = o) (harg : encodeArg i = arg)
    (hwf : i.wellFormed = true) (rest : List Word) :
    decode o.port ((opcode o ++ arg) :: (encodePayload i ++ rest)) = .command i rest := by
  subst hop harg
  exact encodedCommandDecodesToItself i rest hwf

/-- Settles O4: each word is the opcode and the `arg` of the command named, which therefore comes back. -/
theorem headersOfTheVectorsDecode : Obligations.HeadersOfTheVectorsDecode := fun a b c d rest =>
  ⟨decode_of_fields (.xtcReconfigure true .biquadCascade true true a b c d) .xtcReconfigure 0x1D rfl rfl rfl rest,
    decode_of_fields (.xtcProcess [(a, b), (c, d)]) .xtcProcess 2 rfl rfl rfl rest,
    decode_of_fields (.xtcSetBypass true) .xtcSetBypass 1 rfl rfl rfl rest,
    decode_of_fields .xtcGetLatency .xtcGetLatency 0 rfl rfl rfl rest,
    decode_of_fields (.bqSetLowpass a b c) .bqSetLowpass 0 rfl rfl rfl rest,
    decode_of_fields (.bqSetHighpass a b c) .bqSetHighpass 0 rfl rfl rfl rest,
    decode_of_fields (.bqSetPeaking a b c d) .bqSetPeaking 0 rfl rfl rfl rest,
    decode_of_fields (.bqSetShelf a b c d) .bqSetShelf 0 rfl rfl rfl rest,
    decode_of_fields (.bqSetAllpass a b c) .bqSetAllpass 0 rfl rfl rfl rest,
    decode_of_fields (.bqProcess a) .bqProcess 0 rfl rfl rfl rest,
    decode_of_fields (.dlConfigure 3) .dlConfigure 3 rfl rfl rfl rest,
    decode_of_fields (.dlConfigureFrac a) .dlConfigureFrac 0 rfl rfl rfl rest,
    decode_of_fields (.dlPut a) .dlPut 0 rfl rfl rfl rest,
    decode_of_fields .dlGet .dlGet 0 rfl rfl rfl rest,
    decode_of_fields (.cfbConfigure true a b) .cfbConfigure 1 rfl rfl rfl rest,
    decode_of_fields (.cfbPut a) .cfbPut 0 rfl rfl rfl rest,
    decode_of_fields .cfbGet .cfbGet 0 rfl rfl rfl rest,
    decode_of_fields (.fosConfigure true a) .fosConfigure 1 rfl rfl rfl rest,
    decode_of_fields (.fosProcess a) .fosProcess 0 rfl rfl rfl rest⟩

end Sys2Proof
end

section
/-! Encoding: the words a command takes and answers (rules R93, R105). -/

namespace Sys2Proof

/-- The payload of a command is as long as the table says. -/
theorem length_encodePayload (i : Instr) : (encodePayload i).length = i.payloadWords := by
  cases i with
  | xtcProcess pairs => simp [encodePayload, Instr.payloadWords, Nat.mul_comm]
  | _ => rfl

end Sys2Proof

namespace Sys2Proof.Machine

/-- The operations that return response words (rule R93). -/
def respondingOps : List Op := [.xtcProcess, .xtcGetLatency, .bqProcess, .dlGet, .cfbGet, .fosProcess]

/-- A completed command of any other operation answers nothing. -/
theorem Completed.rsp_kept {s t : State} {o : Op} (h : Completed s o t) (ho : o ∉ respondingOps) :
    (t.port o.port).rsp = (s.port o.port).rsp := by
  cases h with
  | sectionFed | shaperFed | processed => exact absurd (by decide) ho
  | answered hanswer =>
    have hsub : ∀ o' ∈ answeringOps, o' ∈ respondingOps := by decide
    exact absurd (hsub o hanswer) ho
  | bankPut => rw [show Op.cfbPut.port = .cfb from rfl, State.noteUnset_port, State.setCfb_port]
  | tuned | lineSet | linePut | bankSet | shaperSet | reconfigured | bypassSet => simp

/-- A block answers two words for each pair, in bypass or not (rule R105). -/
theorem processBlock_length {P : Params} {tap : FbTap} {ps : List (F32 × F32)} {x x' : Canceller} {ws : List Word}
    (h : processBlock P tap ps x = .ok (x', ws)) : ws.length = 2 * ps.length := by
  rcases processBlock_spec h with ⟨-, -, rfl⟩ | ⟨-, -, x1, hpairs, -⟩
  · exact length_encodePayload (.xtcProcess ps)
  · exact processPairs_length hpairs

/-- `s` with `ws` answered on a port whose answers the unit's own change had left alone. -/
theorem rsp_of_emit_noteUnset {s u : State} {p : PortId} (hport : u.port p = s.port p) (names : List RegName) (ws : List Word) :
    (((u.noteUnset p names).emit p ws).port p).rsp = (s.port p).rsp ++ ws := by
  rw [State.emit_port, State.noteUnset_port, hport]

/-- A read of a line that completes answers one word. -/
theorem rsp_of_get {s t : State} {o : Op} {dl : DelayLine}
    (h : finish (getSample o dl) (fun y => s.emit o.port [y]) = .next t) :
    ∃ ws : List Word, ws.length = 1 ∧ (t.port o.port).rsp = (s.port o.port).rsp ++ ws := by
  obtain ⟨y, -, rfl⟩ := finish_next h
  exact ⟨[y], rfl, by rw [State.emit_port]⟩

/-- A completed command answers as many words as the table says (rules R93, R105). -/
theorem responseWords_of_exec {i : Instr} {s t : State} (h : exec i s = .next t) :
    ∃ ws, ws.length = i.responseWords ∧ (t.port i.port).rsp = (s.port i.port).rsp ++ ws := by
  have silent (ho : i.op ∉ respondingOps) (hzero : i.responseWords = 0) :
      ∃ ws, ws.length = i.responseWords ∧ (t.port i.port).rsp = (s.port i.port).rsp ++ ws :=
    ⟨[], hzero.symm, by rw [Instr.port, (completed_of_exec h).rsp_kept ho, List.append_nil]⟩
  cases i with
  | xtcProcess pairs =>
    obtain ⟨⟨x, ws⟩, hblock, rfl⟩ := finish_next h
    exact ⟨ws, processBlock_length hblock, rsp_of_emit_noteUnset (s.setXtc_port x .xtc) _ ws⟩
  | xtcGetLatency => cases h; exact ⟨[posZero], rfl, by rw [show Instr.xtcGetLatency.port = .xtc from rfl, State.emit_port]⟩
  | bqProcess x => cases h; exact ⟨[_], rfl, rsp_of_emit_noteUnset (s.setBq_port _ .bq) _ _⟩
  | fosProcess x => cases h; exact ⟨[_], rfl, rsp_of_emit_noteUnset (s.setFos_port _ .fos) _ _⟩
  | dlGet => exact rsp_of_get (o := .dlGet) h
  | cfbGet => exact rsp_of_get (o := .cfbGet) h
  | _ => exact silent (by simp [Instr.op, respondingOps]) rfl

/-- Settles O11: the lengths of the header and payload, and of the answer. -/
theorem commandLengthsAreThoseOfTheTable : Obligations.CommandLengthsAreThoseOfTheTable := fun i =>
  ⟨by rw [encode, List.length_cons, length_encodePayload, Nat.add_comm], fun _ _ h => responseWords_of_exec h⟩

end Sys2Proof.Machine
end

section
/-! Encoding: an illegal header, and the end of the run after it (rules R103, R301, R305; log 1). -/

namespace Sys2Proof.Machine

/-! What an illegal header leaves. -/

@[simp] theorem State.takeIllegal_inputs (s : State) (p : PortId) (h : Word) (ws : List Word) :
    (s.takeIllegal p h ws).inputs = s.inputs := s.setPort_inputs p _
@[simp] theorem State.takeIllegal_port (s : State) (p : PortId) (h : Word) (ws : List Word) :
    (s.takeIllegal p h ws).port p =
      { s.port p with cmd := ws, ill := true, illHeaders := (s.port p).illHeaders ++ [h] } := s.setPort_port p _
theorem State.takeIllegal_port_ne (s : State) (p : PortId) (h : Word) (ws : List Word) (q : PortId) (hq : q ≠ p) :
    (s.takeIllegal p h ws).port q = s.port q := s.setPort_port_ne p _ q hq

theorem sameUnit_takeIllegal (q p : PortId) (s : State) (h : Word) (ws : List Word) : SameUnit q s (s.takeIllegal p h ws) :=
  sameUnit_setPort q p s _

theorem sameUnit_setInputs (q : PortId) (s : State) (l : List Input) : SameUnit q s (s.setInputs l) := by cases q <;> rfl

/-! The steps. -/

/-- An illegal header first in line on a port is what the port fetches, the words after it left. -/
theorem State.fetch_of_illegal {s : State} {p : PortId} {h : Word} {ws : List Word} {why : IllegalHeader}
    (hcmd : (s.port p).cmd = h :: ws) (hdec : decodeHeader p h = .error why) : s.fetch p = .illegal h why ws := by
  rw [State.fetch, hcmd, decode, hdec]

/-- Serving a port takes an illegal header that is first in line there. -/
theorem serve_of_fetch_illegal {s : State} {p : PortId} {h : Word} {ws : List Word} {why : IllegalHeader}
    (hfetch : s.fetch p = .illegal h why ws) : serve p s = .next (s.takeIllegal p h ws) := by
  rw [serve, hfetch]

/-- Once the run is over, a step that takes no reset is `FaultIllegal` (rule R305; log 1). -/
theorem step_of_over {s : State} {headers : List Word} (hover : s.overBy = some headers)
    (hinputs : ∀ q l, s.inputs ≠ .reset q :: l) : step s = .fault (.illegal headers) := by
  rw [step, takeInput, hover]
  match hin : s.inputs with
  | [] => rfl
  | .command p :: l => rfl
  | .reset p :: l => exact absurd hin (hinputs p l)

/-- While an `ill` flag is up, a step that takes no reset faults with the headers of a port whose flag is up. -/
theorem step_of_ill {s : State} {p : PortId} (hill : (s.port p).ill = true) (hinputs : ∀ q l, s.inputs ≠ .reset q :: l) :
    ∃ q, (s.port q).ill = true ∧ step s = .fault (.illegal (s.port q).illHeaders) := by
  obtain ⟨q, hq, hover⟩ := State.overBy_some hill
  exact ⟨q, hq, step_of_over hover hinputs⟩

/-- With no other flag up, the step after an illegal header faults with the headers of its port. -/
theorem step_takeIllegal {s : State} {p : PortId} {h : Word} {ws : List Word} (hill : ∀ q, (s.port q).ill = false)
    (hinputs : ∀ q l, s.inputs ≠ .reset q :: l) :
    step (s.takeIllegal p h ws) = .fault (.illegal ((s.takeIllegal p h ws).port p).illHeaders) := by
  obtain ⟨q, hq, hstep⟩ := step_of_ill (s := s.takeIllegal p h ws) (p := p) (by rw [State.takeIllegal_port])
    (by rwa [State.takeIllegal_inputs])
  obtain rfl : q = p := by
    by_contra hne
    rw [s.takeIllegal_port_ne p h ws q hne, hill q] at hq
    cases hq
  exact hstep

/-- Settles O6: the step takes the illegal header and nothing else; the flag it puts up is the only one, and ends the run. -/
theorem illegalHeaderSetsIllAndEndsTheRun : Obligations.IllegalHeaderSetsIllAndEndsTheRun := by
  refine ⟨fun s p rest h ws why hill hin hcmd hdec => ?_, fun s p => step_of_ill⟩
  have hstep : step s = .next ((s.setInputs rest).takeIllegal p h ws) := by
    rw [step_command hill hin, serve_of_fetch_illegal ((s.fetch_setInputs rest p).trans (State.fetch_of_illegal hcmd hdec))]
  refine ⟨_, hstep, by simp, by simp, by simp, by simp, fun q => ?_, fun q hq => ?_, by simp, fun hreset => ?_⟩
  · exact (sameUnit_setInputs q s rest).trans (sameUnit_takeIllegal ..)
  · rw [State.takeIllegal_port_ne _ p h ws q hq, State.setInputs_port]
  · exact step_takeIllegal (fun q => by rw [State.setInputs_port, hill q]) hreset

end Sys2Proof.Machine
end

section
/-! Arithmetic: the exact result rounded once, and signs of zero (rules R121, R123, R126). -/

namespace Sys2Proof.Machine

/-! Zeros. -/

theorem eq_zeroOf_of_isZero {a : F32} (h : isZero a = true) : a = zeroOf (signBit a) := by
  conv_lhs => rw [← pack_fields a, (isZero_iff a).mp h]
  rfl

theorem eq_negZero_iff {a : F32} : a = 0x80000000 ↔ isZero a = true ∧ signBit a = true := by
  constructor
  · rintro rfl
    decide
  · rintro ⟨hzero, hsign⟩
    rw [eq_zeroOf_of_isZero hzero, hsign]
    decide

theorem fneg_eq_negZero_iff {a : F32} : fneg a = 0x80000000 ↔ a = 0x00000000 := by
  rw [fneg, show (0x80000000 : F32) = 0x00000000 ^^^ 0x80000000 by decide]
  exact BitVec.xor_left_inj _

/-- The zero of a sign is an exact zero rounded. -/
theorem zeroOf_eq_roundPack (neg : Bool) : zeroOf neg = roundPack neg 0 1 :=
  (roundPack_magBits neg (b := 0) (by decide)).symm

theorem signBit_roundPack (neg : Bool) (num den : Nat) : signBit (roundPack neg num den) = neg :=
  signBit_pack neg ((Nat.min_le_right _ _).trans_lt (by decide))

/-! Sums. -/

/-- The sum of two finite data is the exact sum as a sign and a magnitude, rounded once. -/
theorem sumOf_finite {nan a b : F32} (ha : isFinite a = true) (hb : isFinite b = true) :
    sumOf nan a b =
      if scaled a + scaled b = 0 then zeroOf (signBit a && signBit b)
      else roundPack (decide (scaled a + scaled b < 0)) (scaled a + scaled b).natAbs 1 := by
  simp only [sumOf, not_inf_of_finite ha, not_inf_of_finite hb, Bool.false_eq_true, if_false]

theorem fadd_of_not_nan {a b : F32} (ha : isNaN a = false) (hb : isNaN b = false) :
    fadd a b = sumOf (nanOf .add a b) a b := by
  simp only [fadd, ha, hb, Bool.or_self, Bool.false_eq_true, if_false]

theorem fsub_of_not_nan {a b : F32} (ha : isNaN a = false) (hb : isNaN b = false) :
    fsub a b = sumOf (nanOf .sub a b) a (fneg b) := by
  simp only [fsub, ha, hb, Bool.or_self, Bool.false_eq_true, if_false]

theorem sumOf_rounded {nan a b : F32} (ha : isFinite a = true) (hb : isFinite b = true) :
    RoundedOnce (scaled a + scaled b) 1 (sumOf nan a b) := by
  rw [sumOf_finite ha hb]
  generalize scaled a + scaled b = sum
  split
  · next hzero =>
    rw [zeroOf_eq_roundPack, hzero]
    simpa using roundPack_rounded (signBit a && signBit b) 0 Nat.one_pos
  · have hsign : (if decide (sum < 0) = true then -(sum.natAbs : Int) else sum.natAbs) = sum := by
      simp only [decide_eq_true_eq]
      split <;> omega
    simpa only [hsign] using roundPack_rounded (decide (sum < 0)) sum.natAbs Nat.one_pos

theorem fadd_rounded {a b : F32} (ha : isFinite a = true) (hb : isFinite b = true) :
    RoundedOnce (scaled a + scaled b) 1 (fadd a b) := by
  rw [fadd_of_not_nan (not_nan_of_finite ha) (not_nan_of_finite hb)]
  exact sumOf_rounded ha hb

theorem fsub_rounded {a b : F32} (ha : isFinite a = true) (hb : isFinite b = true) :
    RoundedOnce (scaled a - scaled b) 1 (fsub a b) := by
  rw [fsub_of_not_nan (not_nan_of_finite ha) (not_nan_of_finite hb), sub_eq_add_neg, ← scaled_fneg]
  exact sumOf_rounded ha ((isFinite_fneg b).trans hb)

/-- An exact sum of zero is `+0` but for two negative zeros: addends of one sign whose sum is zero are both zero. -/
theorem sumOf_eq_zero {nan a b : F32} (ha : isFinite a = true) (hb : isFinite b = true) (hsum : scaled a + scaled b = 0) :
    sumOf nan a b = if a = 0x80000000 ∧ b = 0x80000000 then 0x80000000 else 0x00000000 := by
  rw [sumOf_finite ha hb, if_pos hsum]
  by_cases hneg : signBit a = true ∧ signBit b = true
  · obtain ⟨hsa, hsb⟩ := hneg
    obtain ⟨ha0, hb0⟩ : scaled a = 0 ∧ scaled b = 0 := by
      simp only [scaled, hsa, hsb, if_true] at hsum ⊢
      omega
    rw [if_pos ⟨eq_negZero_iff.mpr ⟨isZero_iff_scaled.mpr ha0, hsa⟩, eq_negZero_iff.mpr ⟨isZero_iff_scaled.mpr hb0, hsb⟩⟩,
      hsa, hsb]
    decide
  · have hsign : (signBit a && signBit b) = false := Bool.eq_false_iff.mpr (by rwa [ne_eq, Bool.and_eq_true])
    rw [if_neg fun h => hneg ⟨(eq_negZero_iff.mp h.1).2, (eq_negZero_iff.mp h.2).2⟩, hsign]
    decide

/-! Products and quotients. -/

theorem fmul_finite {a b : F32} (ha : isFinite a = true) (hb : isFinite b = true) :
    fmul a b = roundPack (signBit a != signBit b) (magnitude a * magnitude b) unitScale := by
  simp only [fmul, not_nan_of_finite ha, not_nan_of_finite hb, not_inf_of_finite ha, not_inf_of_finite hb, Bool.or_self,
    Bool.false_eq_true, if_false]

theorem fdiv_finite {a b : F32} (ha : isFinite a = true) (hb : isFinite b = true) (h0 : isZero b = false) :
    fdiv a b = roundPack (signBit a != signBit b) (magnitude a * unitScale) (magnitude b) := by
  simp only [fdiv, not_nan_of_finite ha, not_nan_of_finite hb, not_inf_of_finite ha, not_inf_of_finite hb, h0, Bool.or_self,
    Bool.false_eq_true, if_false]

theorem scaled_mul_scaled (a b : F32) :
    scaled a * scaled b =
      if signBit a != signBit b then -((magnitude a * magnitude b : Nat) : Int) else (magnitude a * magnitude b : Nat) := by
  rw [scaled, scaled]
  cases signBit a <;> cases signBit b <;> simp

theorem magnitude_pos {a : F32} (h : isZero a = false) : 0 < magnitude a := by
  refine Nat.pos_of_ne_zero fun hm => ?_
  rw [← natAbs_scaled, Int.natAbs_eq_zero, ← isZero_iff_scaled, h] at hm
  cases hm

/-- The sign of a value that is not zero is its sign bit. -/
theorem sign_scaled {a : F32} (h : isZero a = false) : (scaled a).sign = if signBit a then -1 else 1 := by
  have hpos : (0 : Int) < magnitude a := by exact_mod_cast magnitude_pos h
  rw [scaled]
  cases signBit a
  · exact Int.sign_eq_one_of_pos hpos
  · exact Int.sign_eq_neg_one_of_neg (Int.neg_neg_of_pos hpos)

theorem scaled_mul_unitScale_mul_sign (a : F32) {b : F32} (h : isZero b = false) :
    scaled a * unitScale * (scaled b).sign =
      if signBit a != signBit b then -((magnitude a * unitScale : Nat) : Int) else (magnitude a * unitScale : Nat) := by
  rw [sign_scaled h, scaled]
  cases signBit a <;> cases signBit b <;> simp

/-- Settles O57: each operation is `roundPack` of the exact result's sign and magnitude, and `roundPack` rounds once; a sum of
zero and a sign are read off the same forms. -/
theorem arithmeticIsRoundedOnce : Obligations.ArithmeticIsRoundedOnce := by
  intro a b ha hb
  have hna := not_nan_of_finite ha
  have hnb := not_nan_of_finite hb
  refine ⟨fadd_rounded ha hb, fsub_rounded ha hb, ?_, fun h0 => ?_, fun hsum => ?_, fun hdiff => ?_, ?_, fun h0 => ?_⟩
  · rw [scaled_mul_scaled, fmul_finite ha hb]
    exact roundPack_rounded _ _ (by decide)
  · rw [scaled_mul_unitScale_mul_sign a h0, fdiv_finite ha hb h0]
    exact roundPack_rounded _ _ (magnitude_pos h0)
  · rw [fadd_of_not_nan hna hnb, sumOf_eq_zero ha hb hsum]
  · rw [sub_eq_add_neg, ← scaled_fneg] at hdiff
    rw [fsub_of_not_nan hna hnb, sumOf_eq_zero ha ((isFinite_fneg b).trans hb) hdiff]
    simp only [fneg_eq_negZero_iff]
  · rw [fmul_finite ha hb, signBit_roundPack]
  · rw [fdiv_finite ha hb h0, signBit_roundPack]

end Sys2Proof.Machine
end

section
/-! Arithmetic: infinities, divisions by zero and invalid operations (rule R124). -/

namespace Sys2Proof.Machine

/-! Classes and signs. -/

theorem not_nan_of_inf {a : F32} (h : isInf a = true) : isNaN a = false := by
  rw [Bool.eq_false_iff, ne_eq, isNaN_iff, (isInf_iff a).mp h]
  exact lt_irrefl _

theorem not_zero_of_inf {a : F32} (h : isInf a = true) : isZero a = false := by
  rw [Bool.eq_false_iff, ne_eq, isZero_iff, (isInf_iff a).mp h]
  decide

theorem eq_infinity_of_isInf {a : F32} (h : isInf a = true) : a = infinity (signBit a) := by
  conv_lhs => rw [← pack_fields a, (isInf_iff a).mp h]
  rfl

theorem infinity_eq (neg : Bool) : infinity neg = if neg then 0xFF800000 else 0x7F800000 := by cases neg <;> decide
theorem zeroOf_eq (neg : Bool) : zeroOf neg = if neg then 0x80000000 else 0x00000000 := by cases neg <;> decide

/-! Sums. -/

theorem fadd_infs {a b : F32} (ha : isInf a = true) (hb : isInf b = true) :
    fadd a b = if signBit a != signBit b then nanOf .add a b else a := by
  rw [fadd_of_not_nan (not_nan_of_inf ha) (not_nan_of_inf hb)]
  simp only [sumOf, ha, hb, if_true, Bool.true_and]

theorem fsub_infs {a b : F32} (ha : isInf a = true) (hb : isInf b = true) :
    fsub a b = if signBit a != signBit b then a else nanOf .sub a b := by
  rw [fsub_of_not_nan (not_nan_of_inf ha) (not_nan_of_inf hb)]
  simp only [sumOf, ha, isInf_fneg, hb, if_true, Bool.true_and, signBit_fneg]
  cases signBit a <;> cases signBit b <;> rfl

theorem sumOf_inf_finite {nan a b : F32} (ha : isInf a = true) (hb : isFinite b = true) : sumOf nan a b = a := by
  simp only [sumOf, ha, not_inf_of_finite hb, if_true, Bool.false_and, Bool.false_eq_true, if_false]

theorem sumOf_finite_inf {nan a b : F32} (ha : isFinite a = true) (hb : isInf b = true) : sumOf nan a b = b := by
  simp only [sumOf, not_inf_of_finite ha, hb, if_true, Bool.false_eq_true, if_false]

/-! Products. -/

/-- A product with an infinite factor: invalid with a zero, else the infinity of the signs. -/
theorem fmul_inf {a b : F32} (ha : isNaN a = false) (hb : isNaN b = false) (h : isInf a = true ∨ isInf b = true) :
    fmul a b = if isZero a || isZero b then nanOf .mul a b else infinity (signBit a != signBit b) := by
  simp only [fmul, ha, hb, Bool.or_self, Bool.false_eq_true, if_false, (Bool.or_eq_true _ _).mpr h, if_true]

/-! Quotients. -/

theorem fdiv_infs {a b : F32} (ha : isInf a = true) (hb : isInf b = true) : fdiv a b = nanOf .div a b := by
  simp only [fdiv, ha, hb, if_true, ite_self]

theorem fdiv_inf_finite {a b : F32} (ha : isInf a = true) (hb : isFinite b = true) :
    fdiv a b = infinity (signBit a != signBit b) := by
  simp only [fdiv, not_nan_of_inf ha, not_nan_of_finite hb, ha, not_inf_of_finite hb, Bool.or_self, Bool.false_eq_true,
    if_false, if_true]

theorem fdiv_finite_inf {a b : F32} (ha : isFinite a = true) (hb : isInf b = true) :
    fdiv a b = zeroOf (signBit a != signBit b) := by
  simp only [fdiv, not_nan_of_inf hb, not_nan_of_finite ha, hb, not_inf_of_finite ha, Bool.or_self, Bool.false_eq_true,
    if_false, if_true]

/-- A finite number over a zero: invalid over zero by zero, else the infinity of the signs. -/
theorem fdiv_finite_zero {a b : F32} (ha : isFinite a = true) (hb : isZero b = true) :
    fdiv a b = if isZero a then nanOf .div a b else infinity (signBit a != signBit b) := by
  have hbf := finite_of_zero hb
  simp only [fdiv, not_nan_of_finite ha, not_nan_of_finite hbf, not_inf_of_finite ha, not_inf_of_finite hbf, hb, Bool.or_self,
    Bool.false_eq_true, if_false, if_true]

/-! The clauses of R124. -/

theorem isQuietNaN_of_nan {a b : F32} (h : isNaN a = true ∨ isNaN b = true) :
    isQuietNaN (fadd a b) = true ∧ isQuietNaN (fsub a b) = true ∧ isQuietNaN (fmul a b) = true ∧
      isQuietNaN (fdiv a b) = true := by
  rw [fadd_nan h, fsub_nan h, fmul_nan h, fdiv_nan h]
  exact ⟨isQuietNaN_nanOf .., isQuietNaN_nanOf .., isQuietNaN_nanOf .., isQuietNaN_nanOf ..⟩

theorem infs_follow_ieee {a b : F32} (ha : isInf a = true) (hb : isInf b = true) :
    let neg := signBit a != signBit b
    (neg = false → fadd a b = a) ∧ (neg = true → isQuietNaN (fadd a b) = true) ∧
      (neg = true → fsub a b = a) ∧ (neg = false → isQuietNaN (fsub a b) = true) ∧
      fmul a b = infinity neg ∧ isQuietNaN (fdiv a b) = true := by
  intro neg
  have hmul : fmul a b = infinity neg := by
    rw [fmul_inf (not_nan_of_inf ha) (not_nan_of_inf hb) (.inl ha), not_zero_of_inf ha, not_zero_of_inf hb]
    rfl
  rw [fadd_infs ha hb, fsub_infs ha hb, fdiv_infs ha hb]
  exact ⟨fun h => if_neg (Bool.eq_false_iff.mp h), fun h => by rw [if_pos h, isQuietNaN_nanOf], fun h => if_pos h,
    fun h => by rw [if_neg (Bool.eq_false_iff.mp h), isQuietNaN_nanOf], hmul, isQuietNaN_nanOf ..⟩

theorem inf_and_finite_follow_ieee {a b : F32} (ha : isInf a = true) (hb : isFinite b = true) :
    let neg := signBit a != signBit b
    fadd a b = a ∧ fadd b a = a ∧ fsub a b = a ∧ fsub b a = infinity (!signBit a) ∧
      (isZero b = false → fmul a b = infinity neg ∧ fmul b a = infinity neg) ∧
      (isZero b = true → isQuietNaN (fmul a b) = true ∧ isQuietNaN (fmul b a) = true) ∧
      fdiv a b = infinity neg ∧ fdiv b a = zeroOf neg := by
  intro neg
  have hna := not_nan_of_inf ha
  have hnb := not_nan_of_finite hb
  have hcomm : (signBit b != signBit a) = neg := bne_comm
  have hdiff : fneg a = infinity (!signBit a) := by
    rw [← signBit_fneg]
    exact eq_infinity_of_isInf ((isInf_fneg a).trans ha)
  rw [fadd_of_not_nan hna hnb, fadd_of_not_nan hnb hna, fsub_of_not_nan hna hnb, fsub_of_not_nan hnb hna,
    fmul_inf hna hnb (.inl ha), fmul_inf hnb hna (.inr ha), fdiv_inf_finite ha hb, fdiv_finite_inf hb ha,
    not_zero_of_inf ha, hcomm, Bool.false_or, Bool.or_false]
  exact ⟨sumOf_inf_finite ha hb, sumOf_finite_inf hb ha, sumOf_inf_finite ha ((isFinite_fneg b).trans hb),
    (sumOf_finite_inf hb ((isInf_fneg a).trans ha)).trans hdiff,
    fun h0 => by rw [h0]; exact ⟨rfl, rfl⟩, fun h0 => by rw [h0]; exact ⟨isQuietNaN_nanOf .., isQuietNaN_nanOf ..⟩,
    rfl, rfl⟩

/-- Settles O58: the operands' classes select the branch of each operation. -/
theorem infinitiesAndInvalidOperationsFollowIeee : Obligations.InfinitiesAndInvalidOperationsFollowIeee := by
  intro a b
  simp only [← infinity_eq, ← zeroOf_eq]
  refine ⟨isQuietNaN_of_nan, infs_follow_ieee, inf_and_finite_follow_ieee, fun ha hb => ?_⟩
  rw [fdiv_finite_zero ha hb]
  exact ⟨fun h0 => by rw [h0]; rfl, fun h0 => by rw [h0]; exact isQuietNaN_nanOf ..⟩

end Sys2Proof.Machine
end

section
/-! Arithmetic in the units: a NaN in a section's history (rules R124, R158), and the gains at 0 dB (rules R132, R252). -/

namespace Sys2Proof.Machine

/-! A NaN in a section's history. -/

theorem isNaN_fmul {a b : F32} (h : isNaN a = true ∨ isNaN b = true) : isNaN (fmul a b) = true := by
  rw [fmul_nan h, isNaN_nanOf]

theorem isNaN_fsub {a b : F32} (h : isNaN a = true ∨ isNaN b = true) : isNaN (fsub a b) = true := by
  rw [fsub_nan h, isNaN_nanOf]

/-- The feedback term `a1·y1` carries a NaN through both differences. -/
theorem isNaN_biquadOutput {y1 : F32} (h : isNaN y1 = true) (c : Coeffs) (x x1 x2 y2 : F32) :
    isNaN (biquadOutput c x x1 x2 y1 y2) = true :=
  isNaN_fsub (.inl (isNaN_fsub (.inr (isNaN_fmul (.inr h)))))

/-- Settles O20: the output is the section's, which becomes `y1`. -/
theorem naNInY1MakesTheNextOutputNaN : Obligations.NaNInY1MakesTheNextOutputNaN := fun s x h =>
  ⟨(processBiquad x s.bq).2, _, rfl, isNaN_biquadOutput h .., rfl, rsp_of_emit_noteUnset (s.setBq_port _ .bq) _ _⟩

/-! The gains at 0 dB. -/

/-- `1/(1 + 1)` is exact (rule R252 corner case (c)). -/
theorem gainCompOf_one : gainCompOf one = half := by decide

/-- Settles O43: the gains are `db_to_gain` of the operands, which is `1.0` at a zero of either sign. -/
theorem zeroDecibelsGiveUnitGains : Obligations.ZeroDecibelsGiveUnitGains := by
  intro s t phantom hsm interp cen rate delayUs decayDb centerDb h
  obtain ⟨x, hx, rfl⟩ := finish_next h
  obtain ⟨-, -, rfl⟩ := reconfigure_spec hx
  refine ⟨fun hc => ?_, fun hd => ?_⟩
  · simp only [State.setXtc_xtc, applyConfig, dbToGain_zero _ hc, gainCompOf_one]
    exact ⟨rfl, rfl⟩
  · simp only [State.setXtc_xtc, applyConfig, dbToGain_zero _ hd]
    rfl

end Sys2Proof.Machine
end

section
/-! Capacity requests: the nearest whole number or the ceiling of a delay in samples, and the fraction (rules R128, R129,
R131). -/

namespace Sys2Proof.Machine

/-! Rounding keeps order. -/

/-- A result between two data stays between them when it is rounded. -/
theorem NearestEven.scaled_mem_Icc {num : Int} {den : Nat} {r lo hi : F32} (h : NearestEven num den r) (hd : 0 < den)
    (hlo : isFinite lo = true) (hhi : isFinite hi = true) (hle : scaled lo * den ≤ num) (hge : num ≤ scaled hi * den) :
    scaled r ∈ Set.Icc (scaled lo) (scaled hi) := by
  have hden : (0 : Int) < den := by exact_mod_cast hd
  obtain ⟨-, hnearest⟩ := h
  obtain ⟨nearLo, -⟩ := hnearest lo hlo
  obtain ⟨nearHi, -⟩ := hnearest hi hhi
  rw [abs_of_nonneg (sub_nonneg.mpr hle)] at nearLo
  rw [abs_of_nonpos (sub_nonpos.mpr hge)] at nearHi
  refine ⟨le_of_mul_le_mul_right ?_ hden, le_of_mul_le_mul_right ?_ hden⟩
  · linarith [le_abs_self (num - scaled r * den), neg_abs_le (num - scaled r * den)]
  · linarith [le_abs_self (num - scaled r * den), neg_abs_le (num - scaled r * den)]

/-! Conversions. -/

theorem unitScale_pos : (0 : Int) < unitScale := by decide

/-- `ceil_f` is the least integer not below its operand (rule R129). -/
theorem ceilF_bounds (v : F32) : (ceilF v - 1) * unitScale < scaled v ∧ scaled v ≤ ceilF v * unitScale := by
  have hle := Int.ediv_mul_le (-scaled v) unitScale_pos.ne'
  have hlt := Int.lt_ediv_add_one_mul_self (-scaled v) unitScale_pos
  rw [ceilF]
  constructor <;> linarith

theorem roundHaz_of_nonneg {v : F32} (h : 0 ≤ scaled v) : roundHaz v = (2 * scaled v + unitScale) / (2 * unitScale) := by
  rw [scaled] at h ⊢
  cases hs : signBit v with
  | false => simp [roundHaz, hs]
  | true =>
    have hzero : magnitude v = 0 := by rw [hs] at h; simp only [if_true] at h; omega
    simp only [roundHaz, hs, hzero]
    decide

/-- `round_haz` of a value not below zero is the nearest integer, ties upwards (rule R128). -/
theorem roundHaz_bounds {v : F32} (h : 0 ≤ scaled v) :
    (2 * roundHaz v - 1) * unitScale ≤ 2 * scaled v ∧ 2 * scaled v < (2 * roundHaz v + 1) * unitScale := by
  have hpos : (0 : Int) < 2 * unitScale := by decide
  have hle := Int.ediv_mul_le (2 * scaled v + unitScale) hpos.ne'
  have hlt := Int.lt_ediv_add_one_mul_self (2 * scaled v + unitScale) hpos
  rw [roundHaz_of_nonneg h]
  constructor <;> linarith

/-! Requests (rule R131). -/

/-- From one half on the whole-sample capacity is the nearest integer itself. -/
theorem delayRequest_whole_len {d : F32} (h : (unitScale : Int) ≤ 2 * scaled d) :
    ((delayRequest d false).len : Int) = roundHaz d := by
  have hU := unitScale_pos
  have hpos : 0 < roundHaz d := by
    obtain ⟨-, hlt⟩ := roundHaz_bounds (v := d) (by omega)
    have : 1 * (unitScale : Int) < (2 * roundHaz d + 1) * unitScale := by omega
    have := lt_of_mul_lt_mul_right this hU.le
    omega
  have hlen : (delayRequest d false).len = max 1 (roundHaz d).toNat := rfl
  omega

/-- Below one half the whole-sample capacity is the clamp's 1. -/
theorem delayRequest_whole_len_of_lt {d : F32} (h0 : 0 ≤ scaled d) (h : 2 * scaled d < unitScale) :
    (delayRequest d false).len = 1 := by
  have hnonpos : roundHaz d < 1 := by
    obtain ⟨hle, -⟩ := roundHaz_bounds h0
    have : (2 * roundHaz d - 1) * unitScale < 1 * unitScale := by omega
    have := lt_of_mul_lt_mul_right this unitScale_pos.le
    omega
  have hlen : (delayRequest d false).len = max 1 (roundHaz d).toNat := rfl
  omega

/-- A positive delay with interpolation: the ceiling, which is at least 1, and the fraction. -/
theorem delayRequest_interp_of_pos {d : F32} (h : 0 < scaled d) :
    ((delayRequest d true).len : Int) = ceilF d ∧
    (delayRequest d true).frac = fsub (i2f (delayRequest d true).len) d := by
  have hpos : 0 < ceilF d := pos_of_mul_pos_left (h.trans_le (ceilF_bounds d).2) unitScale_pos.le
  have hreq : delayRequest d true = { len := (ceilF d).toNat, d := d, frac := fsub (i2f (ceilF d).toNat) d } := by
    simp only [delayRequest, if_true]
    exact if_pos (by omega)
  rw [hreq]
  exact ⟨Int.toNat_of_nonneg hpos.le, rfl⟩

/-- A delay of zero with interpolation: one slot, no fraction. -/
theorem delayRequest_interp_of_zero {d : F32} (h : scaled d = 0) :
    delayRequest d true = { len := 1, d := d, frac := posZero } := by
  have hceil : ceilF d = 0 := by rw [ceilF, h]; decide
  simp only [delayRequest, if_true, hceil]
  rfl

/-- The fraction of a ceiling: the exact difference is from 0 to 1, and stays there when it is rounded. -/
theorem fsub_i2f_bounds {n : Nat} {d : F32} (hn : n < 2 ^ 24) (hd : isFinite d = true)
    (hlt : ((n : Int) - 1) * unitScale < scaled d) (hle : scaled d ≤ n * unitScale) :
    isFinite (fsub (i2f n) d) = true ∧ 0 ≤ scaled (fsub (i2f n) d) ∧ scaled (fsub (i2f n) d) ≤ unitScale := by
  obtain ⟨hfinite, hvalue⟩ := smallIntegersConvertExactly n hn
  have hone : scaled one = unitScale := by decide
  have hlow : 0 ≤ scaled (i2f n) - scaled d := by rw [hvalue]; linarith
  have hhigh : scaled (i2f n) - scaled d ≤ unitScale := by rw [hvalue]; linarith
  have hsmall : (scaled (i2f n) - scaled d).natAbs < overflowAt * 1 := by
    have : unitScale < overflowAt := by decide
    omega
  have hnear := (fsub_rounded hfinite hd).1 hsmall
  have hmem := hnear.scaled_mem_Icc Nat.one_pos (lo := posZero) (hi := one) isFinite_posZero (by decide)
    (by simpa using hlow) (by simpa [hone] using hhigh)
  rw [scaled_posZero, hone] at hmem
  exact ⟨hnear.1, hmem.1, hmem.2⟩

/-- Settles O60: the capacity is the rounding function's value but for the clamp, whose bounds are that function's. -/
theorem capacityRequestRoundsAndClamps : Obligations.CapacityRequestRoundsAndClamps := by
  intro d hd h0 w f
  have hceil (h : 0 < scaled d) : ((f.len : Int) - 1) * unitScale < scaled d ∧ scaled d ≤ f.len * unitScale := by
    rw [(delayRequest_interp_of_pos h).1]
    exact ceilF_bounds d
  refine ⟨delayRequest_len_pos d false, rfl, fun h => ?_, delayRequest_whole_len_of_lt h0, delayRequest_len_pos d true,
    fun h => ⟨(hceil h).1, (hceil h).2, (delayRequest_interp_of_pos h).2⟩, fun h => ?_, fun hlen => ?_⟩
  · rw [delayRequest_whole_len h]
    exact (roundHaz_bounds h0).symm
  · rw [show f = _ from delayRequest_interp_of_zero h]
    exact ⟨rfl, rfl⟩
  · rcases h0.eq_or_lt with h | h
    · rw [show f = _ from delayRequest_interp_of_zero h.symm]
      exact ⟨isFinite_posZero, scaled_posZero.ge, scaled_posZero.trans_le unitScale_pos.le⟩
    · rw [show f.frac = _ from (delayRequest_interp_of_pos h).2]
      exact fsub_i2f_bounds hlen hd (hceil h).1 (hceil h).2

end Sys2Proof.Machine
end

section
/-! BQ: what the five tuning commands and `BQ_PROCESS` answer on the stand-alone section (file `41_biquad.md`). -/

namespace Sys2Proof.Machine

/-! Tuning (rules R151 to R157). -/

/-- What the five tuning commands have in common: the check of rule R151 in the name of the operation, with `gainDb` among the
operands where the command has one, and then the coefficients written. -/
def checkedTuning (o : Op) (gains : List (Operand × F32)) (freq rate q : F32) (c : Coeffs) (s : State) :
    Host.Outcome State Fault Refusal :=
  finish (checkTuning o freq rate q gains >>= fun _ => pure (setCoeffs s.bq c)) s.setBq

theorem exec_bqSetLowpass (freq rate q : F32) (s : State) :
    exec (.bqSetLowpass freq rate q) s =
      checkedTuning .bqSetLowpass [] freq rate q (bqCoef Config.params .lp freq rate q posZero) s := rfl
theorem exec_bqSetHighpass (freq rate q : F32) (s : State) :
    exec (.bqSetHighpass freq rate q) s =
      checkedTuning .bqSetHighpass [] freq rate q (bqCoef Config.params .hp freq rate q posZero) s := rfl
theorem exec_bqSetAllpass (freq rate q : F32) (s : State) :
    exec (.bqSetAllpass freq rate q) s =
      checkedTuning .bqSetAllpass [] freq rate q (bqCoef Config.params .ap freq rate q posZero) s := rfl
theorem exec_bqSetPeaking (freq rate q gainDb : F32) (s : State) :
    exec (.bqSetPeaking freq rate q gainDb) s =
      checkedTuning .bqSetPeaking [(.gainDb, gainDb)] freq rate q (bqCoef Config.params .pk freq rate q gainDb) s := rfl
theorem exec_bqSetShelf (freq rate q gainDb : F32) (s : State) :
    exec (.bqSetShelf freq rate q gainDb) s =
      checkedTuning .bqSetShelf [(.gainDb, gainDb)] freq rate q (bqCoef Config.params .sh freq rate q gainDb) s := rfl

section
variable {freq rate q : F32} {gains : List (Operand × F32)}

/-- Operands that meet the invariant pass the check, and the coefficients are all that is written. -/
theorem checkedTuning_of_valid (h : ValidTuning freq rate q) (hg : ∀ e ∈ gains, isFinite e.2 = true) (o : Op) (c : Coeffs)
    (s : State) : checkedTuning o gains freq rate q c s = .next (s.setBq (setCoeffs s.bq c)) := by
  rw [checkedTuning, checkTuning_ok h hg]
  rfl

/-- Operands outside the invariant stop the command at its check. -/
theorem checkedTuning_of_invalid (h : ¬(ValidTuning freq rate q ∧ ∀ e ∈ gains, isFinite e.2 = true)) (o : Op) (c : Coeffs)
    (s : State) : ∃ x, checkedTuning o gains freq rate q c s = .fault (.config o x) := by
  obtain ⟨x, hx⟩ := checkTuning_error (op := o) h
  exact ⟨x, by rw [checkedTuning, hx, error_bind, finish_error]⟩

end

/-- Settles O16: the three commands without a gain check the invariant alone, the two with one check the gain as well. -/
theorem tuningOutsideTheInvariantFaults : Obligations.TuningOutsideTheInvariantFaults := by
  intro s freq rate q gainDb
  refine ⟨fun h => ?_, fun h => ?_⟩
  · have hcheck : ¬(ValidTuning freq rate q ∧ ∀ e ∈ ([] : List (Operand × F32)), isFinite e.2 = true) :=
      fun hvalid => h hvalid.1
    rw [exec_bqSetLowpass, exec_bqSetHighpass, exec_bqSetAllpass]
    exact ⟨checkedTuning_of_invalid hcheck .., checkedTuning_of_invalid hcheck .., checkedTuning_of_invalid hcheck ..⟩
  · have hcheck : ¬(ValidTuning freq rate q ∧ ∀ e ∈ [(Operand.gainDb, gainDb)], isFinite e.2 = true) := by
      rwa [List.forall_mem_singleton]
    rw [exec_bqSetPeaking, exec_bqSetShelf]
    exact ⟨checkedTuning_of_invalid hcheck .., checkedTuning_of_invalid hcheck ..⟩

/-- Settles O14: with no gain to check, the invariant is the whole check. -/
theorem threeOperandTuningWritesCoefficients : Obligations.ThreeOperandTuningWritesCoefficients := by
  intro s freq rate q h coef written
  have hg : ∀ e ∈ ([] : List (Operand × F32)), isFinite e.2 = true := List.forall_mem_nil _
  rw [exec_bqSetLowpass, exec_bqSetHighpass, exec_bqSetAllpass]
  exact ⟨checkedTuning_of_valid h hg .., checkedTuning_of_valid h hg .., checkedTuning_of_valid h hg ..⟩

/-- Settles O15: the gain is the one operand the check has beyond the invariant. -/
theorem fourOperandTuningWritesCoefficients : Obligations.FourOperandTuningWritesCoefficients := by
  intro s freq rate q gainDb h hgain coef written
  have hg : ∀ e ∈ [(Operand.gainDb, gainDb)], isFinite e.2 = true := List.forall_mem_singleton.mpr hgain
  rw [exec_bqSetPeaking, exec_bqSetShelf]
  exact ⟨checkedTuning_of_valid h hg .., checkedTuning_of_valid h hg ..⟩

/-! Processing (rule R158). -/

/-- Settles O17: the section is tuned, so no register is recorded, and the words it holds are the five coefficients. -/
theorem bqProcessComputesTheDifferenceEquation : Obligations.BqProcessComputesTheDifferenceEquation := by
  intro s x a1 a2 b0 b1 b2 ha1 ha2 hb0 hb1 hb2 y
  have htuned : Tuned s.bq := by
    rw [Tuned, ha1, ha2, hb0, hb1, hb2]
    exact ⟨rfl, rfl, rfl, rfl, rfl⟩
  have hfed : SectionFed x s.bq { s.bq with x1 := x, x2 := s.bq.x1, y1 := y, y2 := s.bq.y1 } y := by
    refine ⟨?_, rfl⟩
    rw [ha1, ha2, hb0, hb1, hb2]
    rfl
  rw [exec_bqProcess_of_tuned htuned, hfed.eq]

/-- What a command records as Unset is still on the port's record after its answer. -/
theorem mem_unsetReads_of_emit_noteUnset (u : State) (p : PortId) {names : List RegName} {n : RegName} (h : n ∈ names)
    (ws : List Word) : n ∈ (((u.noteUnset p names).emit p ws).port p).unsetReads := by
  rw [State.emit_port]
  exact u.mem_noteUnset p h

/-- Settles O18: the coefficients recorded are the Unset ones of the section, of which an untuned section has at least one. -/
theorem bqProcessOnAnUntunedSectionMarksTheRun : Obligations.BqProcessOnAnUntunedSectionMarksTheRun := by
  intro s x huntuned
  have hrecord : ∀ n ∈ unsetCoeffs s.bq, n ∈ (((s.setBq (processBiquad x s.bq).1).noteUnset .bq (unsetCoeffs s.bq)).emit .bq
      [(processBiquad x s.bq).2]).bqPort.unsetReads :=
    fun n hn => mem_unsetReads_of_emit_noteUnset _ .bq hn _
  obtain ⟨n, hn⟩ := List.exists_mem_of_ne_nil _ (mt unsetCoeffs_eq_nil.mp huntuned)
  exact ⟨_, _, _, processBiquad_sectionFed x s.bq, rfl, rfl, rsp_of_emit_noteUnset (s.setBq_port _ .bq) _ _,
    List.ne_nil_of_mem (hrecord n hn), fun e he hunset => hrecord e.1 (mem_unsetOf.mpr ⟨e.2, he, hunset⟩)⟩

end Sys2Proof.Machine
end

section
/-! DL: what the four commands of the stand-alone line answer, by whether the line is configured (rules R181 to R185). -/

namespace Sys2Proof.Machine

/-! Configuring (rules R129, R181, R182, R185). -/

/-- A length that passes its two checks is the capacity set, with no fraction (rule R181). -/
theorem configureWhole_ok {P : Params} {len : BitVec 24} (hpos : 1 ≤ len.toNat) (hle : len.toNat ≤ dlMax P)
    (dl : DelayLine) :
    configureWhole P len dl = .ok (dlSet { len := len.toNat, d := posZero, frac := posZero } false dl) := by
  simp only [configureWhole, decide_eq_true (Nat.ne_of_gt hpos), require_true, ok_bind, checkCapacity_ok hle]
  rfl

/-- The ceiling is the only integer within its bounds (rule R129). -/
theorem ceilF_eq {v : F32} {n : Int} (hlt : (n - 1) * unitScale < scaled v) (hle : scaled v ≤ n * unitScale) :
    ceilF v = n := by
  obtain ⟨ceil_lt, le_ceil⟩ := ceilF_bounds v
  have hbelow : n - 1 < ceilF v := lt_of_mul_lt_mul_right (hlt.trans_le le_ceil) unitScale_pos.le
  have habove : ceilF v - 1 < n := lt_of_mul_lt_mul_right (ceil_lt.trans_le hle) unitScale_pos.le
  omega

/-- A finite request whose ceiling passes its two checks: that ceiling is the capacity set, and the fraction is what the ceiling
adds to the request (rule R182). -/
theorem configureFrac_ok {P : Params} {d : F32} {n : Nat} (hd : isFinite d = true) (hpos : 1 ≤ n) (hle : n ≤ dlMax P)
    (hceil : ceilF d = n) (dl : DelayLine) :
    configureFrac P d dl = .ok (dlSet { len := n, d := d, frac := fsub (i2f n) d } true dl) := by
  have hfinite : requireFinite .dlConfigureFrac [(.delaySamples, d)] = .ok ⟨⟩ :=
    requireFinite_ok (List.forall_mem_singleton.mpr hd)
  have hpos' : (0 : Int) < n := by omega
  simp only [configureFrac, hfinite, hceil, decide_eq_true hpos', Int.toNat_natCast, require_true, ok_bind,
    checkCapacity_ok hle]
  rfl

theorem exec_dlConfigure_of_ok {len : BitVec 24} {s : State} {dl : DelayLine}
    (h : configureWhole Config.params len s.dl = .ok dl) : exec (.dlConfigure len) s = .next (s.setDl dl) := by
  simp only [exec, execDlConfigure, h, finish_ok]

theorem exec_dlConfigureFrac_of_ok {d : F32} {s : State} {dl : DelayLine}
    (h : configureFrac Config.params d s.dl = .ok dl) : exec (.dlConfigureFrac d) s = .next (s.setDl dl) := by
  simp only [exec, execDlConfigureFrac, h, finish_ok]

/-- Settles O21. -/
theorem dlConfigureSetsAWholeSampleLine : Obligations.DlConfigureSetsAWholeSampleLine := fun s _ hpos hle =>
  ⟨_, exec_dlConfigure_of_ok (configureWhole_ok hpos hle s.dl), rfl, dlSet_lineSet _ false s.dl⟩

/-- Settles O23: the bounds of the statement say that `n` is the ceiling that the command computes. -/
theorem dlConfigureFracSetsAFractionalLine : Obligations.DlConfigureFracSetsAFractionalLine :=
  fun s _ _ hd hpos hle hlow hhigh =>
    ⟨_, exec_dlConfigureFrac_of_ok (configureFrac_ok hd hpos hle (ceilF_eq hlow hhigh) s.dl), rfl,
      dlSet_lineSet _ true s.dl⟩

/-! Put and get (rules R183, R184, R189). -/

section
variable {s : State}

theorem exec_dlPut_of_configured (h : s.dl.cap ≠ 0) (x : F32) :
    exec (.dlPut x) s = .next (s.setDl (pushSample x s.dl)) := by
  simp only [exec, execDlPut, putSample_ok h, finish_ok]

theorem exec_dlPut_of_unconfigured (h : s.dl.cap = 0) (x : F32) : exec (.dlPut x) s = .fault (.unconfigured .dlPut) := by
  simp only [exec, execDlPut, putSample_error h, finish_error]

theorem exec_dlGet_of_configured (h : s.dl.cap ≠ 0) : exec .dlGet s = .next (s.emit .dl [readSample s.dl]) := by
  simp only [exec, execDlGet, getSample_ok h, finish_ok]

theorem exec_dlGet_of_unconfigured (h : s.dl.cap = 0) : exec .dlGet s = .fault (.unconfigured .dlGet) := by
  simp only [exec, execDlGet, getSample_error h, finish_error]

end

/-- A whole-sample line answers the slot under the cursor (rule R184). -/
theorem readSample_whole {dl : DelayLine} (h : dl.interp = false) : readSample dl = dl.data.read dl.index := by
  simp [readSample, h]

/-- A fractional line answers the blend of the slot under the cursor with the next (rule R184). -/
theorem readSample_frac {dl : DelayLine} (h : dl.interp = true) :
    readSample dl = fadd (fmul (dl.data.read dl.index) (fsub one dl.frac))
      (fmul (dl.data.read ((dl.index + 1) % dl.cap)) dl.frac) := by
  simp [readSample, nextIndex, h]

/-- The words of `DL_PUT`: opcode `0x23`, no fields, the sample (rule R93). -/
theorem encode_dlPut (x : F32) : encode (.dlPut x) = [0x23000000, x] :=
  congrArg (· :: [x]) (show opcode .dlPut ++ 0#24 = 0x23000000#32 by decide)

/-- The word of `DL_GET`: opcode `0x24`, no fields (rule R93). -/
theorem encode_dlGet : encode .dlGet = [0x24000000] := by decide

/-- Settles O25. -/
theorem dlPutStoresOneSlotAndAdvances : Obligations.DlPutStoresOneSlotAndAdvances := fun _ x =>
  ⟨encode_dlPut x, fun hcap hwf => ⟨_, exec_dlPut_of_configured hcap x, rfl, pushSample_linePushed x hwf⟩,
    fun hcap => exec_dlPut_of_unconfigured hcap x⟩

/-- Settles O26. -/
theorem dlGetIsAPureRead : Obligations.DlGetIsAPureRead := by
  intro s cur nxt
  refine ⟨encode_dlGet, fun hcap hwhole => ?_, fun hcap hfrac => ?_, exec_dlGet_of_unconfigured⟩
  · rw [exec_dlGet_of_configured hcap, readSample_whole hwhole]
  · rw [exec_dlGet_of_configured hcap, readSample_frac hfrac]

end Sys2Proof.Machine
end

section
/-! DL: which commands configure a line, over all commands and all four lines of the machine (rule R189). -/

namespace Sys2Proof.Machine

/-! The bank's line before its configuration. -/

theorem putBank_error {P : Params} {op : Op} {x : F32} {c : FilterBank} (h : c.dl.cap = 0) :
    putBank P op x c = .error (.unconfigured op) := by
  simp only [putBank, checkConfigured_error h, error_bind]

theorem exec_cfbPut_of_unconfigured {s : State} (h : s.cfb.dl.cap = 0) (x : F32) :
    exec (.cfbPut x) s = .fault (.unconfigured .cfbPut) := by
  simp only [exec, execCfbPut, putBank_error h, finish_error]

theorem exec_cfbGet_of_unconfigured {s : State} (h : s.cfb.dl.cap = 0) : exec .cfbGet s = .fault (.unconfigured .cfbGet) := by
  simp only [exec, execCfbGet, getSample_error h, finish_error]

/-! What a completed command does to a line's capacity. -/

/-- After the operation `o` the line `dl` has become `dl'`: with the capacity it had, or configured by an operation of `ops`. -/
def CapacitySetBy (ops : List Op) (o : Op) (dl dl' : DelayLine) : Prop := dl'.cap = dl.cap ∨ (o ∈ ops ∧ dl'.cap ≠ 0)

section
variable {ops : List Op} {o : Op} {dl dl' : DelayLine}

/-- An unconfigured line gets a capacity from an operation of `ops` only. -/
theorem CapacitySetBy.mem (h : CapacitySetBy ops o dl dl') (h0 : dl.cap = 0) (h1 : dl'.cap ≠ 0) : o ∈ ops := by
  rcases h with hsame | ⟨ho, -⟩
  · exact absurd (hsame.trans h0) h1
  · exact ho

/-- A configured line stays configured. -/
theorem CapacitySetBy.cap_ne (h : CapacitySetBy ops o dl dl') (h0 : dl.cap ≠ 0) : dl'.cap ≠ 0 := by
  rcases h with hsame | ⟨-, h1⟩
  · exact hsame ▸ h0
  · exact h1

/-- A sound request leaves a line configured. -/
theorem capacitySetBy_dlSet {r : DelayRequest} {interp : Bool} (ho : o ∈ ops) (hr : SoundRequest r interp)
    (dl : DelayLine) : CapacitySetBy ops o dl (dlSet r interp dl) :=
  .inr ⟨ho, Nat.ne_of_gt hr.len_pos⟩

end

/-- `XTC_PROCESS` keeps the capacity of both paths' lines (rules R254, R255). -/
theorem processBlock_cap {P : Params} {tap : FbTap} {ps : List (F32 × F32)} {x x' : Canceller} {ws : List Word}
    (h : processBlock P tap ps x = .ok (x', ws)) :
    x'.pathA.cfb.dl.cap = x.pathA.cfb.dl.cap ∧ x'.pathB.cfb.dl.cap = x.pathB.cfb.dl.cap :=
  processBlock_rel
    (fun x x' => x'.pathA.cfb.dl.cap = x.pathA.cfb.dl.cap ∧ x'.pathB.cfb.dl.cap = x.pathB.cfb.dl.cap)
    (fun _ => ⟨rfl, rfl⟩) (fun hs hr => ⟨hr.1.trans hs.pathA.cap, hr.2.trans hs.capB⟩) (fun _ _ hr => hr) h

section
variable {s t : State} {o : Op}

theorem Completed.dl_cap (h : Completed s o t) : CapacitySetBy [.dlConfigure, .dlConfigureFrac] o s.dl t.dl := by
  cases h with
  | lineSet ho hr => exact capacitySetBy_dlSet ho hr s.dl
  | linePut | tuned | sectionFed | answered | bankSet | bankPut | shaperSet | shaperFed | reconfigured | processed | bypassSet =>
    exact .inl (by simp)

theorem Completed.cfb_cap (h : Completed s o t) : CapacitySetBy [.cfbConfigure] o s.cfb.dl t.cfb.dl := by
  cases h with
  | bankSet hr rate => exact capacitySetBy_dlSet (List.mem_singleton_self _) hr s.cfb.dl
  | bankPut | tuned | sectionFed | lineSet | linePut | answered | shaperSet | shaperFed | reconfigured | processed | bypassSet =>
    exact .inl (by simp)

theorem Completed.paths_cap (h : Completed s o t) :
    CapacitySetBy [.xtcReconfigure] o s.xtc.pathA.cfb.dl t.xtc.pathA.cfb.dl ∧
    CapacitySetBy [.xtcReconfigure] o s.xtc.pathB.cfb.dl t.xtc.pathB.cfb.dl := by
  cases h with
  | reconfigured hr =>
    simp only [State.setXtc_xtc, applyConfig, setPath_dl]
    exact ⟨capacitySetBy_dlSet (List.mem_singleton_self _) hr _, capacitySetBy_dlSet (List.mem_singleton_self _) hr _⟩
  | processed hblock =>
    obtain ⟨hA, hB⟩ := processBlock_cap hblock
    exact ⟨.inl (by simpa using hA), .inl (by simpa using hB)⟩
  | tuned | sectionFed | lineSet | linePut | answered | bankSet | bankPut | shaperSet | shaperFed | bypassSet =>
    exact ⟨.inl (by simp), .inl (by simp)⟩

end

/-- Settles O27: each line's capacity is as before or was set by a configure command of its unit. -/
theorem onlyAConfigureCommandConfiguresALine : Obligations.OnlyAConfigureCommandConfiguresALine := by
  intro s
  refine ⟨fun h => ⟨exec_dlGet_of_unconfigured h, exec_dlPut_of_unconfigured h⟩,
    fun h => ⟨exec_cfbGet_of_unconfigured h, exec_cfbPut_of_unconfigured h⟩, fun i t h => ?_⟩
  have hc := completed_of_exec h
  obtain ⟨hA, hB⟩ := hc.paths_cap
  exact ⟨fun h0 h1 => by simpa using hc.dl_cap.mem h0 h1, fun h0 h1 => List.mem_singleton.mp (hc.cfb_cap.mem h0 h1),
    fun h0 h1 => List.mem_singleton.mp (hA.mem h0 h1), fun h0 h1 => List.mem_singleton.mp (hB.mem h0 h1),
    hc.dl_cap.cap_ne, hc.cfb_cap.cap_ne, hA.cap_ne, hB.cap_ne⟩

end Sys2Proof.Machine
end

section
/-! DL: the latency laws. Get and put by turns on a line answer the samples it holds, oldest first, and then the signal
(rules R186, R187). -/

namespace Sys2Proof.Machine

/-! From commands to reads of one line. -/

/-- What a line answers when it is read before each sample of a signal is put (rule R186). -/
def lineReads : DelayLine → List F32 → List F32
  | _, [] => []
  | dl, x :: xs => readSample dl :: lineReads (pushSample x dl) xs

theorem runCommands_cons {i : Instr} {s t : State} (h : exec i s = .next t) (is : List Instr) :
    runCommands (i :: is) s = runCommands is t := by
  simp only [runCommands, h]

/-- On a configured line get and put by turns complete, and answer the line's reads. -/
theorem run_getThenPut (xs : List F32) {s : State} (h : s.dl.cap ≠ 0) :
    ∃ t, runCommands (getThenPut xs) s = .next t ∧ t.dlPort.rsp = s.dlPort.rsp ++ lineReads s.dl xs := by
  induction xs generalizing s with
  | nil => exact ⟨s, rfl, (List.append_nil _).symm⟩
  | cons x xs ih =>
    have hget := exec_dlGet_of_configured h
    have hput := exec_dlPut_of_configured (s := s.emit .dl [readSample s.dl]) (by simpa using h) x
    obtain ⟨t, hrun, hrsp⟩ := ih (s := (s.emit .dl [readSample s.dl]).setDl (pushSample x s.dl)) h
    refine ⟨t, ((runCommands_cons hget _).trans (runCommands_cons hput _)).trans hrun, hrsp.trans ?_⟩
    exact List.append_assoc s.dlPort.rsp [readSample s.dl] (lineReads (pushSample x s.dl) xs)

/-! From reads of a line to the samples it holds. -/

/-- A whole-sample line answers what it holds, and then the signal. -/
theorem lineReads_whole (xs : List F32) {q : List F32} {dl : DelayLine} (h : Holds q dl) (hq : q ≠ [])
    (hi : dl.interp = false) : lineReads dl xs = (q ++ xs).take xs.length := by
  induction xs generalizing q dl with
  | nil => simp [lineReads]
  | cons x xs ih =>
    obtain ⟨a, q, rfl⟩ := List.exists_cons_of_ne_nil hq
    rw [lineReads, h.read_whole hi, ih h.push (by simp) hi]
    simp

/-- The blend of a sample with the one after it (rule R184). -/
def blend (frac old new : F32) : F32 := fadd (fmul old (fsub one frac)) (fmul new frac)

/-- A fractional line answers the blends of what it holds, and then of the signal, each sample with the next. -/
theorem lineReads_frac (xs : List F32) {a : F32} {q : List F32} {dl : DelayLine} (h : Holds (a :: q) dl) (hq : q ≠ [])
    (hi : dl.interp = true) :
    lineReads dl xs = List.zipWith (blend dl.frac) ((a :: q ++ xs).take xs.length) ((q ++ xs).take xs.length) := by
  induction xs generalizing a q dl with
  | nil => simp [lineReads]
  | cons x xs ih =>
    obtain ⟨b, q, rfl⟩ := List.exists_cons_of_ne_nil hq
    rw [lineReads, h.read_frac hi, ih (q := q ++ [x]) h.push (by simp) hi]
    simp [blend]

/-! The laws. -/

/-- Settles O28: the line holds `D` samples of silence. -/
theorem wholeSampleLineDelaysByItsCapacity : Obligations.WholeSampleLineDelaysByItsCapacity := by
  intro s D xs hD hfresh hi
  have hcap : s.dl.cap ≠ 0 := hfresh.1 ▸ Nat.ne_of_gt hD
  have hsilence : List.replicate D posZero ≠ [] := by simpa using Nat.ne_of_gt hD
  obtain ⟨t, hrun, hrsp⟩ := run_getThenPut xs hcap
  exact ⟨t, hrun, by rw [hrsp, lineReads_whole xs (hfresh.holds hD) hsilence hi, delayed]⟩

/-- Settles O29: the line holds a sample of silence, and after it the `D - 1` of the second delayed signal. -/
theorem fractionalLineBlendsTwoNeighbours : Obligations.FractionalLineBlendsTwoNeighbours := by
  intro s D xs hD hfresh hi
  obtain ⟨D, rfl⟩ : ∃ D', D = D' + 1 := ⟨D - 1, by omega⟩
  have hcap : s.dl.cap ≠ 0 := hfresh.1 ▸ D.succ_ne_zero
  have hsilence : List.replicate D posZero ≠ [] := by simpa using (by omega : D ≠ 0)
  obtain ⟨t, hrun, hrsp⟩ := run_getThenPut xs hcap
  exact ⟨t, hrun, by rw [hrsp, lineReads_frac xs (hfresh.holds D.succ_pos) hsilence hi]; rfl⟩

end Sys2Proof.Machine
end

section
/-! CFB: the composition of `HS_TABLE`, for every choice of the OPEN parameters (rules R6, R211). -/

namespace Sys2Proof.Machine

/-- The high-pass entry stands at its place only. -/
theorem tableEntry_kind_eq_hp {P : Params} {k : Nat} : (tableEntry P k).kind = .hp ↔ k = hpPos P := by
  rw [tableEntry]
  split
  next h => simp [h]
  next h => split <;> simp [h]

/-- The low-pass entry stands at its place only, which is not the high-pass entry's. -/
theorem tableEntry_kind_eq_lp {P : Params} {k : Nat} : (tableEntry P k).kind = .lp ↔ k = lpPos P := by
  rw [tableEntry]
  split
  next h => simp [h, (lpPos_ne_hpPos P).symm]
  next => split <;> simp [*]

/-- An entry at neither of the two places is peaking. -/
theorem tableEntry_kind_cases (P : Params) (k : Nat) :
    (tableEntry P k).kind = .hp ∨ (tableEntry P k).kind = .pk ∨ (tableEntry P k).kind = .lp := by
  rw [tableEntry]
  split
  next => exact .inl rfl
  next =>
    split
    next => exact .inr (.inr rfl)
    next => exact .inr (.inl rfl)

/-- A kind that stands at one place of the table only is the kind of one entry. -/
theorem length_filter_kind_hsTable {P : Params} {kind : Kind} {k : Nat} (hk : k < nsec P)
    (h : ∀ j, (tableEntry P j).kind = kind ↔ j = k) : ((hsTable P).filter fun e => e.kind = kind).length = 1 :=
  calc ((hsTable P).filter fun e => e.kind = kind).length
    _ = (List.range (nsec P)).count k := by
      rw [hsTable, ← List.countP_eq_length_filter, List.countP_map, List.count]
      exact List.countP_congr fun j _ => by simp [h]
    _ = 1 := List.count_eq_one_of_mem List.nodup_range (List.mem_range.mpr hk)

/-- Settles O36: the two places of the accessor are places of the table, and they differ. -/
theorem tableHasOneHighPassOneLowPass : Obligations.TableHasOneHighPassOneLowPass := by
  intro P
  refine ⟨nsec_ge P, nsec_le P, length_hsTable P, length_filter_kind_hsTable (hpPos_lt P) fun _ => tableEntry_kind_eq_hp,
    length_filter_kind_hsTable (lpPos_lt P) fun _ => tableEntry_kind_eq_lp, fun e he => ?_⟩
  obtain ⟨k, -, rfl⟩ := List.mem_map.mp he
  exact tableEntry_kind_cases P k

end Sys2Proof.Machine
end

section
/-! CFB: what the three commands of the stand-alone bank answer (rules R212 to R214). -/

namespace Sys2Proof.Machine

/-! Configuring (rules R131, R211, R212, R304). -/

/-- What `CFB_CONFIGURE` asks of its operands before it looks at the capacity (rules R212, R304). -/
def ValidBankConfig (P : Params) (delayUs rate : F32) : Prop :=
  isFinite delayUs = true ∧ isFinite rate = true ∧ 0 < scaled rate ∧ ValidDelay delayUs rate ∧ ValidTable P rate

section
variable {P : Params} {delayUs rate : F32}

/-- With valid operands the capacity is the last check of `CFB_CONFIGURE`. -/
theorem configureBank_of_valid (h : ValidBankConfig P delayUs rate) (interp : Bool) (c : FilterBank) :
    configureBank P interp delayUs rate c =
      (checkCapacity P (delayRequest (delaySamplesOf delayUs rate) interp).len >>= fun _ =>
        pure { sec := tuneSections P rate (hsTable P) c.sec
               dl := dlSet (delayRequest (delaySamplesOf delayUs rate) interp) interp c.dl }) := by
  obtain ⟨hdelayUs, hrate, hpos, hdelay, htable⟩ := h
  have hfinite : requireFinite .cfbConfigure [(.delayUs, delayUs), (.rate, rate)] = .ok ⟨⟩ :=
    requireFinite_ok (by simp [hdelayUs, hrate])
  have hentries : checkEntries .cfbConfigure rate 0 (hsTable P) = .ok ⟨⟩ :=
    checkEntries_ok fun e he => (entryValid_iff hrate hpos e).mpr (htable e he)
  simp only [configureBank, hfinite, (isPositive_iff rate).mpr ⟨hrate, hpos⟩, delayLen_ok hdelay, hentries, require_true,
    ok_bind]

/-- With an operand, the delay or the table not valid one of the checks before the capacity fails. -/
theorem configureBank_of_invalid (h : ¬ValidBankConfig P delayUs rate) (interp : Bool) (c : FilterBank) :
    ∃ x, configureBank P interp delayUs rate c = .error (.config .cfbConfigure x) := by
  rw [configureBank]
  rcases requireFinite_cases .cfbConfigure [(.delayUs, delayUs), (.rate, rate)] with ⟨hok, hfinite⟩ | ⟨⟨x, hx⟩, -⟩
  case inr => exact ⟨x, by rw [hx, error_bind]⟩
  rw [hok, ok_bind]
  obtain ⟨hdelayUs, hrate⟩ : isFinite delayUs = true ∧ isFinite rate = true := by simpa using hfinite
  by_cases hpos : 0 < scaled rate
  case neg =>
    have hnot : isPositive rate = false := by simp [isPositive, hpos]
    exact ⟨_, by rw [hnot, require_false, error_bind]⟩
  rw [(isPositive_iff rate).mpr ⟨hrate, hpos⟩, require_true, ok_bind]
  by_cases hdelay : ValidDelay delayUs rate
  case neg => exact ⟨_, by rw [delayLen_error hdelay, error_bind]⟩
  rw [delayLen_ok hdelay, ok_bind]
  rcases checkTable_cases P .cfbConfigure hrate hpos with ⟨-, htable⟩ | ⟨⟨x, hx⟩, -⟩
  · exact absurd ⟨hdelayUs, hrate, hpos, hdelay, htable⟩ h
  · exact ⟨x, by rw [hx, error_bind]⟩

end

/-- Settles O30: every check passes, and the line and the sections are those of `dl_set` and the table. -/
theorem cfbConfigureSetsTheLineAndTunesTheSections : Obligations.CfbConfigureSetsTheLineAndTunesTheSections := by
  intro s interp delayUs rate hdelayUs hrate hpos hdelay htable d r hle
  have hr : delayRequest (delaySamplesOf delayUs rate) interp = r := rfl
  have hbank := configureBank_of_valid ⟨hdelayUs, hrate, hpos, hdelay, htable⟩ interp s.cfb
  rw [hr, checkCapacity_ok hle, ok_bind] at hbank
  have hline := dlSet_lineSet r interp s.cfb.dl
  rw [delayRequest_d] at hline
  exact ⟨_, by rw [exec, execCfbConfigure, hbank]; rfl, rfl, hline, tuneSections_sectionsTuned ..⟩

/-- Settles O31: the checks of the operands come before the capacity's. -/
theorem cfbConfigureRejects : Obligations.CfbConfigureRejects := by
  intro s interp delayUs rate valid r
  have hr : delayRequest (delaySamplesOf delayUs rate) interp = r := rfl
  refine ⟨fun hinvalid => ?_, fun hvalid hlt => ?_⟩
  · obtain ⟨x, hx⟩ := configureBank_of_invalid hinvalid interp s.cfb
    exact ⟨x, by rw [exec, execCfbConfigure, hx, finish_error]⟩
  · rw [exec, execCfbConfigure, configureBank_of_valid hvalid, hr, checkCapacity_error hlt, error_bind, finish_error]

/-! Put and get (rules R189, R213, R214). -/

/-- A bank after one sample: through the cascade, and its output into the line (rule R213). -/
def feedBank (P : Params) (x : F32) (c : FilterBank) : FilterBank :=
  { sec := (cascade (nsec P) x c.sec).1, dl := pushSample (cascade (nsec P) x c.sec).2 c.dl }

section
variable {s : State}

theorem exec_cfbPut_of_configured (h : s.cfb.dl.cap ≠ 0) (x : F32) :
    exec (.cfbPut x) s = .next ((s.setCfb (feedBank Config.params x s.cfb)).noteUnset .cfb
      (unsetSections Config.params s.cfb.sec)) := by
  simp only [exec, execCfbPut, putBank_ok x h, finish_ok, feedBank]

theorem exec_cfbPut_of_tuned (h : s.cfb.dl.cap ≠ 0) (htuned : BankTuned Config.params s.cfb.sec) (x : F32) :
    exec (.cfbPut x) s = .next (s.setCfb (feedBank Config.params x s.cfb)) := by
  rw [exec_cfbPut_of_configured h, unsetSections_eq_nil.mpr htuned.2, State.noteUnset_nil]

theorem exec_cfbGet_of_configured (h : s.cfb.dl.cap ≠ 0) :
    exec .cfbGet s = .next (s.emit .cfb [readSample s.cfb.dl]) := by
  simp only [exec, execCfbGet, getSample_ok h, finish_ok]

end

/-- Settles O32: a tuned bank reads no Unset coefficient, so the bank is all that changes. -/
theorem cfbPutRunsTheCascadeIntoTheLine : Obligations.CfbPutRunsTheCascadeIntoTheLine := fun s x hcap hwf htuned =>
  ⟨_, _, _, cascade_cascadeFed _ x s.cfb.sec, pushSample_linePushed _ hwf, exec_cfbPut_of_tuned hcap htuned x⟩

/-- Settles O33: an untuned section among the first `NSEC` has an Unset coefficient, which goes on the record. -/
theorem cfbPutBeforeConfigurationOrTuning : Obligations.CfbPutBeforeConfigurationOrTuning := by
  intro s x
  refine ⟨fun hcap => exec_cfbPut_of_unconfigured hcap x, fun hcap hwf ⟨b, hb, huntuned⟩ => ?_⟩
  have hunset : unsetSections Config.params s.cfb.sec ≠ [] := fun hnil => huntuned (unsetSections_eq_nil.mp hnil b hb)
  obtain ⟨n, hn⟩ := List.exists_mem_of_ne_nil _ hunset
  exact ⟨_, _, _, _, cascade_cascadeFed _ x s.cfb.sec, pushSample_linePushed _ hwf, exec_cfbPut_of_configured hcap x, rfl,
    rfl, List.ne_nil_of_mem (State.mem_noteUnset _ .cfb hn)⟩

/-- Settles O34. -/
theorem cfbGetReadsTheDelayLine : Obligations.CfbGetReadsTheDelayLine := by
  intro s cur nxt
  refine ⟨fun hcap hwhole => ?_, fun hcap hfrac => ?_, exec_cfbGet_of_unconfigured⟩
  · rw [exec_cfbGet_of_configured hcap, readSample_whole hwhole]
  · rw [exec_cfbGet_of_configured hcap, readSample_frac hfrac]

end Sys2Proof.Machine
end

section
/-! CFB: the latency law. Get and put by turns on a bank read its line, into which the cascade's outputs go (rule R215). -/

namespace Sys2Proof.Machine

/-- The outputs of a cascade fed a signal, one sample after the other (rule R213). -/
def cascadeOutputs (n : Nat) : List Biquad → List F32 → List F32
  | _, [] => []
  | secs, x :: xs => (cascade n x secs).2 :: cascadeOutputs n (cascade n x secs).1 xs

theorem cascadeRun_cascadeOutputs (n : Nat) (xs : List F32) (secs : List Biquad) :
    CascadeRun n secs xs (cascadeOutputs n secs xs) := by
  induction xs generalizing secs with
  | nil => rfl
  | cons x xs ih => exact ⟨_, _, _, cascade_cascadeFed n x secs, ih _, rfl⟩

/-- On a configured bank get and put by turns complete, tuned or not, and answer the reads of the line fed the cascade's
outputs. -/
theorem run_bankGetThenPut (xs : List F32) {s : State} (h : s.cfb.dl.cap ≠ 0) :
    ∃ t, runCommands (bankGetThenPut xs) s = .next t ∧
      t.cfbPort.rsp = s.cfbPort.rsp ++ lineReads s.cfb.dl (cascadeOutputs (nsec Config.params) s.cfb.sec xs) := by
  induction xs generalizing s with
  | nil => exact ⟨s, rfl, (List.append_nil _).symm⟩
  | cons x xs ih =>
    have hget := exec_cfbGet_of_configured h
    have hput := exec_cfbPut_of_configured (s := s.emit .cfb [readSample s.cfb.dl]) h x
    obtain ⟨t, hrun, hrsp⟩ := ih (s := ((s.emit .cfb [readSample s.cfb.dl]).setCfb
      (feedBank Config.params x s.cfb)).noteUnset .cfb (unsetSections Config.params s.cfb.sec)) h
    refine ⟨t, ((runCommands_cons hget _).trans (runCommands_cons hput _)).trans hrun, hrsp.trans ?_⟩
    exact List.append_assoc s.cfbPort.rsp [readSample s.cfb.dl] _

/-- Settles O35: the line holds `D` samples of silence, and what is put into it is the cascade's outputs. -/
theorem bankDelaysTheCascadeOutput : Obligations.BankDelaysTheCascadeOutput := by
  intro s D xs hD hfresh hi
  have hcap : s.cfb.dl.cap ≠ 0 := hfresh.1 ▸ Nat.ne_of_gt hD
  have hsilence : List.replicate D posZero ≠ [] := by simpa using Nat.ne_of_gt hD
  obtain ⟨t, hrun, hrsp⟩ := run_bankGetThenPut xs hcap
  refine ⟨t, _, cascadeRun_cascadeOutputs _ xs s.cfb.sec, hrun, ?_⟩
  rw [hrsp, lineReads_whole _ (hfresh.holds hD) hsilence hi, delayed]

end Sys2Proof.Machine
end

section
/-! FOS: what the two commands of the stand-alone shaper answer (file `44_first_order_shaper.md`). -/

namespace Sys2Proof.Machine

/-! Configuring (rule R232). -/

/-- The words of `FOS_CONFIGURE`: opcode `0x41`, `clamp_en` in bit 0, the rate (rules R93, R97). -/
theorem encode_fosConfigure (clampEn : Bool) (rate : F32) :
    encode (.fosConfigure clampEn rate) = [if clampEn then 0x41000001 else 0x41000000, rate] := by
  have hheader : opcode .fosConfigure ++ (0#23 ++ bit clampEn) = if clampEn then 0x41000001#32 else 0x41000000#32 := by
    cases clampEn <;> decide
  exact congrArg (· :: [rate]) hheader

section
variable {P : Params} {rate : F32}

theorem configureShaper_ok (hfinite : isFinite rate = true) (hpos : 0 < scaled rate) (clampEn : Bool) (f : Shaper) :
    configureShaper P clampEn rate f = .ok (tuneShaper P clampEn rate f) := by
  have hoperands : requireFinite .fosConfigure [(.rate, rate)] = .ok ⟨⟩ :=
    requireFinite_ok (List.forall_mem_singleton.mpr hfinite)
  simp only [configureShaper, hoperands, (isPositive_iff rate).mpr ⟨hfinite, hpos⟩, require_true, ok_bind]
  rfl

/-- Whichever of its two checks a rate fails, the fault names the rate (rule R232). -/
theorem configureShaper_error (h : isFinite rate = false ∨ scaled rate ≤ 0) (clampEn : Bool) (f : Shaper) :
    configureShaper P clampEn rate f = .error (.config .fosConfigure .rate) := by
  by_cases hfinite : isFinite rate = true
  · have hle : scaled rate ≤ 0 := h.resolve_left (by simp [hfinite])
    have hnot : isPositive rate = false := by simp [isPositive, hle]
    simp only [configureShaper, requireFinite, if_pos hfinite, hnot, require_false, ok_bind, error_bind]
  · simp only [configureShaper, requireFinite, if_neg hfinite, error_bind]

end

/-- Settles O37: a rate that is finite and positive passes both checks, and any other fails one of them. -/
theorem fosConfigureWritesTheCoefficients : Obligations.FosConfigureWritesTheCoefficients := by
  intro s clampEn rate P
  refine ⟨encode_fosConfigure clampEn rate, fun hfinite hpos => ?_, fun hinvalid => ?_⟩
  · rw [exec, execFosConfigure, configureShaper_ok hfinite hpos, finish_ok]
    rfl
  · rw [exec, execFosConfigure, configureShaper_error hinvalid, finish_error]

/-! Processing (rule R233). -/

/-- The shaper and the output that rule R233 allows are the ones computed. -/
theorem ShaperFed.eq {x y : F32} {f f' : Shaper} (h : ShaperFed x f f' y) : processShaper x f = (f', y) := by
  obtain ⟨rfl, rfl⟩ := h
  rfl

/-- `FOS_PROCESS` completes on every shaper; the coefficients it read while Unset go on the record (rule R233; log 2). -/
theorem exec_fosProcess_of_fed {s : State} {x y : F32} {f : Shaper} (h : ShaperFed x s.fos f y) :
    exec (.fosProcess x) s = .next (((s.setFos f).noteUnset .fos (unsetShaper s.fos)).emit .fos [y]) := by
  simp only [exec, execFosProcess, h.eq]

/-- Settles O38: every coefficient read has been written, so none is recorded, and the words read are `lp`, `hp` and, with the
clamp on, `fg`. -/
theorem fosProcessShapesTheSample : Obligations.FosProcessShapesTheSample := by
  intro s x lp hp fg hlp hhp hfg lowpassed shaped tracked
  have hunset : unsetShaper s.fos = [] :=
    unsetShaper_eq_nil.mpr ⟨by rw [hlp, Reg.val_written], fun hclamp => by rw [hfg hclamp, Reg.val_written],
      by rw [hhp, Reg.val_written]⟩
  have hshaped : shaped = if s.fos.clampEn then
      fadd (fmul lowpassed (fsub one s.fos.floorGain.value)) (fmul x s.fos.floorGain.value) else lowpassed := by
    by_cases hclamp : s.fos.clampEn = true
    · simp only [shaped, if_pos hclamp, hfg hclamp, Reg.val_value]
    · simp only [shaped, if_neg hclamp]
  have hfed : ShaperFed x s.fos { s.fos with lpState := lowpassed, hpState := tracked } (fsub shaped tracked) := by
    simp only [ShaperFed, hlp, hhp, Reg.val_value, tracked, hshaped, lowpassed, and_self]
  rw [exec_fosProcess_of_fed hfed, hunset, State.noteUnset_nil]

/-- Settles O39: every Unset coefficient that the shaper reads is recorded, and one of the three is there. -/
theorem fosProcessBeforeConfigureMarksTheRun : Obligations.FosProcessBeforeConfigureMarksTheRun := by
  intro s x hunset
  have hrecord : ∀ n ∈ unsetShaper s.fos, n ∈ (((s.setFos (processShaper x s.fos).1).noteUnset .fos
      (unsetShaper s.fos)).emit .fos [(processShaper x s.fos).2]).fosPort.unsetReads :=
    fun n hn => mem_unsetReads_of_emit_noteUnset _ .fos hn _
  have hlp (h : s.fos.lpCoeff.written = false) := hrecord .fosLpCoeff (mem_unsetOf.mpr ⟨s.fos.lpCoeff, by simp, h⟩)
  have hhp (h : s.fos.hpCoeff.written = false) := hrecord .fosHpCoeff (mem_unsetOf.mpr ⟨s.fos.hpCoeff, by simp, h⟩)
  have hfg (hclamp : s.fos.clampEn = true) (h : s.fos.floorGain.written = false) :=
    hrecord .fosFloorGain (mem_unsetOf.mpr ⟨s.fos.floorGain, by simp [hclamp], h⟩)
  have hfed := processShaper_shaperFed x s.fos
  refine ⟨_, _, _, hfed, exec_fosProcess_of_fed hfed, rfl, rsp_of_emit_noteUnset (s.setFos_port _ .fos) _ _, ?_, hlp, hhp, hfg⟩
  rcases hunset with h | h | ⟨hclamp, h⟩
  · exact List.ne_nil_of_mem (hlp h)
  · exact List.ne_nil_of_mem (hhp h)
  · exact List.ne_nil_of_mem (hfg hclamp h)

end Sys2Proof.Machine
end

section
/-! XTC: what `XTC_RECONFIGURE`, `XTC_SET_BYPASS` and `XTC_GET_LATENCY` answer (rules R252, R253, R261, R262). -/

namespace Sys2Proof.Machine

/-! The two commands that always complete. -/

/-- Settles O50: the flag is bit 0 of `arg`. -/
theorem setBypassWritesTheFlag : Obligations.SetBypassWritesTheFlag := by
  intro s b
  have hheader : opcode .xtcSetBypass ++ (0#23 ++ bit b) = if b then 0x03000001#32 else 0x03000000#32 := by
    cases b <;> decide
  exact ⟨congrArg (· :: []) hheader, rfl⟩

/-- Settles O51. -/
theorem latencyIsAlwaysZero : Obligations.LatencyIsAlwaysZero := ⟨by decide, fun _ => rfl⟩

/-! Reconfigure: its checks. -/

/-- Settles O41: `checkConfig_cases` has the two faults as its last two cases. -/
theorem reconfigureRejects : Obligations.ReconfigureRejects := by
  intro s phantom hsm interp cen rate delayUs decayDb centerDb P i r
  have hexec (f : Fault) (hf : checkConfig P hsm interp rate delayUs decayDb centerDb = .error f) : exec i s = .fault f := by
    simp only [i, exec, execXtcReconfigure, reconfigure, P, hf, error_bind, finish_error]
  rcases checkConfig_cases P hsm interp rate delayUs decayDb centerDb with ⟨hv, hle, -⟩ | ⟨hv, -, hf⟩ | ⟨hv, x, hf⟩
  · exact ⟨fun hn => absurd hv hn, fun _ hlt => absurd hle (Nat.not_le.mpr hlt)⟩
  · exact ⟨fun hn => absurd hv hn, fun _ _ => hexec _ hf⟩
  · exact ⟨fun _ => ⟨x, hexec _ hf⟩, fun h => absurd h hv⟩

/-- On a valid configuration within `DL_MAX` the block is that of the configuration, and nothing else changes. -/
theorem exec_xtcReconfigure_of_valid {hsm : HeadShadow} {interp : Bool} {rate delayUs decayDb centerDb : F32}
    (hvalid : ValidConfig Config.params hsm rate delayUs decayDb centerDb)
    (hle : (delayRequest (delaySamplesOf delayUs rate) interp).len ≤ dlMax Config.params) (phantom cen : Bool) (s : State) :
    exec (.xtcReconfigure phantom hsm interp cen rate delayUs decayDb centerDb) s =
      .next (s.setXtc (applyConfig Config.params phantom hsm interp cen rate delayUs decayDb centerDb
        (delayRequest (delaySamplesOf delayUs rate) interp) s.xtc)) := by
  rw [exec, execXtcReconfigure, reconfigure_ok hvalid hle, finish_ok]

/-! Reconfigure: the paths. -/

/-- The bank of a path after steps 1 and 2 of rule R252: its sections tuned from the table in the cascade model only. -/
theorem setPath_sections (P : Params) (hsm : HeadShadow) (interp : Bool) (rate : F32) (r : DelayRequest) (p : Path) :
    (hsm = .biquadCascade → SectionsTuned P rate p.cfb.sec (setPath P hsm interp rate r p).cfb.sec) ∧
    (hsm ≠ .biquadCascade → (setPath P hsm interp rate r p).cfb.sec = p.cfb.sec) := by
  rw [setPath_sec]
  refine ⟨fun h => ?_, fun h => if_neg h⟩
  rw [if_pos h]
  exact tuneSections_sectionsTuned P rate p.cfb.sec

/-- The shaper of a path after steps 1 and 2 of rule R252: tuned in the shaper model only. -/
theorem setPath_shaper (P : Params) (hsm : HeadShadow) (interp : Bool) (rate : F32) (r : DelayRequest) (p : Path) :
    (hsm = .firstOrderShaper → (setPath P hsm interp rate r p).fos = tuneShaper P P.fosClamp rate p.fos) ∧
    (hsm ≠ .firstOrderShaper → (setPath P hsm interp rate r p).fos = p.fos) := by
  rw [setPath_fos]
  exact ⟨fun h => if_pos h, fun h => if_neg h⟩

/-- The line of a path after step 1 of rule R252, slot by slot (rule R185). -/
theorem setPath_lineSet (P : Params) (hsm : HeadShadow) (interp : Bool) (rate d : F32) (p : Path) :
    LineSet (delayRequest d interp).len interp d (delayRequest d interp).frac p.cfb.dl
      (setPath P hsm interp rate (delayRequest d interp) p).cfb.dl := by
  have hline := dlSet_lineSet (delayRequest d interp) interp p.cfb.dl
  rwa [delayRequest_d, ← setPath_dl P hsm interp rate] at hline

/-- Settles O40: each path is `setPath` of what it was. -/
theorem reconfigureAppliesTheConfiguration : Obligations.ReconfigureAppliesTheConfiguration := by
  intro s phantom hsm interp cen rate delayUs decayDb centerDb P d r gain tuned hvalid hle
  have htuned (p : Path) : tuned p (setPath P hsm interp rate r p) :=
    ⟨setPath_lineSet P hsm interp rate d p, (setPath_sections P hsm interp rate r p).1,
      (setPath_sections P hsm interp rate r p).2, (setPath_shaper P hsm interp rate r p).1,
      (setPath_shaper P hsm interp rate r p).2⟩
  exact ⟨_, _, htuned s.xtc.pathA, htuned s.xtc.pathB, exec_xtcReconfigure_of_valid hvalid hle phantom cen s⟩

/-! Reconfigure: a second time (rule R263). -/

/-- The second `dl_set` finds the capacity it asks for, and keeps contents and cursor (rule R185). -/
theorem dlSet_dlSet (r : DelayRequest) (interp : Bool) (dl : DelayLine) :
    dlSet r interp (dlSet r interp dl) = dlSet r interp dl := by
  cases interp <;> simp [dlSet]

theorem tune_tune (P : Params) (kind : Kind) (freq rate q gainDb : F32) (b : Biquad) :
    tune P kind freq rate q gainDb (tune P kind freq rate q gainDb b) = tune P kind freq rate q gainDb b := rfl

theorem tuneSections_tuneSections (P : Params) (rate : F32) : ∀ (es : List Entry) (bs : List Biquad),
    tuneSections P rate es (tuneSections P rate es bs) = tuneSections P rate es bs
  | [], _ => rfl
  | _ :: _, [] => rfl
  | _ :: es, _ :: bs => by simp only [tuneSections, tune_tune, tuneSections_tuneSections P rate es bs]

theorem setPath_setPath (P : Params) (hsm : HeadShadow) (interp : Bool) (rate : F32) (r : DelayRequest) (p : Path) :
    setPath P hsm interp rate r (setPath P hsm interp rate r p) = setPath P hsm interp rate r p := by
  cases hsm with
  | none | firstOrderShaper => simp only [setPath, dlSet_dlSet, tuneShaper]
  | biquadCascade => simp only [setPath, dlSet_dlSet, tuneSections_tuneSections]

theorem applyConfig_applyConfig (P : Params) (phantom : Bool) (hsm : HeadShadow) (interp cen : Bool)
    (rate delayUs decayDb centerDb : F32) (r : DelayRequest) (x : Canceller) :
    applyConfig P phantom hsm interp cen rate delayUs decayDb centerDb r
        (applyConfig P phantom hsm interp cen rate delayUs decayDb centerDb r x) =
      applyConfig P phantom hsm interp cen rate delayUs decayDb centerDb r x := by
  simp only [applyConfig, setPath_setPath]

theorem State.setXtc_setXtc (s : State) (x y : Canceller) : (s.setXtc x).setXtc y = s.setXtc y := rfl

/-- Settles O42: the checks look at the operands alone, and every register but those of the paths is given by them. -/
theorem reconfigureIsIdempotent : Obligations.ReconfigureIsIdempotent := by
  intro s t phantom hsm interp cen rate delayUs decayDb centerDb i h
  obtain ⟨x, hx, rfl⟩ := finish_next h
  obtain ⟨hvalid, hle, rfl⟩ := reconfigure_spec hx
  rw [exec_xtcReconfigure_of_valid hvalid hle, State.setXtc_xtc, applyConfig_applyConfig, State.setXtc_setXtc]

end Sys2Proof.Machine
end

section
/-! XTC: `XTC_PROCESS` by the state it meets, and a block cut in two (rules R251, R255, R256, R260). -/

namespace Sys2Proof.Machine

/-! The three cases of rule R255. -/

section
variable {P : Params} {tap : FbTap} {x : Canceller}

theorem processBlock_of_bypass (hb : x.bypass = true) (pairs : List (F32 × F32)) :
    processBlock P tap pairs x = .ok (x, interleave pairs) := by
  rw [processBlock, if_pos hb]

theorem processBlock_of_unconfigured (hb : x.bypass = false) (hphase : x.phase = .unconfigured) (pairs : List (F32 × F32)) :
    processBlock P tap pairs x = .error (.unconfigured .xtcProcess) := by
  rw [processBlock, if_neg (Bool.eq_false_iff.mp hb), if_pos hphase]

theorem processBlock_of_running (hb : x.bypass = false) (hphase : x.phase ≠ .unconfigured) (pairs : List (F32 × F32)) :
    processBlock P tap pairs x =
      (processPairs P tap { x with phase := .processing } pairs >>= fun t => pure ({ t.1 with phase := .ready }, t.2)) := by
  rw [processBlock, if_neg (Bool.eq_false_iff.mp hb), if_neg hphase]

end

/-- The state after `XTC_PROCESS`: the block, the Unset registers it has read, and the words it has answered. -/
def State.answerBlock (s : State) (x : Canceller) (names : List RegName) (ws : List Word) : State :=
  ((s.setXtc x).noteUnset .xtc names).emit .xtc ws

theorem exec_xtcProcess (pairs : List (F32 × F32)) (s : State) :
    exec (.xtcProcess pairs) s = finish (processBlock Config.params Config.fbTap pairs s.xtc) fun t =>
      s.answerBlock t.1 (unsetBlock Config.params pairs s.xtc) t.2 := rfl

@[simp] theorem State.answerBlock_xtc (s : State) (x : Canceller) (names : List RegName) (ws : List Word) :
    (s.answerBlock x names ws).xtc = x := rfl

theorem State.answerBlock_of_nil (s : State) (x : Canceller) (ws : List Word) :
    s.answerBlock x [] ws = (s.setXtc x).emit .xtc ws := by
  rw [State.answerBlock, State.noteUnset_nil]

theorem State.answerBlock_rsp (s : State) (x : Canceller) (names : List RegName) (ws : List Word) :
    (s.answerBlock x names ws).xtcPort.rsp = s.xtcPort.rsp ++ ws :=
  rsp_of_emit_noteUnset (s.setXtc_port x .xtc) names ws

theorem State.emit_nil (s : State) (p : PortId) : s.emit p [] = s := by
  rw [State.emit, List.append_nil]
  exact s.setPort_same p

/-- Settles O44. -/
theorem bypassIsAPureCopy : Obligations.BypassIsAPureCopy := by
  intro s pairs hb
  have hunset : unsetBlock Config.params pairs s.xtc = [] := by rw [unsetBlock, hb, Bool.true_or, if_pos rfl]
  rw [exec_xtcProcess, processBlock_of_bypass hb, finish_ok, hunset, State.answerBlock_of_nil]
  rfl

/-- Settles O45. -/
theorem processBeforeReconfigureFaults : Obligations.ProcessBeforeReconfigureFaults := by
  intro s pairs hb hphase
  rw [exec_xtcProcess, processBlock_of_unconfigured hb hphase, finish_error]

/-- A running block goes through its samples, and is Ready after them. -/
theorem exec_xtcProcess_of_samples {s : State} {pairs : List (F32 × F32)} {x : Canceller} {ws : List Word}
    (hb : s.xtc.bypass = false) (hphase : s.xtc.phase ≠ .unconfigured)
    (h : processPairs Config.params Config.fbTap { s.xtc with phase := .processing } pairs = .ok (x, ws)) :
    exec (.xtcProcess pairs) s =
      .next (s.answerBlock { x with phase := .ready } (unsetBlock Config.params pairs s.xtc) ws) := by
  rw [exec_xtcProcess, processBlock_of_running hb hphase, h]
  rfl

/-- With both lines configured `XTC_PROCESS` completes in Ready, with either bypass (rule R256). -/
theorem exec_xtcProcess_completes {s : State} (hphase : s.xtc.phase ≠ .unconfigured) (hA : s.xtc.pathA.cfb.dl.cap ≠ 0)
    (hB : s.xtc.pathB.cfb.dl.cap ≠ 0) (pairs : List (F32 × F32)) : ∃ t, exec (.xtcProcess pairs) s = .next t := by
  cases hb : s.xtc.bypass with
  | true => exact ⟨_, bypassIsAPureCopy s pairs hb⟩
  | false =>
    obtain ⟨x, ws, h⟩ := processPairs_ok Config.fbTap pairs { s.xtc with phase := .processing } hA hB
    exact ⟨_, exec_xtcProcess_of_samples hb hphase h⟩

/-- In Ready both lines are configured. -/
theorem ReadyOk.cap_ne {P : Params} {x : Canceller} (h : ReadyOk P x) :
    x.pathA.cfb.dl.cap ≠ 0 ∧ x.pathB.cfb.dl.cap ≠ 0 :=
  ⟨Nat.ne_of_gt h.capA, h.capB ▸ Nat.ne_of_gt h.capA⟩

/-- Settles O46: what completes keeps the invariant, which has no Unset read on this port, and ends in Ready. -/
theorem processNeverFaultsInReady : Obligations.ProcessNeverFaultsInReady := by
  intro s pairs hok hphase
  obtain ⟨hA, hB⟩ := (hok.xtc.ready hphase).cap_ne
  obtain ⟨t, h⟩ := exec_xtcProcess_completes (by simp [hphase]) hA hB pairs
  have hc := completed_of_exec h
  refine ⟨t, h, ?_, (hok.completed hc).unset .xtc (by decide) (by decide)⟩
  rcases hc.phase_processed with ⟨-, hkept⟩ | ⟨-, -, hready⟩
  · exact hkept.trans hphase
  · exact hready

/-! A block in two pieces (rule R255). -/

theorem processPairs_phase {P : Params} {tap : FbTap} {ps : List (F32 × F32)} {x x' : Canceller} {ws : List Word}
    (h : processPairs P tap x ps = .ok (x', ws)) : x'.phase = x.phase :=
  processPairs_rel (fun x x' => x'.phase = x.phase) (fun _ => rfl)
    (fun hs hrest => hrest.trans (by rw [hs.rest])) h

/-- A block goes on where the piece before it ended, in every state: in bypass nothing has changed, in Unconfigured the first
piece faults, and in Ready the state machine is back in Ready between the pieces. -/
theorem processBlock_append (P : Params) (tap : FbTap) (ps qs : List (F32 × F32)) (x : Canceller) :
    processBlock P tap (ps ++ qs) x =
      (processBlock P tap ps x >>= fun t => processBlock P tap qs t.1 >>= fun u => pure (u.1, t.2 ++ u.2)) := by
  cases hb : x.bypass with
  | true =>
    simp only [processBlock_of_bypass hb, ok_bind, interleave, List.flatMap_append]
    rfl
  | false =>
    by_cases hphase : x.phase = .unconfigured
    · simp only [processBlock_of_unconfigured hb hphase, error_bind]
    · rw [processBlock_of_running hb hphase, processBlock_of_running hb hphase, processPairs_append]
      cases h1 : processPairs P tap { x with phase := .processing } ps with
      | error f => rfl
      | ok t =>
        have hprocessing : t.1.phase = .processing := processPairs_phase h1
        have hresume : { t.1 with phase := .processing } = t.1 := by rw [← hprocessing]
        have hblock : processBlock P tap ps x = .ok ({ t.1 with phase := .ready }, t.2) := by
          rw [processBlock_of_running hb hphase, h1]
          rfl
        have hsecond := processBlock_of_running (P := P) (tap := tap) (x := { t.1 with phase := .ready })
          ((processBlock_bypass hblock).trans hb) (by simp) qs
        simp only [ok_bind, pure, Except.pure, hsecond, hresume]
        cases processPairs P tap t.1 qs <;> rfl

theorem processBlock_unsetSample {P : Params} {tap : FbTap} {ps : List (F32 × F32)} {x x' : Canceller} {ws : List Word}
    (h : processBlock P tap ps x = .ok (x', ws)) : unsetSample P x' = unsetSample P x :=
  processBlock_rel (fun x x' => unsetSample P x' = unsetSample P x) (fun _ => rfl)
    (fun hs hrest => hrest.trans hs.unsetSample) (fun _ _ h => h) h

/-- The two pieces put on record what the whole block does: each the registers of a sample, or none where it has no sample. -/
theorem noteUnset_pieces {P : Params} {tap : FbTap} {ps : List (F32 × F32)} {x x' : Canceller} {ws : List Word}
    (h : processBlock P tap ps x = .ok (x', ws)) (qs : List (F32 × F32)) (s : State) (p : PortId) :
    (s.noteUnset p (unsetBlock P ps x)).noteUnset p (unsetBlock P qs x') = s.noteUnset p (unsetBlock P (ps ++ qs) x) := by
  simp only [unsetBlock, processBlock_bypass h, processBlock_unsetSample h]
  cases x.bypass with
  | true => simp
  | false => cases ps <;> cases qs <;> simp

/-- Two answers one after the other are one. -/
theorem State.answerBlock_answerBlock (s : State) (x y : Canceller) (names more : List RegName) (ws vs : List Word) :
    (s.answerBlock x names ws).answerBlock y more vs =
      (((s.setXtc y).noteUnset .xtc names).noteUnset .xtc more).emit .xtc (ws ++ vs) := by
  simp only [State.answerBlock, State.emit, State.noteUnset, State.setPort, State.port, State.setXtc, List.append_assoc]

theorem exec_xtcProcess_append (ps qs : List (F32 × F32)) (s : State) :
    exec (.xtcProcess (ps ++ qs)) s = runCommands [.xtcProcess ps, .xtcProcess qs] s := by
  rw [exec_xtcProcess, processBlock_append]
  cases h1 : processBlock Config.params Config.fbTap ps s.xtc with
  | error f => simp only [runCommands, exec_xtcProcess, h1, error_bind, finish_error]
  | ok t =>
    simp only [runCommands, exec_xtcProcess, h1, ok_bind, finish_ok, State.answerBlock_xtc]
    cases processBlock Config.params Config.fbTap qs t.1 with
    | error f => rfl
    | ok u =>
      simp only [ok_bind, pure, Except.pure, finish_ok, State.answerBlock_answerBlock, noteUnset_pieces h1]
      rfl

/-- Settles O49: the empty block reads nothing and answers nothing. -/
theorem blocksMayBeCutAnywhere : Obligations.BlocksMayBeCutAnywhere := by
  intro s ps qs
  refine ⟨fun hb hphase => ?_, exec_xtcProcess_append ps qs s⟩
  have hunset : unsetBlock Config.params [] s.xtc = [] := by rw [unsetBlock, List.isEmpty_nil, Bool.or_true, if_pos rfl]
  rw [exec_xtcProcess_of_samples hb hphase rfl, hunset, State.answerBlock_of_nil, State.emit_nil]

end Sys2Proof.Machine
end

section
/-! XTC: one sample pair, in general and in phantom mode (rules R254, R256 to R259). -/

namespace Sys2Proof.Machine

/-! Paths (rule R254). -/

/-- A path after `path_put`, in each head-shadow model. -/
def feedPath (P : Params) (hsm : HeadShadow) (v : F32) (p : Path) : Path :=
  match hsm with
  | .none => { p with cfb := { p.cfb with dl := pushSample v p.cfb.dl } }
  | .firstOrderShaper =>
    { fos := (processShaper v p.fos).1, cfb := { p.cfb with dl := pushSample (processShaper v p.fos).2 p.cfb.dl } }
  | .biquadCascade => { p with cfb := feedBank P v p.cfb }

section
variable {P : Params} {hsm : HeadShadow} {p : Path}

theorem pathPut_of_configured (h : p.cfb.dl.cap ≠ 0) (v : F32) : pathPut P hsm v p = .ok (feedPath P hsm v p) := by
  cases hsm with
  | none | firstOrderShaper => simp only [pathPut, putSample_ok h, ok_bind]; rfl
  | biquadCascade => simp only [pathPut, putBank_ok v h, ok_bind]; rfl

theorem pathFed_feedPath (h : p.cfb.dl.data.wf = true) (v : F32) : PathFed P hsm v p (feedPath P hsm v p) := by
  cases hsm with
  | none => exact ⟨_, pushSample_linePushed v h, rfl⟩
  | firstOrderShaper => exact ⟨_, _, _, processShaper_shaperFed v p.fos, pushSample_linePushed _ h, rfl⟩
  | biquadCascade => exact ⟨_, _, _, cascade_cascadeFed _ v p.cfb.sec, pushSample_linePushed _ h, rfl⟩

/-- A path whose selected model is tuned reads no Unset register. -/
theorem unsetPath_of_tuned (h : ModelTuned P hsm p) : unsetPath P hsm p = [] := by
  cases hsm with
  | none => rfl
  | firstOrderShaper => exact ShaperTuned.unsetShaper h
  | biquadCascade => exact unsetSections_eq_nil.mpr h.2

end

/-! Samples. -/

/-- A sample minus the decayed cross sample of a line (rules R256, R259). -/
def cancelled (g : F32) (dl : DelayLine) (v : F32) : F32 := fsub v (fmul g (readSample dl))

section
variable {P : Params} {x : Canceller}

theorem finalPair_of_cen_false (h : x.cen = false) (l r leftOut rightOut : F32) :
    finalPair x l r leftOut rightOut = (leftOut, rightOut) := by
  rw [finalPair, if_neg (Bool.eq_false_iff.mp h)]

/-- In general mode with both lines configured: each channel is cancelled by the opposite path and fed to its own (rule R256;
`FB_TAP` is PRE, log 12). -/
theorem samplePair_general (hphantom : x.phantom = false) (hA : x.pathA.cfb.dl.cap ≠ 0) (hB : x.pathB.cfb.dl.cap ≠ 0)
    (l r : F32) :
    let leftOut := cancelled x.decayGain.value x.pathB.cfb.dl l
    let rightOut := cancelled x.decayGain.value x.pathA.cfb.dl r
    samplePair P Config.fbTap x l r =
      .ok ({ x with pathA := feedPath P x.hsm leftOut x.pathA, pathB := feedPath P x.hsm rightOut x.pathB },
        finalPair x l r leftOut rightOut) := by
  simp only [samplePair, hphantom, Bool.false_eq_true, if_false, sampleGeneral, pathGet_ok hA, pathGet_ok hB, ok_bind,
    Config.fbTap, pathPut_of_configured hA, pathPut_of_configured hB]
  rfl

/-- In phantom mode with path A's line configured: the mid signal is cancelled by path A and fed to it (rule R259). -/
theorem samplePair_phantom (hphantom : x.phantom = true) (hA : x.pathA.cfb.dl.cap ≠ 0) (tap : FbTap) (l r : F32) :
    let mid := cancelled x.decayGain.value x.pathA.cfb.dl (fadd l r)
    samplePair P tap x l r =
      .ok ({ x with pathA := feedPath P x.hsm mid x.pathA },
        fmul (fadd mid (fsub l r)) half, fmul (fsub mid (fsub l r)) half) := by
  simp only [samplePair, hphantom, if_true, samplePhantom, pathGet_ok hA, ok_bind, pathPut_of_configured hA]
  rfl

/-- A sample whose gains are written and whose paths are tuned reads no Unset register; path B and the gains of the
reinforcement count in general mode only. -/
theorem unsetSample_of_tuned (hdecay : x.decayGain.written = true)
    (hcen : x.phantom = false → x.cen = true → x.centerGain.written = true ∧ x.gainComp.written = true)
    (hA : ModelTuned P x.hsm x.pathA) (hB : x.phantom = false → ModelTuned P x.hsm x.pathB) : unsetSample P x = [] := by
  have hpathB : (if x.phantom then [] else unsetPath P x.hsm x.pathB) = [] := by
    cases hphantom : x.phantom with
    | true => rfl
    | false => exact unsetPath_of_tuned (hB hphantom)
  have hgains : unsetOf ([(.xtcDecayGain, x.decayGain)] ++
      (if x.cen && !x.phantom then [(.xtcCenterGain, x.centerGain), (.xtcGainComp, x.gainComp)] else [])) = [] := by
    rw [unsetOf_eq_nil]
    split
    next h =>
      obtain ⟨hc, hp⟩ : x.cen = true ∧ x.phantom = false := by simpa using h
      obtain ⟨hcg, hgc⟩ := hcen hp hc
      simp [hdecay, hcg, hgc]
    next => simp [hdecay]
  rw [unsetSample, hgains, unsetPath_of_tuned hA, hpathB]
  rfl

end

/-! `XTC_PROCESS` of one pair. -/

theorem processPairs_cons {P : Params} {tap : FbTap} {x x' x'' : Canceller} {l r : F32} {y : F32 × F32}
    {rest : List (F32 × F32)} {ws : List Word} (hsample : samplePair P tap x l r = .ok (x', y))
    (hrest : processPairs P tap x' rest = .ok (x'', ws)) :
    processPairs P tap x ((l, r) :: rest) = .ok (x'', y.1 :: y.2 :: ws) := by
  simp only [processPairs, hsample, hrest, ok_bind]
  rfl

/-- A running block that reads no Unset register is, after one pair, what the sample has made of it, in Ready. -/
theorem exec_xtcProcess_pair {s : State} {l r : F32} {x : Canceller} {y : F32 × F32} (hb : s.xtc.bypass = false)
    (hphase : s.xtc.phase ≠ .unconfigured) (hunset : unsetSample Config.params s.xtc = [])
    (h : samplePair Config.params Config.fbTap { s.xtc with phase := .processing } l r = .ok (x, y)) :
    exec (.xtcProcess [(l, r)]) s = .next ((s.setXtc { x with phase := .ready }).emit .xtc [y.1, y.2]) := by
  have hblock : unsetBlock Config.params [(l, r)] s.xtc = [] := by rw [unsetBlock, hunset, ite_self]
  rw [exec_xtcProcess_of_samples hb hphase (processPairs_cons h rfl), hblock, State.answerBlock_of_nil]

/-- Settles O47: the gains read are the words `g` and, with the reinforcement on, `cg` and `gc`. -/
theorem generalSampleCancelsTheOppositeChannel : Obligations.GeneralSampleCancelsTheOppositeChannel := by
  intro s l r g cg gc hb hphase hphantom hmodelA hmodelB hcapA hcapB hwfA hwfB hg hcen crossToLeft crossToRight
    leftOut rightOut cc out
  have hunset : unsetSample Config.params s.xtc = [] :=
    unsetSample_of_tuned (by rw [hg, Reg.val_written])
      (fun _ hc => by rw [(hcen hc).1, (hcen hc).2]; exact ⟨rfl, rfl⟩) hmodelA fun _ => hmodelB
  have hleft : cancelled s.xtc.decayGain.value s.xtc.pathB.cfb.dl l = leftOut := by rw [hg]; rfl
  have hright : cancelled s.xtc.decayGain.value s.xtc.pathA.cfb.dl r = rightOut := by rw [hg]; rfl
  have hout : out = [(finalPair s.xtc l r leftOut rightOut).1, (finalPair s.xtc l r leftOut rightOut).2] := by
    by_cases hc : s.xtc.cen = true
    · obtain ⟨hcg, hgc⟩ := hcen hc
      simp only [out, finalPair, if_pos hc, hcg, hgc, Reg.val_value]
      rfl
    · simp only [out, finalPair, if_neg hc]
  refine ⟨_, _, pathFed_feedPath hwfA leftOut, pathFed_feedPath hwfB rightOut, ?_⟩
  rw [hout, ← hleft, ← hright]
  exact exec_xtcProcess_pair hb hphase hunset
    (samplePair_general (x := { s.xtc with phase := .processing }) hphantom hcapA hcapB l r)

/-- Settles O48. -/
theorem phantomSampleCancelsTheMidSignal : Obligations.PhantomSampleCancelsTheMidSignal := by
  intro s l r g hb hphase hphantom hmodelA hcapA hwfA hg side mid2
  have hgeneral {p : Prop} (h : s.xtc.phantom = false) : p := absurd (hphantom.symm.trans h) (by decide)
  have hunset : unsetSample Config.params s.xtc = [] :=
    unsetSample_of_tuned (by rw [hg, Reg.val_written]) hgeneral hmodelA hgeneral
  have hmid : cancelled s.xtc.decayGain.value s.xtc.pathA.cfb.dl (fadd l r) = mid2 := by rw [hg]; rfl
  refine ⟨_, pathFed_feedPath hwfA mid2, ?_⟩
  rw [← hmid]
  exact exec_xtcProcess_pair hb hphase hunset
    (samplePair_phantom (x := { s.xtc with phase := .processing }) hphantom hcapA _ l r)

/-- Settles O53: the sample of the general mode, where `g * (+0) = +0` and `l - (+0) = l` (rule R256 corner case (a)). -/
theorem silentLinesPassTheSampleExactly : Obligations.SilentLinesPassTheSampleExactly := by
  intro s l r g hok hb hphase hphantom hcen hg hfinite hsign hA hB hl hr
  have hready := hok.xtc.ready hphase
  obtain ⟨hcapA, hcapB⟩ := hready.cap_ne
  have hno : ¬s.xtc.cen = true := Bool.eq_false_iff.mp hcen
  obtain ⟨pathA, pathB, -, -, h⟩ := generalSampleCancelsTheOppositeChannel s l r g posZero posZero hb (by simp [hphase])
    hphantom hready.modelA hready.modelB hcapA hcapB hok.xtc.bankA.line.wf hok.xtc.bankB.line.wf hg (fun hc => absurd hc hno)
  rw [hA, hB, fmul_posZero hfinite hsign, fsub_posZero hl, fsub_posZero hr, if_neg hno] at h
  exact ⟨_, h, rfl⟩

end Sys2Proof.Machine
end

section
/-! XTC: the cancellation scenario. The two paths as queues that feed each other across (rule R266). -/

namespace Sys2Proof.Machine

/-- General mode without reinforcement and without a head-shadow model, decay gain `g`, path A's line holding `qa` and path
B's `qb`, both whole-sample. -/
structure CrossQueues (g : F32) (qa qb : List F32) (x : Canceller) : Prop where
  phantom : x.phantom = false
  cen : x.cen = false
  hsm : x.hsm = .none
  gain : x.decayGain.value = g
  interpA : x.pathA.cfb.dl.interp = false
  interpB : x.pathB.cfb.dl.interp = false
  holdsA : Holds qa x.pathA.cfb.dl
  holdsB : Holds qb x.pathB.cfb.dl

section
variable {P : Params} {g : F32} {qa qb : List F32} {x : Canceller}

/-- A sample is cancelled by the oldest of the opposite queue and answered as it is then put into its own (rule R256). -/
theorem CrossQueues.sample {a b : F32} (h : CrossQueues g (a :: qa) (b :: qb) x) (l r : F32) :
    ∃ x', samplePair P Config.fbTap x l r = .ok (x', fsub l (fmul g b), fsub r (fmul g a)) ∧
      CrossQueues g (qa ++ [fsub l (fmul g b)]) (qb ++ [fsub r (fmul g a)]) x' := by
  have hleft : cancelled x.decayGain.value x.pathB.cfb.dl l = fsub l (fmul g b) := by
    rw [cancelled, h.gain, h.holdsB.read_whole h.interpB]
  have hright : cancelled x.decayGain.value x.pathA.cfb.dl r = fsub r (fmul g a) := by
    rw [cancelled, h.gain, h.holdsA.read_whole h.interpA]
  have hsample := samplePair_general (P := P) h.phantom h.holdsA.cap_ne h.holdsB.cap_ne l r
  simp only [hleft, hright, finalPair_of_cen_false h.cen] at hsample
  rw [h.hsm] at hsample
  exact ⟨_, hsample, h.phantom, h.cen, rfl, h.gain, h.interpA, h.interpB, h.holdsA.push, h.holdsB.push⟩

/-- While silence comes out of both queues, silence on both channels is answered by silence, and goes into both. -/
theorem CrossQueues.silence (hg : fmul g posZero = posZero) {n : Nat}
    (h : CrossQueues g (List.replicate n posZero ++ qa) (List.replicate n posZero ++ qb) x) :
    ∃ x', processPairs P Config.fbTap x (List.replicate n (posZero, posZero)) =
        .ok (x', interleave (List.replicate n (posZero, posZero))) ∧
      CrossQueues g (qa ++ List.replicate n posZero) (qb ++ List.replicate n posZero) x' := by
  have hquiet : fsub posZero (fmul g posZero) = posZero := by rw [hg, fsub_posZero isNaN_posZero]
  induction n generalizing qa qb x with
  | zero => exact ⟨x, rfl, by simpa using h⟩
  | succ n ih =>
    obtain ⟨x1, hsample, h1⟩ := CrossQueues.sample (P := P) h posZero posZero
    rw [hquiet] at hsample h1
    simp only [List.append_eq, List.append_assoc] at h1
    obtain ⟨x2, hrest, h2⟩ := ih h1
    refine ⟨x2, processPairs_cons hsample hrest, ?_⟩
    simpa only [List.append_assoc, List.singleton_append, ← List.replicate_succ] using h2

/-- The impulse goes into path A behind the silence, comes out `D` samples later and is taken off the right channel. -/
theorem CrossQueues.impulse (hg : fmul g posZero = posZero) {D : Nat}
    (h : CrossQueues g (List.replicate (D + 1) posZero) (List.replicate (D + 1) posZero) x) :
    ∃ x', processPairs P Config.fbTap x ((one, posZero) :: List.replicate (D + 1) (posZero, posZero)) =
      .ok (x', interleave
        ((one, posZero) :: List.replicate D (posZero, posZero) ++ [(posZero, fsub posZero (fmul g one))])) := by
  have hleft : fsub one (fmul g posZero) = one := by rw [hg, fsub_posZero (by decide)]
  have hquiet : fsub posZero (fmul g posZero) = posZero := by rw [hg, fsub_posZero isNaN_posZero]
  obtain ⟨x1, hfirst, h1⟩ := CrossQueues.sample (P := P) h one posZero
  rw [hleft, hquiet] at hfirst h1
  obtain ⟨x2, hsilence, h2⟩ := CrossQueues.silence (P := P) hg h1
  obtain ⟨x3, hlast, -⟩ := CrossQueues.sample (P := P) h2 posZero posZero
  rw [hquiet] at hlast
  have htail : processPairs P Config.fbTap x1 (List.replicate D (posZero, posZero) ++ [(posZero, posZero)]) =
      .ok (x3, interleave (List.replicate D (posZero, posZero)) ++ [posZero, fsub posZero (fmul g one)]) := by
    rw [processPairs_append, hsilence, ok_bind, processPairs_cons hlast rfl, ok_bind]
    rfl
  rw [List.replicate_succ']
  refine ⟨x3, (processPairs_cons hfirst htail).trans ?_⟩
  simp [interleave]

end

/-- Settles O54: both lines hold `D` samples of silence, and `g * 1.0 = g`. -/
theorem impulseAppearsNegatedOnTheRightAfterTheDelay : Obligations.ImpulseAppearsNegatedOnTheRightAfterTheDelay := by
  intro s D g hD hb hphase hphantom hcen hhsm hg hfinite hpos hfreshA hfreshB hinterpA hinterpB
  obtain ⟨D, rfl⟩ : ∃ D', D = D' + 1 := ⟨D - 1, by omega⟩
  have hsign : signBit g = false := by
    by_contra hneg
    rw [scaled, if_pos (by simpa using hneg)] at hpos
    omega
  have hnonzero : isZero g = false := Bool.eq_false_iff.mpr fun h0 => hpos.ne' (isZero_iff_scaled.mp h0)
  have hstart : CrossQueues g (List.replicate (D + 1) posZero) (List.replicate (D + 1) posZero)
      { s.xtc with phase := .processing } :=
    ⟨hphantom, hcen, hhsm, by rw [hg, Reg.val_value], hinterpA, hinterpB, hfreshA.holds hD, hfreshB.holds hD⟩
  obtain ⟨x, h⟩ := hstart.impulse (P := Config.params) (fmul_posZero hfinite hsign)
  rw [fmul_one hfinite, posZero_fsub hfinite hnonzero] at h
  exact ⟨_, exec_xtcProcess_of_samples hb (by simp [hphase]) h, State.answerBlock_rsp ..⟩

end Sys2Proof.Machine
end

section
/-! The DL unit: the requests that its configure operations refuse (rules R181, R182, R301). -/

namespace Sys2Proof.Machine

section
variable {P : Params} {len : BitVec 24} {d : F32}

theorem configureWhole_zeroLength (h : len.toNat = 0) (dl : DelayLine) :
    configureWhole P len dl = .error (.zeroLength 0) := by
  simp only [configureWhole, decide_eq_false (not_not_intro h), require_false, error_bind]

theorem configureWhole_capacity (h : dlMax P < len.toNat) (dl : DelayLine) :
    configureWhole P len dl = .error (.capacity len.toNat) := by
  have hpos : len.toNat ≠ 0 := Nat.ne_zero_of_lt h
  simp only [configureWhole, decide_eq_true hpos, require_true, ok_bind, checkCapacity_error h, error_bind]

theorem configureFrac_notFinite (h : isFinite d = false) (dl : DelayLine) :
    configureFrac P d dl = .error (.config .dlConfigureFrac .delaySamples) := by
  simp only [configureFrac, requireFinite, h, Bool.false_eq_true, if_false, error_bind]

theorem requireFinite_delaySamples (h : isFinite d = true) :
    requireFinite .dlConfigureFrac [(.delaySamples, d)] = .ok ⟨⟩ :=
  requireFinite_ok (List.forall_mem_singleton.mpr h)

theorem configureFrac_zeroLength (hd : isFinite d = true) (h : ceilF d ≤ 0) (dl : DelayLine) :
    configureFrac P d dl = .error (.zeroLength (ceilF d)) := by
  simp only [configureFrac, requireFinite_delaySamples hd, decide_eq_false h.not_gt, require_false, ok_bind,
    error_bind]

theorem configureFrac_capacity (hd : isFinite d = true) (h : (dlMax P : Int) < ceilF d) (dl : DelayLine) :
    configureFrac P d dl = .error (.capacity (ceilF d).toNat) := by
  have hpos : 0 < ceilF d := (Int.natCast_nonneg _).trans_lt h
  have htoo : dlMax P < (ceilF d).toNat := Int.lt_toNat.mpr h
  simp only [configureFrac, requireFinite_delaySamples hd, decide_eq_true hpos, require_true, ok_bind,
    checkCapacity_error htoo, error_bind]

end

section
variable {s : State} {f : Fault}

theorem exec_dlConfigure_of_error {len : BitVec 24} (h : configureWhole Config.params len s.dl = .error f) :
    exec (.dlConfigure len) s = .fault f := by
  simp only [exec, execDlConfigure, h, finish_error]

theorem exec_dlConfigureFrac_of_error {d : F32} (h : configureFrac Config.params d s.dl = .error f) :
    exec (.dlConfigureFrac d) s = .fault f := by
  simp only [exec, execDlConfigureFrac, h, finish_error]

end

/-- Settles O24: the bounds of the statement say that `n` is the ceiling that the command checks, once the request is finite. -/
theorem dlConfigureFracRejects : Obligations.DlConfigureFracRejects := by
  intro s d
  refine ⟨fun hd => exec_dlConfigureFrac_of_error (configureFrac_notFinite hd s.dl), fun n hd hlow hhigh => ?_⟩
  obtain rfl : ceilF d = n := ceilF_eq hlow hhigh
  exact ⟨fun h => exec_dlConfigureFrac_of_error (configureFrac_zeroLength hd h s.dl),
    fun h => exec_dlConfigureFrac_of_error (configureFrac_capacity hd h s.dl)⟩

/-- Settles O22: the length is compared with 0 before it is compared with `DL_MAX`. -/
theorem dlConfigureRejectsZeroAndTooLong : Obligations.DlConfigureRejectsZeroAndTooLong := by
  intro s len hlen
  apply exec_dlConfigure_of_error
  split
  case isTrue hzero => exact configureWhole_zeroLength hzero s.dl
  case isFalse hne => exact configureWhole_capacity (hlen.resolve_left hne) s.dl

end Sys2Proof.Machine
end

section
/-! Reset of an instance: its unit back at the values of rule R50, its port cleared, every other instance as before (rule R330;
log 4). -/

namespace Sys2Proof.Machine

/-! The unit. -/

theorem sameUnit_reset_resetUnit (s : State) (p : PortId) : SameUnit p State.reset (s.resetUnit p) := by
  cases p <;> rfl

theorem onlyInstance_resetUnit (s : State) (p : PortId) : OnlyInstance p s (s.resetUnit p) := by
  cases p with
  | xtc => exact onlyInstance_setXtc s _
  | bq => exact onlyInstance_setBq s _
  | dl => exact onlyInstance_setDl s _
  | cfb => exact onlyInstance_setCfb s _
  | fos => exact onlyInstance_setFos s _

/-! The instance: its unit and its port. -/

theorem abandonPartial_of_incomplete {p : PortId} {ws : List Word} (h : decode p ws = .incomplete) :
    abandonPartial p ws = [] := by
  rw [abandonPartial, h]

@[simp] theorem State.resetInstance_port (s : State) (p : PortId) :
    (s.resetInstance p).port p = { s.port p with cmd := abandonPartial p (s.port p).cmd, ill := false } :=
  State.setPort_port _ p _

@[simp] theorem State.resetInstance_inputs (s : State) (p : PortId) : (s.resetInstance p).inputs = s.inputs :=
  (State.setPort_inputs _ p _).trans (onlyInstance_resetUnit s p).inputs

theorem sameUnit_reset_resetInstance (s : State) (p : PortId) : SameUnit p State.reset (s.resetInstance p) :=
  (sameUnit_reset_resetUnit s p).trans (sameUnit_setPort p p _ _)

/-- Nothing of another instance changes. -/
theorem State.resetInstance_others (s : State) {p q : PortId} (hq : q ≠ p) :
    SameUnit q s (s.resetInstance p) ∧ (s.resetInstance p).port q = s.port q := by
  obtain ⟨hunit, hport⟩ := (onlyInstance_resetUnit s p).others q hq
  exact ⟨hunit.trans (sameUnit_setPort q p _ _), (State.setPort_port_ne _ p _ q hq).trans hport⟩

/-! The step. -/

/-- A reset is taken whether or not the run is over (rule R306). -/
theorem step_reset {s : State} {p : PortId} {rest : List Input} (hin : s.inputs = .reset p :: rest) :
    step s = .next ((s.setInputs rest).resetInstance p) := by
  rw [step, takeInput, hin]

/-- Settles O8: the step is the reset of the instance, whose unit and port are written and nothing else. -/
theorem resetInputRestoresTheInstance : Obligations.ResetInputRestoresTheInstance := by
  intro s p rest hin
  refine ⟨_, step_reset hin, sameUnit_reset_resetInstance _ p, by simp, by simp, fun hpartial => ?_, fun q hq => ?_, by simp⟩
  · rw [State.resetInstance_port, State.setInputs_port]
    exact abandonPartial_of_incomplete hpartial
  · obtain ⟨hunit, hport⟩ := (s.setInputs rest).resetInstance_others hq
    exact ⟨(sameUnit_setInputs q s rest).trans hunit, hport.trans (s.setInputs_port rest q)⟩

end Sys2Proof.Machine
end
